-- ==== Sys2Proof/Word.lean ====
section
/-! DEFINITION. The widths the spec gives values (00_scope.md R11): 64-bit words of the data path, bytes of the
buffers, 32-bit control registers and command words. -/

namespace Sys2Proof

/-- A word of the data path; its arithmetic is modulo 2^64 (R11, R140). -/
abbrev Word := BitVec 64

/-- A byte of a buffer (R62: "a byte being 8 bits"). -/
abbrev Byte := BitVec 8

/-- The value of a control register, and a command word (R30, R90). -/
abbrev Reg32 := BitVec 32

end Sys2Proof
end

