-- ==== Sys2Proof/Config.lean ====
section
/-! DEFINITION. What is fixed for one TFE and no command changes: the two open parameters of 00_scope.md R10
(DBUF_BYTES and CTR_ORDER), and the names of the three variants (R2, R8) and five modes (R94). -/

namespace Sys2Proof

/-- The three variants one TFE implements (R2). Their constants are in Machine/Tables.lean. -/
inductive Variant where
  | t256
  | t512
  | t1024
deriving DecidableEq, Repr

/-- The five modes of operation (R94). -/
inductive Mode where
  | ecb
  | cbc
  | cfb
  | ofb
  | ctr
deriving DecidableEq, Repr

/-- The direction of a BLK or XFORM command (R95). -/
inductive Dir where
  | encrypt
  | decrypt
deriving DecidableEq, Repr

/-- The values of the open parameter CTR_ORDER (R10, R188): which end of the counter block is incremented. -/
inductive CtrOrder where
  | beFull
  | leFull
deriving DecidableEq, Repr

/-- The parameters the spec leaves open (R10, decisions D4 and D16).
`dbufUnits` counts the 128-byte units of a data buffer, less one: DBUF_BYTES = 128·(dbufUnits + 1) runs exactly
through the multiples of 128 from 128 to 4096, which are the values R10 allows. -/
structure Config where
  dbufUnits : Fin 32
  ctrOrder  : CtrOrder
deriving DecidableEq, Repr

/-- The default values of R10: DBUF_BYTES = 1024, CTR_ORDER = BE_FULL. -/
def Config.default : Config := { dbufUnits := 7, ctrOrder := .beFull }

end Sys2Proof
end

