-- ==== Sys2Proof/Machine/State.lean ====
section
/-! DEFINITION. The state of TFE (10_state.md R20 to R47), the host events a run is made of (20_memory.md R60,
70_reset_and_hazards.md R290, R313), and the state after reset (R45). -/

namespace Sys2Proof.Machine

/-- STATUS.PHASE (R28). -/
inductive Phase where
  /-- After reset: no engine has been constructed. -/
  | created
  /-- An engine exists: KS, TS and the bound variant are valid; no stream is open. -/
  | keyed
  /-- An engine exists and a stream is open: the bound mode and REG are valid. -/
  | stream
  /-- DISPOSE has run; every buffer and schedule is zero. -/
  | disposed
deriving DecidableEq, Repr

/-- The causes of R250. TFE itself never raises `invalidPadding`: its code is reserved for host software (R254),
which Machine/HostPadding.lean models. -/
inductive Cause where
  | size
  | unsupportedConfiguration
  | invalidPadding
  | disposedState
  | sequence
  | illegalCommand
deriving DecidableEq, Repr

/-- The five byte buffers (R26). -/
inductive Buffer where
  | key
  | twk
  | iv
  | din
  | dout
deriving DecidableEq, Repr

/-- Memory: the bytes of the local address space (R61, R62) that differ from 0x00, by rising address. An unlisted
address reads as 0x00, the reset content of every buffer (R45) and what an unmapped address reads as (R66). -/
abbrev Memory := List Host.Cell

/-- What the outside does to TFE, one at a time (R18): a host transaction of R60 or reset (R290).
`a` is a TFE-local byte offset or address; the platform decides where TFE's 0x0000 sits (R69). -/
inductive Event where
  /-- `HostCsrRead(a)`: a 32-bit register read. -/
  | csrRead (a : Nat)
  /-- `HostCsrWrite(a, v)`: a 32-bit register write; at the offset of CMD it runs the command `v`. -/
  | csrWrite (a : Nat) (v : Reg32)
  /-- `HostBufRead(a)`: a one-byte buffer read. -/
  | bufRead (a : Nat)
  /-- `HostBufWrite(a, b)`: a one-byte buffer write. -/
  | bufWrite (a : Nat) (b : Byte)
  /-- A transaction of a width that no register or buffer access has (R60, U4): `bytes` wide, at `a`. -/
  | otherWidth (a bytes : Nat)
  /-- Reset, applied from outside (R290). -/
  | reset
deriving DecidableEq, Repr

/-- What one host read returned: a register value or a buffer byte (R60). -/
inductive ReadValue where
  | csr (v : Reg32)
  | byte (b : Byte)
deriving DecidableEq, Repr

/-- Reasons a step stops with a fault. There is none: "TFE is never stuck and never hangs" (R314), and a command that
fails is a completed step whose effect is R262. No meaning raises one; that is as safe as the spec's rule. -/
inductive Fault where
deriving DecidableEq, Repr

/-- Reasons a step has no meaning. -/
inductive Refusal where
  /-- Raised by `exec` for an instruction without a meaning; no instruction of this model is one. Safe. -/
  | notModelled (mnemonic : String)
  /-- Raised by the host port for a transaction outside the four kinds of R60 (another width, a misaligned register
  offset, an address outside the ranges): "a model gives it no meaning" (R60, U4). Safe. -/
  | outsideInterface
deriving DecidableEq, Repr

/-- The whole state: the architectural state of R20, the parameters of R10, and the two lists of the environment. -/
structure State where
  /-- DBUF_BYTES and CTR_ORDER (R10). Parameters, not state of the spec: no step writes them. -/
  cfg     : Config
  /-- STATUS.PHASE (R28, R33). -/
  phase   : Phase
  /-- STATUS.VAR, the bound variant (R33); `t256`, whose code is 0, when no engine exists. -/
  var     : Variant
  /-- STATUS.MODE, the bound mode (R33); `ecb`, whose code is 0, when no stream is open. -/
  mode    : Mode
  /-- STATUS.LASTERR (R33): the cause of the most recent command if it failed. -/
  lastErr : Option Cause
  /-- ERRSTAT (R34). -/
  errStat : Reg32
  /-- KEY_LEN (R35). -/
  keyLen  : Reg32
  /-- TWK_LEN (R36). -/
  twkLen  : Reg32
  /-- IV_LEN (R37). -/
  ivLen   : Reg32
  /-- DATA_LEN (R38). -/
  dataLen : Reg32
  /-- OUT_LEN (R39). -/
  outLen  : Reg32
  /-- ERRINFO (R41). -/
  errInfo : Reg32
  /-- KS[0..16], the KeySchedule (R21). -/
  ks      : Vector Word 17
  /-- TS[0..2], the TweakSchedule (R22). -/
  ts      : Vector Word 3
  /-- REG[0..15], the ModeState (R23). -/
  reg     : Vector Word 16
  /-- The five buffers (R26), at their addresses of R61. -/
  mem     : Memory
  /-- Model's own: the events still to come, in the order the host issues them (R71, R313). -/
  inputs  : List Event
  /-- Model's own: the values the host's reads have returned, oldest first, the observable trace of R313. -/
  trace   : List ReadValue
deriving DecidableEq, Repr

/-- The state after reset (R45, R290) of a TFE with parameters `c`, no event pending and nothing yet observed. -/
def State.resetWith (c : Config) : State :=
  { cfg := c, phase := .created, var := .t256, mode := .ecb, lastErr := none
    errStat := 0, keyLen := 0, twkLen := 0, ivLen := 0, dataLen := 0, outLen := 0, errInfo := 0
    ks := Vector.replicate 17 0, ts := Vector.replicate 3 0, reg := Vector.replicate 16 0
    mem := [], inputs := [], trace := [] }

/-- The state after reset, with the default parameters of R10. -/
def State.reset : State := State.resetWith Config.default

end Sys2Proof.Machine
end

