-- ==== Sys2Proof/Machine/Tables.lean ====
section
/-! DEFINITION. The constants: per variant (00_scope.md R8), C240 (R9), ID_VALUE and the capacity (R10), the address map
(20_memory.md R61), the codes of the enumerations (R8, R28, R94, R250), and the rotation and permutation tables
(41_block_cipher.md R143, R144). -/

namespace Sys2Proof.Machine

/-- DBUF_BYTES (R10): the capacity in bytes of DIN and of DOUT, a multiple of 128 from 128 to 4096. -/
def dbufBytes (c : Config) : Nat := 128 * (c.dbufUnits.val + 1)

/-- C240 (R9). -/
def c240 : Word := 0x1BD11BDAA9FC1A22

/-- ID_VALUE (R10, R31). -/
def idValue : Reg32 := 0x54464531

/-- W, the number of 64-bit words of a block (R8). -/
def wordCount : Variant → Nat
  | .t256  => 4
  | .t512  => 8
  | .t1024 => 16

/-- B, the BlockSize, which is also the KeySize, in bytes (R8). -/
def blockBytes (v : Variant) : Nat := 8 * wordCount v

/-- TweakSize in bytes (R8). -/
def tweakBytes : Nat := 16

/-- R, the number of rounds (R8). -/
def roundCount : Variant → Nat
  | .t256  => 72
  | .t512  => 72
  | .t1024 => 80

/-- The base address of a buffer (R61). -/
def bufBase : Buffer → Nat
  | .key  => 0x0100
  | .twk  => 0x0180
  | .iv   => 0x0200
  | .din  => 0x1000
  | .dout => 0x2000

/-- The size of a buffer in bytes (R26, R61). -/
def bufSize (c : Config) : Buffer → Nat
  | .key  => 128
  | .twk  => 16
  | .iv   => 128
  | .din  => dbufBytes c
  | .dout => dbufBytes c

/-- The address `a` lies in the buffer `b` (R61). -/
def inBuffer (c : Config) (b : Buffer) (a : Nat) : Bool := bufBase b ≤ a && a < bufBase b + bufSize c b

/-- The code of STATUS.PHASE (R28). -/
def phaseCode : Phase → Nat
  | .created  => 0
  | .keyed    => 1
  | .stream   => 2
  | .disposed => 3

/-- The code of STATUS.VAR (R8). -/
def variantCode : Variant → Nat
  | .t256  => 0
  | .t512  => 1
  | .t1024 => 2

/-- The code of STATUS.MODE (R94). -/
def modeCode : Mode → Nat
  | .ecb => 0
  | .cbc => 1
  | .cfb => 2
  | .ofb => 3
  | .ctr => 4

/-- The cause codes (R250). -/
def causeCode : Cause → Nat
  | .size                     => 1
  | .unsupportedConfiguration => 2
  | .invalidPadding           => 3
  | .disposedState            => 4
  | .sequence                 => 5
  | .illegalCommand           => 6

/-- ROT4, ROT8, ROT16 (R143): the eight rows, one for each `d mod 8`, of W/2 rotation amounts. -/
def rotTable : Variant → List (List Nat)
  | .t256 =>
    [[14, 16], [52, 57], [23, 40], [5, 37], [25, 33], [46, 12], [58, 22], [32, 32]]
  | .t512 =>
    [[46, 36, 19, 37], [33, 27, 14, 42], [17, 49, 36, 39], [44, 9, 54, 56],
     [39, 30, 34, 24], [13, 50, 10, 17], [25, 29, 39, 43], [8, 35, 56, 22]]
  | .t1024 =>
    [[24, 13, 8, 47, 8, 17, 22, 37], [38, 19, 10, 55, 49, 18, 23, 52],
     [33, 4, 51, 13, 34, 41, 59, 17], [5, 20, 48, 41, 47, 28, 16, 25],
     [41, 9, 37, 31, 12, 47, 44, 30], [16, 34, 56, 51, 4, 53, 42, 41],
     [31, 44, 47, 46, 19, 42, 44, 25], [9, 48, 35, 52, 23, 31, 37, 20]]

/-- The row of the rotation table that round `d` uses (R143). -/
def rotRow (v : Variant) (d : Nat) : List Nat := (rotTable v).getD (d % 8) []

/-- PI4, PI8, PI16 (R144): word i of the next round's array is word PI[i] of the mixed one. -/
def piTable : Variant → List Nat
  | .t256  => [0, 3, 2, 1]
  | .t512  => [2, 1, 4, 7, 6, 5, 0, 3]
  | .t1024 => [0, 9, 2, 13, 6, 11, 4, 15, 10, 7, 12, 3, 14, 5, 8, 1]

/-- INV4, INV8, INV16 (R144), the inverse permutations. -/
def invTable : Variant → List Nat
  | .t256  => [0, 3, 2, 1]
  | .t512  => [6, 1, 0, 7, 2, 5, 4, 3]
  | .t1024 => [0, 15, 2, 11, 6, 13, 4, 9, 14, 1, 8, 5, 10, 3, 12, 7]

end Sys2Proof.Machine
end

