-- ==== Sys2Proof/Machine/Flags.lean ====
section
/-! DEFINITION. The status bits: STATUS and its fields (10_state.md R33), ERRSTAT (R34), ERRINFO (R41), and the phase
checks (R29). TFE has no condition codes (R42). -/

namespace Sys2Proof.Machine

/-- The code of STATUS.LASTERR (R33): 0 when the last command completed. -/
def lastErrCode : Option Cause → Nat
  | none   => 0
  | some c => causeCode c

/-- The value of STATUS (R33): PHASE 1:0, VAR 3:2, MODE 6:4, LASTERR 10:8, every other bit 0. -/
def statusWord (s : State) : Reg32 :=
  BitVec.ofNat 32 (phaseCode s.phase + 4 * variantCode s.var + 16 * modeCode s.mode + 256 * lastErrCode s.lastErr)

/-- ERRSTAT with the bit of cause `c` set (R34, R262). -/
def setErrBit (e : Reg32) (c : Cause) : Reg32 := e ||| BitVec.ofNat 32 (2 ^ causeCode c)

/-- ERRSTAT after the host writes `v`: write-1-to-clear (R34). -/
def clearErrBits (e v : Reg32) : Reg32 := e &&& ~~~v

/-- The length registers, as ERRINFO.WHAT names them (R41). -/
inductive LengthName where
  | key
  | twk
  | iv
  | data
deriving DecidableEq, Repr

/-- The codes of ERRINFO.WHAT (R41). -/
def whatCode : LengthName → Nat
  | .key  => 1
  | .twk  => 2
  | .iv   => 3
  | .data => 4

/-- The value of ERRINFO (R41, R262): `{CMDLO = word[15:0], EXPECT, 00000, WHAT}`. -/
def errInfoWord (word : Reg32) (expect what : Nat) : Reg32 :=
  word.extractLsb' 0 16 ++ BitVec.ofNat 8 expect ++ (0 : BitVec 5) ++ BitVec.ofNat 3 what

/-- The phase check of ENCB, DECB and START (R29, R153, R171): the error they raise, if any. -/
def needsEngine : Phase → Option Cause
  | .created  => some .sequence
  | .keyed    => none
  | .stream   => none
  | .disposed => some .disposedState

/-- The phase check of XFORM (R29, R175): the error it raises, if any. -/
def needsStream : Phase → Option Cause
  | .created  => some .sequence
  | .keyed    => some .sequence
  | .stream   => none
  | .disposed => some .disposedState

end Sys2Proof.Machine
end

