-- ==== Sys2Proof/Machine/Ops.lean ====
section
/-! DEFINITION. The named operations: reading and writing memory (20_memory.md R61 to R66), a failing command
(60_exceptions.md R262), a completing command, zeroing (44_dispose.md R241) and reset (70_reset_and_hazards.md R290). -/

namespace Sys2Proof.Machine

/-- The byte at an address; what is not listed reads as 0x00 (R45, R66). -/
def Memory.read : Memory → Nat → Byte
  | [], _ => 0
  | (k, v) :: m, a => if k = a then v else Memory.read m a

/-- Stores a byte and keeps the canonical form: rising addresses, no byte 0x00 listed. -/
def Memory.write : Memory → Nat → Byte → Memory
  | [], a, b => if b = 0 then [] else [(a, b)]
  | (k, v) :: m, a, b =>
    if a < k then (if b = 0 then (k, v) :: m else (a, b) :: (k, v) :: m)
    else if a = k then (if b = 0 then m else (a, b) :: m)
    else (k, v) :: Memory.write m a b

/-- The canonical form: addresses strictly rising, and no entry equal to what an unlisted address reads as. -/
def Memory.wf (m : Memory) : Bool :=
  decide (List.Pairwise (fun x y => x.1 < y.1) m) && m.all (fun c => c.2 != 0)

/-- The `n` bytes from address `a` on. -/
def Memory.readBytes (m : Memory) (a n : Nat) : List Byte := (List.range n).map fun k => m.read (a + k)

/-- Stores a string of bytes from address `a` on. -/
def Memory.writeBytes : Memory → Nat → List Byte → Memory
  | m, _, [] => m
  | m, a, b :: bs => Memory.writeBytes (m.write a b) (a + 1) bs

/-- `raise` (R262): a command that fails with cause `c` writes LASTERR, its bit of ERRSTAT, ERRINFO and OUT_LEN, and
nothing else. -/
def raiseError (c : Cause) (expect what : Nat) (word : Reg32) (s : State) : State :=
  { s with lastErr := some c, errStat := setErrBit s.errStat c,
           errInfo := errInfoWord word expect what, outLen := 0 }

/-- SizeError (R251): ERRINFO names the length register that was wrong and the size expected. -/
def raiseSize (what : LengthName) (expect : Nat) (word : Reg32) (s : State) : State :=
  raiseError .size expect (whatCode what) word s

/-- Any other cause (R252, R253, R255, R256): WHAT and EXPECT are 0. -/
def raiseCause (c : Cause) (word : Reg32) (s : State) : State := raiseError c 0 0 word s

/-- What every completing command writes: LASTERR (R33) and OUT_LEN (R39). -/
def complete (out : Reg32) (s : State) : State := { s with lastErr := none, outLen := out }

/-- `zeroize()` (R241): schedules, REG, every buffer byte, the four length registers and OUT_LEN. -/
def zeroize (s : State) : State :=
  { s with ks := Vector.replicate 17 0, ts := Vector.replicate 3 0, reg := Vector.replicate 16 0, mem := [],
           keyLen := 0, twkLen := 0, ivLen := 0, dataLen := 0, outLen := 0 }

/-- The reset event (R290, R291): every piece of TFE's state takes the value of R45. The parameters, the events still
to come and the host's record of past reads are outside TFE and stay. -/
def hardReset (s : State) : State := { State.resetWith s.cfg with inputs := s.inputs, trace := s.trace }

end Sys2Proof.Machine
end

