-- ==== Sys2Proof/Machine/Disposal.lean ====
section
/-! DEFINITION. DISPOSE (44_dispose.md R240 to R244). -/

namespace Sys2Proof.Machine

/-- What DISPOSE does (R240): `zeroize()`, then the status. ERRSTAT and ERRINFO stay (R241). -/
def scrub (s : State) : State := complete 0 { zeroize s with phase := .disposed, var := .t256, mode := .ecb }

/-- DISPOSE (R240): allowed in every phase, and it cannot fail (R242). -/
def execDispose (s : State) : Host.Outcome State Fault Refusal := .next (scrub s)

end Sys2Proof.Machine
end

