-- ==== Sys2Proof/Syntax.lean ====
section
/-! DEFINITION. The thirteen commands (30_encoding.md R97), one constructor for each row of the opcode table. A command
has no operand in its word but DIR, MODE and VAR (R96), and the table gives each value of those a row of its own. -/

namespace Sys2Proof

/-- A legal command (R97). -/
inductive Instr where
  /-- INIT.256, word 0x00000001 (R127). -/
  | init256
  /-- INIT.512, word 0x00000101 (R128). -/
  | init512
  /-- INIT.1024, word 0x00000201 (R129). -/
  | init1024
  /-- ENCB, word 0x00000002 (R154). -/
  | encb
  /-- DECB, word 0x00000012 (R155). -/
  | decb
  /-- START.ECB, word 0x00000003 (R190). -/
  | startEcb
  /-- START.CBC, word 0x00000023 (R191). -/
  | startCbc
  /-- START.CFB, word 0x00000043 (R192). -/
  | startCfb
  /-- START.OFB, word 0x00000063 (R193). -/
  | startOfb
  /-- START.CTR, word 0x00000083 (R194). -/
  | startCtr
  /-- XFORM.E, word 0x00000004 (R177). -/
  | xformE
  /-- XFORM.D, word 0x00000014 (R178). -/
  | xformD
  /-- DISPOSE, word 0x00000005 (R240). -/
  | dispose
deriving DecidableEq, Repr

end Sys2Proof
end

