-- ==== Sys2Proof/WellFormed.lean ====
section
/-! DEFINITION. When the five fields of a command word form a command (30_encoding.md R90 to R99). Instr itself has no
operand, so every term of Instr is well formed; what can be ill formed is the word, field by field. -/

namespace Sys2Proof

/-- The fields of the one command format CW (R90). -/
structure CommandFields where
  op   : BitVec 4
  dir  : BitVec 1
  mode : BitVec 3
  var  : BitVec 2
  zero : BitVec 22
deriving DecidableEq, Repr

/-- The field ZERO must be 0 (R90, R99). -/
def CommandFields.zeroIsZero (f : CommandFields) : Bool := f.zero == 0

/-- OP names an operation: 1 to 5 (R92). -/
def CommandFields.opExists (f : CommandFields) : Bool := 1 ≤ f.op.toNat && f.op.toNat ≤ 5

/-- DIR is 0 unless the operation is BLK or XFORM (R91). -/
def CommandFields.dirAllowed (f : CommandFields) : Bool := f.dir == 0 || f.op == 2 || f.op == 4

/-- MODE is 0 unless the operation is START (R91). -/
def CommandFields.modeAllowed (f : CommandFields) : Bool := f.mode == 0 || f.op == 3

/-- VAR is 0 unless the operation is INIT (R91). -/
def CommandFields.varAllowed (f : CommandFields) : Bool := f.var == 0 || f.op == 1

/-- VAR names a variant: 3 is reserved (R93, R98). -/
def CommandFields.varExists (f : CommandFields) : Bool := f.var != 3

/-- MODE names a mode: 5 to 7 are reserved (R94, R98). -/
def CommandFields.modeExists (f : CommandFields) : Bool := f.mode.toNat ≤ 4

/-- The fields are those of one of the thirteen commands of R97. -/
def CommandFields.wellFormed (f : CommandFields) : Bool :=
  f.zeroIsZero && f.opExists && f.dirAllowed && f.modeAllowed && f.varAllowed && f.varExists && f.modeExists

end Sys2Proof
end

