-- ==== Sys2Proof/Decode.lean ====
section
/-! DEFINITION. The decoder of 30_encoding.md R102, total on every 32-bit word, and the encoder of R97. A command word
is a 32-bit value that reaches TFE whole (R60: "no byte order applies to them"), so the decoder reads a value and
no byte sequence. -/

namespace Sys2Proof

/-- What the decoder says of a word: one of the three classes of R99, R102. -/
inductive Decoded where
  /-- One of the thirteen commands. -/
  | legal (i : Instr)
  /-- INIT with VAR = 3 (R98). -/
  | reservedInit
  /-- START with MODE = 5, 6 or 7 (R98). -/
  | reservedStart
  /-- No command (R99). -/
  | illegal
deriving DecidableEq, Repr

/-- The fields of a word (R90): OP 3:0, DIR 4, MODE 7:5, VAR 9:8, ZERO 31:10. -/
def splitFields (w : Reg32) : CommandFields :=
  { op   := w.extractLsb' 0 4
    dir  := w.extractLsb' 4 1
    mode := w.extractLsb' 5 3
    var  := w.extractLsb' 8 2
    zero := w.extractLsb' 10 22 }

/-- The word with the given fields (R90); `splitFields` undoes it. -/
def joinFields (f : CommandFields) : Reg32 := f.zero ++ f.var ++ f.mode ++ f.dir ++ f.op

/-- INIT by VAR (R93). -/
def decodeInit (var : BitVec 2) : Decoded :=
  match var.toNat with
  | 0 => .legal .init256
  | 1 => .legal .init512
  | 2 => .legal .init1024
  | _ => .reservedInit

/-- START by MODE (R94). -/
def decodeStart (mode : BitVec 3) : Decoded :=
  match mode.toNat with
  | 0 => .legal .startEcb
  | 1 => .legal .startCbc
  | 2 => .legal .startCfb
  | 3 => .legal .startOfb
  | 4 => .legal .startCtr
  | _ => .reservedStart

/-- The decoder on the fields, case by case as R102 writes it. -/
def decodeFields (f : CommandFields) : Decoded :=
  if f.zero ≠ 0 then .illegal
  else match f.op.toNat with
  | 1 => if f.dir ≠ 0 ∨ f.mode ≠ 0 then .illegal else decodeInit f.var
  | 2 => if f.mode ≠ 0 ∨ f.var ≠ 0 then .illegal else if f.dir = 0 then .legal .encb else .legal .decb
  | 3 => if f.dir ≠ 0 ∨ f.var ≠ 0 then .illegal else decodeStart f.mode
  | 4 => if f.mode ≠ 0 ∨ f.var ≠ 0 then .illegal else if f.dir = 0 then .legal .xformE else .legal .xformD
  | 5 => if f.dir ≠ 0 ∨ f.mode ≠ 0 ∨ f.var ≠ 0 then .illegal else .legal .dispose
  | _ => .illegal

/-- The decoder (R102): it "uses nothing but the word" (R90). -/
def decode (w : Reg32) : Decoded := decodeFields (splitFields w)

/-- The fields R97 gives each command. -/
def fieldsOf : Instr → CommandFields
  | .init256  => { op := 1, dir := 0, mode := 0, var := 0, zero := 0 }
  | .init512  => { op := 1, dir := 0, mode := 0, var := 1, zero := 0 }
  | .init1024 => { op := 1, dir := 0, mode := 0, var := 2, zero := 0 }
  | .encb     => { op := 2, dir := 0, mode := 0, var := 0, zero := 0 }
  | .decb     => { op := 2, dir := 1, mode := 0, var := 0, zero := 0 }
  | .startEcb => { op := 3, dir := 0, mode := 0, var := 0, zero := 0 }
  | .startCbc => { op := 3, dir := 0, mode := 1, var := 0, zero := 0 }
  | .startCfb => { op := 3, dir := 0, mode := 2, var := 0, zero := 0 }
  | .startOfb => { op := 3, dir := 0, mode := 3, var := 0, zero := 0 }
  | .startCtr => { op := 3, dir := 0, mode := 4, var := 0, zero := 0 }
  | .xformE   => { op := 4, dir := 0, mode := 0, var := 0, zero := 0 }
  | .xformD   => { op := 4, dir := 1, mode := 0, var := 0, zero := 0 }
  | .dispose  => { op := 5, dir := 0, mode := 0, var := 0, zero := 0 }

/-- The word of a command (R97): `OP + 16·DIR + 32·MODE + 256·VAR`. -/
def encode (i : Instr) : Reg32 := joinFields (fieldsOf i)

/-- The command the decoder reads from a word numbered as the opcode table numbers it (bit 0 least significant).
A command is 32 bits long (R90); a number that does not fit in 32 bits is no command word. -/
def decodeTableWord (nbits w : Nat) : Option Instr :=
  if w % 2 ^ nbits < 2 ^ 32 then
    match decode (BitVec.ofNat 32 (w % 2 ^ nbits)) with
    | .legal i => some i
    | _ => none
  else none

end Sys2Proof
end

