-- ==== Sys2Proof/Machine/Operands.lean ====
section
/-! DEFINITION. The operands of the commands: little-endian words in byte strings and buffers (00_scope.md R13,
20_memory.md R63, R64, R76) and the byte image of REG (42_mode_transform.md R173). -/

namespace Sys2Proof.Machine

/-- The number a byte string holds, the first byte least significant (R13). -/
def leNat : List Byte → Nat
  | [] => 0
  | b :: bs => b.toNat + 256 * leNat bs

/-- The `n` low bytes of a number, the least significant first (R13, R64). -/
def leBytes : Nat → Nat → List Byte
  | 0, _ => []
  | n + 1, x => BitVec.ofNat 8 x :: leBytes n (x / 256)

/-- `le64(B, o)` of a byte string (R13). -/
def le64 (bs : List Byte) (o : Nat) : Word := BitVec.ofNat 64 (leNat ((bs.drop o).take 8))

/-- `words(B, 0, n)` (R13). -/
def wordsOf (n : Nat) (bs : List Byte) : List Word := (List.range n).map fun i => le64 bs (8 * i)

/-- `bytes(L)` (R13). -/
def bytesOf (ws : List Word) : List Byte := ws.flatMap fun w => leBytes 8 w.toNat

/-- `MemRead(addr, n)` (R64), as a number below 256^n. -/
def memRead (m : Memory) (a n : Nat) : Nat := leNat (m.readBytes a n)

/-- `le64(BUF, o)`: the engine reads eight bytes of a buffer as a word (R63, R64). -/
def bufWord (s : State) (b : Buffer) (o : Nat) : Word := BitVec.ofNat 64 (memRead s.mem (bufBase b + o) 8)

/-- `BUF[o .. o+n)` (R13). -/
def bufBytes (s : State) (b : Buffer) (o n : Nat) : List Byte := s.mem.readBytes (bufBase b + o) n

/-- `BUF[o .. o+n) <- bs`, n the length of `bs`. -/
def putBuf (b : Buffer) (o : Nat) (bs : List Byte) (s : State) : State :=
  { s with mem := s.mem.writeBytes (bufBase b + o) bs }

/-- The exclusive or of byte strings (R173). -/
def xorBytes (x y : List Byte) : List Byte := List.zipWith (fun a b => a ^^^ b) x y

/-- RB, the byte image `bytes(REG[0..W-1])` of the register (R23, R173). -/
def regBytes (s : State) : List Byte := bytesOf (s.reg.toList.take (wordCount s.var))

/-- `REG <- Z` (R173): REG[i] for i below W; the other words stay. -/
def putReg (z : List Byte) (s : State) : State :=
  { s with reg := Vector.ofFn fun i => if i.val < wordCount s.var then le64 z (8 * i.val) else s.reg[i] }

end Sys2Proof.Machine
end

