-- ==== Sys2Proof/Machine/Expansion.lean ====
section
/-! DEFINITION. Key and tweak expansion: INIT.256, INIT.512, INIT.1024 (40_key_tweak_expansion.md R120 to R131). -/

namespace Sys2Proof.Machine

/-- The key words k[0..W-1] (R122). -/
def keyWords (v : Variant) (s : State) : List Word :=
  (List.range (wordCount v)).map fun i => bufWord s .key (8 * i)

/-- KS[W]: C240 and all key words, exclusive-ored (R123). -/
def parityWord (k : List Word) : Word := k.foldl (fun p w => p ^^^ w) c240

/-- KS[0..16] (R123): the key words, the parity word, zeros. -/
def keySchedule (v : Variant) (s : State) : Vector Word 17 :=
  Vector.ofFn fun j => (keyWords v s ++ [parityWord (keyWords v s)]).getD j.val 0

/-- TS[0..2] (R124): T0, T1, T0 ^ T1. -/
def tweakSchedule (s : State) : Vector Word 3 :=
  #v[bufWord s .twk 0, bufWord s .twk 8, bufWord s .twk 0 ^^^ bufWord s .twk 8]

/-- What a completed INIT does (R123 to R126). -/
def bindEngine (v : Variant) (s : State) : State :=
  complete 0 { s with ks := keySchedule v s, ts := tweakSchedule s, reg := Vector.replicate 16 0,
                      phase := .keyed, var := v, mode := .ecb }

/-- INIT.v, with the checks of R121 in their order. The word is legal and names a variant when this runs. -/
def initEngine (v : Variant) (word : Reg32) (s : State) : State :=
  if s.keyLen.toNat ≠ blockBytes v then raiseSize .key (blockBytes v) word s
  else if s.twkLen.toNat ≠ tweakBytes then raiseSize .twk tweakBytes word s
  else bindEngine v s

/-- INIT.256 (R127). -/
def execInit256 (s : State) : Host.Outcome State Fault Refusal := .next (initEngine .t256 (encode .init256) s)

/-- INIT.512 (R128). -/
def execInit512 (s : State) : Host.Outcome State Fault Refusal := .next (initEngine .t512 (encode .init512) s)

/-- INIT.1024 (R129). -/
def execInit1024 (s : State) : Host.Outcome State Fault Refusal := .next (initEngine .t1024 (encode .init1024) s)

end Sys2Proof.Machine
end

