-- ==== Sys2Proof/Machine/BlockCipher.lean ====
section
/-! DEFINITION. The ARX round pipeline and the block commands ENCB and DECB (41_block_cipher.md R140 to R159). -/

namespace Sys2Proof.Machine

/-- `rotl(x, r)`, the amount taken modulo 64 (R12). -/
def rotl (x : Word) (r : Nat) : Word :=
  if r % 64 = 0 then x else (x <<< (r % 64)) ||| (x >>> (64 - r % 64))

/-- `rotr(x, r)` (R12). -/
def rotr (x : Word) (r : Nat) : Word := rotl x ((64 - r % 64) % 64)

/-- `Mix(a, b, r)` (R141). -/
def mix (a b : Word) (r : Nat) : Word × Word := (a + b, rotl b r ^^^ (a + b))

/-- `Unmix(a', b', r)` (R142). -/
def unmix (a' b' : Word) (r : Nat) : Word × Word := (a' - rotr (b' ^^^ a') r, rotr (b' ^^^ a') r)

/-- Mix on the pairs (0,1), (2,3), … of the array (R145). -/
def mixPairs : List Nat → List Word → List Word
  | r :: rs, a :: b :: v => (mix a b r).1 :: (mix a b r).2 :: mixPairs rs v
  | _, _ => []

/-- Unmix on the pairs (0,1), (2,3), … of the array (R146). -/
def unmixPairs : List Nat → List Word → List Word
  | r :: rs, a :: b :: v => (unmix a b r).1 :: (unmix a b r).2 :: unmixPairs rs v
  | _, _ => []

/-- The array whose word i is word `p[i]` of the given one (R145, R146). -/
def permute (p : List Nat) (f : List Word) : List Word := p.map fun i => f.getD i 0

/-- Forward round d (R145). -/
def forwardRound (v : Variant) (d : Nat) (x : List Word) : List Word :=
  permute (piTable v) (mixPairs (rotRow v d) x)

/-- Inverse round d (R146). -/
def inverseRound (v : Variant) (d : Nat) (y : List Word) : List Word :=
  unmixPairs (rotRow v d) (permute (invTable v) y)

/-- What subkey s adds to the schedule word at position i (R147): two tweak words and the counter. -/
def subkeyExtra (v : Variant) (ts : Vector Word 3) (s i : Nat) : Word :=
  if i + 3 = wordCount v then ts.toList.getD (s % 3) 0
  else if i + 2 = wordCount v then ts.toList.getD ((s + 1) % 3) 0
  else if i + 1 = wordCount v then BitVec.ofNat 64 s
  else 0

/-- `SK(s)` (R147). -/
def subkey (v : Variant) (ks : Vector Word 17) (ts : Vector Word 3) (s : Nat) : List Word :=
  (List.range (wordCount v)).map fun i =>
    ks.toList.getD ((s + i) % (wordCount v + 1)) 0 + subkeyExtra v ts s i

/-- Injection: word-wise addition (R148). -/
def inject (x k : List Word) : List Word := List.zipWith (fun a b => a + b) x k

/-- The inverse of injection: word-wise subtraction (R148). -/
def eject (x k : List Word) : List Word := List.zipWith (fun a b => a - b) x k

/-- Rounds 0 to n−1 of encryption, with the subkey added before round d whenever d mod 4 = 0 (R150, R151). -/
def encryptRounds (v : Variant) (ks : Vector Word 17) (ts : Vector Word 3) : Nat → List Word → List Word
  | 0, x => x
  | d + 1, x =>
    if d % 4 = 0 then forwardRound v d (inject (encryptRounds v ks ts d x) (subkey v ks ts (d / 4)))
    else forwardRound v d (encryptRounds v ks ts d x)

/-- Rounds n−1 down to 0 of decryption, with the subkey subtracted after round d whenever d mod 4 = 0 (R152). -/
def decryptRounds (v : Variant) (ks : Vector Word 17) (ts : Vector Word 3) : Nat → List Word → List Word
  | 0, y => y
  | d + 1, y =>
    if d % 4 = 0 then decryptRounds v ks ts d (eject (inverseRound v d y) (subkey v ks ts (d / 4)))
    else decryptRounds v ks ts d (inverseRound v d y)

/-- E_K on the word array: R rounds and the final injection (R151). -/
def encryptWords (v : Variant) (ks : Vector Word 17) (ts : Vector Word 3) (x : List Word) : List Word :=
  inject (encryptRounds v ks ts (roundCount v) x) (subkey v ks ts (roundCount v / 4))

/-- D_K on the word array (R152). -/
def decryptWords (v : Variant) (ks : Vector Word 17) (ts : Vector Word 3) (y : List Word) : List Word :=
  decryptRounds v ks ts (roundCount v) (eject y (subkey v ks ts (roundCount v / 4)))

/-- `E_K(X)` under the schedules and the bound variant of `s` (R151). -/
def encryptBlock (s : State) (x : List Byte) : List Byte :=
  bytesOf (encryptWords s.var s.ks s.ts (wordsOf (wordCount s.var) x))

/-- `D_K(Y)` under the schedules and the bound variant of `s` (R152). -/
def decryptBlock (s : State) (y : List Byte) : List Byte :=
  bytesOf (decryptWords s.var s.ks s.ts (wordsOf (wordCount s.var) y))

/-- What a completed ENCB or DECB does (R154, R155), `f` being E_K or D_K. -/
def runBlock (f : List Byte → List Byte) (s : State) : State :=
  complete (BitVec.ofNat 32 (blockBytes s.var)) (putBuf .dout 0 (f (bufBytes s .din 0 (blockBytes s.var))) s)

/-- ENCB or DECB, with the checks of R153 in their order. -/
def blockCommand (f : List Byte → List Byte) (word : Reg32) (s : State) : State :=
  match needsEngine s.phase with
  | some c => raiseCause c word s
  | none =>
    if s.dataLen.toNat ≠ blockBytes s.var then raiseSize .data (blockBytes s.var) word s
    else runBlock f s

/-- ENCB (R154). -/
def execEncb (s : State) : Host.Outcome State Fault Refusal := .next (blockCommand (encryptBlock s) (encode .encb) s)

/-- DECB (R155). -/
def execDecb (s : State) : Host.Outcome State Fault Refusal := .next (blockCommand (decryptBlock s) (encode .decb) s)

end Sys2Proof.Machine
end

