-- ==== Sys2Proof/Machine/ModeTransform.lean ====
section
/-! DEFINITION. The mode transform engine: START and XFORM (42_mode_transform.md R170 to R198). -/

namespace Sys2Proof.Machine

/-- What a completed START.m does (R172). -/
def openStream (m : Mode) (s : State) : State :=
  complete 0 { s with
    reg := Vector.ofFn fun i => if i.val < wordCount s.var then bufWord s .iv (8 * i.val) else 0
    mode := m, phase := .stream }

/-- START.m, with the checks of R171 in their order. The word is legal and names a mode when this runs. -/
def startStream (m : Mode) (word : Reg32) (s : State) : State :=
  match needsEngine s.phase with
  | some c => raiseCause c word s
  | none =>
    if s.ivLen.toNat ≠ blockBytes s.var then raiseSize .iv (blockBytes s.var) word s
    else openStream m s

/-- START.ECB (R190). -/
def execStartEcb (s : State) : Host.Outcome State Fault Refusal := .next (startStream .ecb (encode .startEcb) s)

/-- START.CBC (R191). -/
def execStartCbc (s : State) : Host.Outcome State Fault Refusal := .next (startStream .cbc (encode .startCbc) s)

/-- START.CFB (R192). -/
def execStartCfb (s : State) : Host.Outcome State Fault Refusal := .next (startStream .cfb (encode .startCfb) s)

/-- START.OFB (R193). -/
def execStartOfb (s : State) : Host.Outcome State Fault Refusal := .next (startStream .ofb (encode .startOfb) s)

/-- START.CTR (R194). -/
def execStartCtr (s : State) : Host.Outcome State Fault Refusal := .next (startStream .ctr (encode .startCtr) s)

/-- `inc(RB)` (R188): the whole block plus one, modulo 256^B, with either end least significant. -/
def incCounter : CtrOrder → List Byte → List Byte
  | .beFull, rb => (leBytes rb.length (leNat rb.reverse + 1)).reverse
  | .leFull, rb => leBytes rb.length (leNat rb + 1)

/-- The output block and the new register of one block (R180 to R189), `e` and `d` being E_K and D_K. -/
def modeStep (o : CtrOrder) (e d : List Byte → List Byte) : Mode → Dir → List Byte → List Byte →
    List Byte × List Byte
  | .ecb, .encrypt, x, rb => (e x, rb)
  | .ecb, .decrypt, x, rb => (d x, rb)
  | .cbc, .encrypt, x, rb => (e (xorBytes x rb), e (xorBytes x rb))
  | .cbc, .decrypt, x, rb => (xorBytes (d x) rb, x)
  | .cfb, .encrypt, x, rb => (xorBytes x (e rb), xorBytes x (e rb))
  | .cfb, .decrypt, x, rb => (xorBytes x (e rb), x)
  | .ofb, .encrypt, x, rb => (xorBytes x (e rb), e rb)
  | .ofb, .decrypt, x, rb => (xorBytes x (e rb), e rb)
  | .ctr, .encrypt, x, rb => (xorBytes x (e rb), incCounter o rb)
  | .ctr, .decrypt, x, rb => (xorBytes x (e rb), incCounter o rb)

/-- The output and the new register of the bound mode for input block `x`. -/
def boundStep (dir : Dir) (s : State) (x : List Byte) : List Byte × List Byte :=
  modeStep s.cfg.ctrOrder (encryptBlock s) (decryptBlock s) s.mode dir x (regBytes s)

/-- Block i of the loop of R176. -/
def xformBlock (dir : Dir) (i : Nat) (s : State) : State :=
  let r := boundStep dir s (bufBytes s .din (i * blockBytes s.var) (blockBytes s.var))
  putReg r.2 (putBuf .dout (i * blockBytes s.var) r.1 s)

/-- The first n blocks, in ascending order (R176). -/
def xformBlocks (dir : Dir) : Nat → State → State
  | 0, s => s
  | n + 1, s => xformBlock dir n (xformBlocks dir n s)

/-- DATA_LEN is a positive multiple of B and at most DBUF_BYTES (R175). -/
def xformSizeOk (s : State) : Bool :=
  0 < s.dataLen.toNat && s.dataLen.toNat % blockBytes s.var == 0 && s.dataLen.toNat ≤ dbufBytes s.cfg

/-- What a completed XFORM does (R176). -/
def runXform (dir : Dir) (s : State) : State :=
  complete s.dataLen (xformBlocks dir (s.dataLen.toNat / blockBytes s.var) s)

/-- XFORM, with the checks of R175 in their order. -/
def xformCommand (dir : Dir) (word : Reg32) (s : State) : State :=
  match needsStream s.phase with
  | some c => raiseCause c word s
  | none => if xformSizeOk s then runXform dir s else raiseSize .data (blockBytes s.var) word s

/-- XFORM.E (R177). -/
def execXformE (s : State) : Host.Outcome State Fault Refusal := .next (xformCommand .encrypt (encode .xformE) s)

/-- XFORM.D (R178). -/
def execXformD (s : State) : Host.Outcome State Fault Refusal := .next (xformCommand .decrypt (encode .xformD) s)

end Sys2Proof.Machine
end

