-- ==== Sys2Proof/Machine/Dispatch.lean ====
section
/-! DEFINITION. One meaning for each command. -/

namespace Sys2Proof.Machine

def exec (i : Instr) (s : State) : Host.Outcome State Fault Refusal :=
  match i with
  -- 40_key_tweak_expansion.md
  | .init256 => Sys2Proof.Machine.execInit256 s
  | .init512 => Sys2Proof.Machine.execInit512 s
  | .init1024 => Sys2Proof.Machine.execInit1024 s
  -- 41_block_cipher.md
  | .encb => Sys2Proof.Machine.execEncb s
  | .decb => Sys2Proof.Machine.execDecb s
  -- 42_mode_transform.md
  | .startEcb => Sys2Proof.Machine.execStartEcb s
  | .startCbc => Sys2Proof.Machine.execStartCbc s
  | .startCfb => Sys2Proof.Machine.execStartCfb s
  | .startOfb => Sys2Proof.Machine.execStartOfb s
  | .startCtr => Sys2Proof.Machine.execStartCtr s
  | .xformE => Sys2Proof.Machine.execXformE s
  | .xformD => Sys2Proof.Machine.execXformD s
  -- 44_dispose.md
  | .dispose => Sys2Proof.Machine.execDispose s

end Sys2Proof.Machine
end

