-- ==== Sys2Proof/Machine/HostPort.lean ====
section
/-! DEFINITION. The host port: running the word written to CMD (30_encoding.md R98, R99, R102, 60_exceptions.md R261)
and the four host transactions (20_memory.md R60 to R67). -/

namespace Sys2Proof.Machine

/-- INIT with VAR = 3 (R98, R252): INIT has no phase check, and no size can be checked (R261). -/
def runReservedInit (word : Reg32) (s : State) : State := raiseCause .unsupportedConfiguration word s

/-- START with MODE = 5, 6 or 7 (R98, R252): after the phase check, before the size check (R261). -/
def runReservedStart (word : Reg32) (s : State) : State :=
  match needsEngine s.phase with
  | some c => raiseCause c word s
  | none => raiseCause .unsupportedConfiguration word s

/-- A word that is no command (R99, R256), in every phase. -/
def runIllegal (word : Reg32) (s : State) : State := raiseCause .illegalCommand word s

/-- The command `word`, to its end (R32, R90). -/
def runCommand (word : Reg32) (s : State) : Host.Outcome State Fault Refusal :=
  match decode word with
  | .legal i => exec i s
  | .reservedInit => .next (runReservedInit word s)
  | .reservedStart => .next (runReservedStart word s)
  | .illegal => .next (runIllegal word s)

/-- The value `HostCsrRead` returns at offset `a` (R30 to R41); CMD and the reserved offsets read 0 (R32, R66). -/
def csrValue (s : State) (a : Nat) : Reg32 :=
  match a with
  | 0x000 => idValue
  | 0x008 => statusWord s
  | 0x00C => s.errStat
  | 0x010 => s.keyLen
  | 0x014 => s.twkLen
  | 0x018 => s.ivLen
  | 0x01C => s.dataLen
  | 0x020 => s.outLen
  | 0x024 => BitVec.ofNat 32 (dbufBytes s.cfg)
  | 0x028 => s.errInfo
  | _ => 0

/-- The offset of CMD (R30). -/
def cmdOffset : Nat := 0x004

/-- `HostCsrWrite` at an offset other than CMD (R30): read-only registers and reserved offsets ignore it (R66). -/
def csrStore (a : Nat) (v : Reg32) (s : State) : State :=
  match a with
  | 0x00C => { s with errStat := clearErrBits s.errStat v }
  | 0x010 => { s with keyLen := v }
  | 0x014 => { s with twkLen := v }
  | 0x018 => { s with ivLen := v }
  | 0x01C => { s with dataLen := v }
  | _ => s

/-- The byte `HostBufRead` returns (R61): only DOUT shows its content. -/
def bufValue (s : State) (a : Nat) : Byte := if inBuffer s.cfg .dout a then s.mem.read a else 0

/-- The address lies in a buffer the host may write (R26, R61). -/
def hostWritable (c : Config) (a : Nat) : Bool :=
  inBuffer c .key a || inBuffer c .twk a || inBuffer c .iv a || inBuffer c .din a

/-- `HostBufWrite` (R60, R61): stores the byte in a writable buffer, else nothing. -/
def bufStore (a : Nat) (b : Byte) (s : State) : State :=
  if hostWritable s.cfg a then { s with mem := s.mem.write a b } else s

/-- An offset a register transaction may name: a multiple of 4 from 0x000 to 0x0FC (R60). -/
def csrOffset (a : Nat) : Bool := a % 4 == 0 && a ≤ 0x0FC

/-- An address a buffer transaction may name: 0x100 to 0x2FFF (R60). -/
def bufAddress (a : Nat) : Bool := 0x100 ≤ a && a ≤ 0x2FFF

/-- A read has returned a value to the host (R313). -/
def observe (r : ReadValue) (s : State) : State := { s with trace := s.trace ++ [r] }

/-- One event, served (R60, R290); a transaction outside R60 is refused (U4). -/
def serve (e : Event) (s : State) : Host.Outcome State Fault Refusal :=
  match e with
  | .csrRead a => if csrOffset a then .next (observe (.csr (csrValue s a)) s) else .refused .outsideInterface
  | .csrWrite a v =>
    if csrOffset a then (if a = cmdOffset then runCommand v s else .next (csrStore a v s))
    else .refused .outsideInterface
  | .bufRead a => if bufAddress a then .next (observe (.byte (bufValue s a)) s) else .refused .outsideInterface
  | .bufWrite a b => if bufAddress a then .next (bufStore a b s) else .refused .outsideInterface
  | .otherWidth _ _ => .refused .outsideInterface
  | .reset => .next (hardReset s)

end Sys2Proof.Machine
end

