-- ==== Sys2Proof/Machine/Step.lean ====
section
/-! DEFINITION. One step: the next host event, served whole (00_scope.md R18, 20_memory.md R68, R71). TFE has no program
counter and fetches nothing (10_state.md R27): a command reaches it as a host write to CMD. -/

namespace Sys2Proof.Machine

/-- The next event is taken and served; with none to come TFE waits (R290). -/
def step (s : State) : Host.Outcome State Fault Refusal :=
  match s.inputs with
  | [] => .next s
  | e :: rest => serve e { s with inputs := rest }

/-- The word `w` of `nbits` bits as the very next event: the host's write to CMD. The events already pending stay
behind it. -/
def State.withFetchWord (s : State) (nbits w : Nat) : State :=
  { s with inputs := .csrWrite cmdOffset (BitVec.ofNat 32 (w % 2 ^ nbits)) :: s.inputs }

end Sys2Proof.Machine
end

