-- ==== Sys2Proof/Machine/HostPadding.lean ====
section
/-! DEFINITION. Host software, outside the hardware block (00_scope.md R5): the five padding strategies
(43_host_layers.md R217 to R223). No step of the machine calls anything here (R198). -/

namespace Sys2Proof.Machine

/-- The padding strategies (R218 to R222). -/
inductive Padding where
  | none
  | zeros
  | pkcs7
  | ansiX923
  | iso10126
deriving DecidableEq, Repr

/-- Errors of the host's software layers. -/
inductive HostError where
  /-- SizeError, with the size expected in bytes (R215), or the block size a length must be a multiple of (R218). -/
  | size (expected : Nat)
  /-- UnsupportedConfigurationError, raised by the host's factory (R228). -/
  | unsupportedConfiguration
  /-- InvalidPaddingError (R223). -/
  | invalidPadding
  /-- DisposedStateError: a use of a host object after its disposal (R250; for the wrapper see log entry 14). -/
  | disposedState
  /-- A use of a stream object after finalization, or a second binding: "Not reusable after finalization; a fresh
  encryptor/decryptor must be created per stream" (R226). The spec names no error (log entry 11). -/
  | notReusable
  /-- A use of a stream object before its key, IV and tweak are bound (R226). The spec names no error (log entry 11). -/
  | notInitialized
  /-- The error of R250 whose code the host has read from STATUS.LASTERR (R211). -/
  | reported (c : Cause)
  /-- The host has issued a transaction outside R60, which is refused (U4; log entry 15). -/
  | outsideInterface
deriving DecidableEq, Repr

/-- The factory of strategies (R228): `none` stands for an enumeration value that is none of the five. -/
def paddingStrategy : Option Padding → Except HostError Padding
  | some p => .ok p
  | none => .error .unsupportedConfiguration

/-- The pad count N of the counting strategies (R217). -/
def padCount (blockSize len : Nat) : Nat := blockSize - len % blockSize

/-- `Pad(X, b)` (R218 to R222); `filler` is the host's free draw for ISO 10126. -/
def pad (p : Padding) (blockSize : Nat) (filler : Nat → Byte) (x : List Byte) : Except HostError (List Byte) :=
  match p with
  | .none => if x.length % blockSize ≠ 0 then .error (.size blockSize) else .ok x
  | .zeros => .ok (x ++ List.replicate ((blockSize - x.length % blockSize) % blockSize) 0)
  | .pkcs7 => .ok (x ++ List.replicate (padCount blockSize x.length) (BitVec.ofNat 8 (padCount blockSize x.length)))
  | .ansiX923 =>
    .ok (x ++ List.replicate (padCount blockSize x.length - 1) 0 ++ [BitVec.ofNat 8 (padCount blockSize x.length)])
  | .iso10126 =>
    .ok (x ++ (List.range (padCount blockSize x.length - 1)).map filler ++ [BitVec.ofNat 8 (padCount blockSize x.length)])

/-- The last byte, taken as the pad count; an empty string has none and counts as 0. -/
def lastCount (x : List Byte) : Nat := (x.getLastD 0).toNat

/-- The count is possible: 1 ≤ count ≤ b (R220 to R222), and there are that many bytes. -/
def countFits (blockSize : Nat) (x : List Byte) : Bool :=
  1 ≤ lastCount x && lastCount x ≤ blockSize && lastCount x ≤ x.length

/-- X without its last `count` bytes. -/
def dropPad (x : List Byte) : List Byte := x.take (x.length - lastCount x)

/-- The last `count` bytes. -/
def padRegion (x : List Byte) : List Byte := x.drop (x.length - lastCount x)

/-- `Unpad(X, b)` (R218 to R222). -/
def unpad (p : Padding) (blockSize : Nat) (x : List Byte) : Except HostError (List Byte) :=
  match p with
  | .none => .ok x
  | .zeros => .ok x
  | .pkcs7 =>
    if countFits blockSize x && (padRegion x).all (fun b => b.toNat == lastCount x) then .ok (dropPad x)
    else .error .invalidPadding
  | .ansiX923 =>
    if countFits blockSize x && (padRegion x).dropLast.all (fun b => b == 0) then .ok (dropPad x)
    else .error .invalidPadding
  | .iso10126 => if countFits blockSize x then .ok (dropPad x) else .error .invalidPadding

/-- The strategies whose `Unpad` removes bytes (R225). -/
def removesBytes : Padding → Bool
  | .none     => false
  | .zeros    => false
  | .pkcs7    => true
  | .ansiX923 => true
  | .iso10126 => true

end Sys2Proof.Machine
end

