-- ==== Sys2Proof/Machine/HostLines.lean ====
section
/-! DEFINITION. Host software, outside the hardware block (00_scope.md R5): the line notation (30_encoding.md R104, R105),
and the host's dialogue with TFE, in which it sends lines, reads STATUS after each command and reads DOUT
(43_host_layers.md R211). No step of the machine calls anything here. -/

namespace Sys2Proof.Machine

/-- `csrw NAME, value`, the register by its offset (R104). -/
def lineCsrw (offset : Nat) (v : Reg32) : List Event := [.csrWrite offset v]

/-- `csrr NAME`, the register by its offset (R104). -/
def lineCsrr (offset : Nat) : List Event := [.csrRead offset]

/-- `bufw` from address `a` on, ascending (R104). -/
def lineBufw : Nat → List Byte → List Event
  | _, [] => []
  | a, b :: bs => .bufWrite a b :: lineBufw (a + 1) bs

/-- `bufr` of `n` bytes from address `a` on (R104). -/
def lineBufr (a n : Nat) : List Event := (List.range n).map fun k => .bufRead (a + k)

/-- A mnemonic alone on a line (R104). -/
def lineCommand (i : Instr) : List Event := [.csrWrite 0x004 (encode i)]

/-- A command after which the host reads STATUS (R211). -/
def checkedCommand (i : Instr) : List Event := lineCommand i ++ lineCsrr 0x008

/-- The error the host takes from the value of STATUS it has read (R211, R250): the code LASTERR, bits 10:8 (R33). -/
def reportedCause (status : Reg32) : Option Cause :=
  match (status.extractLsb' 8 3).toNat with
  | 1 => some .size
  | 2 => some .unsupportedConfiguration
  | 3 => some .invalidPadding
  | 4 => some .disposedState
  | 5 => some .sequence
  | 6 => some .illegalCommand
  | _ => none

/-- `ldkey` (R105). -/
def lineLdkey (bs : List Byte) : List Event := lineBufw (bufBase .key) bs ++ lineCsrw 0x010 (BitVec.ofNat 32 bs.length)

/-- `ldtwk` (R105). -/
def lineLdtwk (bs : List Byte) : List Event := lineBufw (bufBase .twk) bs ++ lineCsrw 0x014 (BitVec.ofNat 32 bs.length)

/-- `ldiv` (R105). -/
def lineLdiv (bs : List Byte) : List Event := lineBufw (bufBase .iv) bs ++ lineCsrw 0x018 (BitVec.ofNat 32 bs.length)

/-- `lddata` (R105). -/
def lineLddata (bs : List Byte) : List Event := lineBufw (bufBase .din) bs ++ lineCsrw 0x01C (BitVec.ofNat 32 bs.length)

/-- `rdout` (R105), `n` being the value the read of OUT_LEN gives. -/
def lineRdout (n : Nat) : List Event := .csrRead 0x020 :: lineBufr (bufBase .dout) n

/-- `clrerr` (R105). -/
def lineClrerr : List Event := lineCsrw 0x00C 0x0000007E

/-- A pseudo-line whose byte string is longer than its buffer is not valid (R105). -/
def lineValid (c : Config) (b : Buffer) (bs : List Byte) : Bool := bs.length ≤ bufSize c b

/-- The host issues its lines one after another (R71), each served as `step` serves it; a line outside R60 ends the
dialogue. -/
def sendLines : List Event → State → State × Except HostError Unit
  | [], s => (s, .ok ())
  | e :: es, s =>
    match serve e s with
    | .next t    => sendLines es t
    | .fault f   => nomatch f
    | .refused _ => (s, .error .outsideInterface)

/-- The next part of a dialogue, unless an error has ended it. TFE stays in the state the error left (log entry 15). -/
def andThen {α β : Type} (r : State × Except HostError α) (f : α → State → State × Except HostError β) :
    State × Except HostError β :=
  match r.2 with
  | .error e => (r.1, .error e)
  | .ok a => f a r.1

/-- The register value the host has read last. -/
def lastRegister (s : State) : Reg32 :=
  match s.trace.getLast? with
  | some (.csr v) => v
  | _ => 0

/-- The byte a buffer read has returned. -/
def byteRead : ReadValue → Byte
  | .byte b => b
  | .csr _  => 0

/-- The `n` bytes the host has read last. -/
def lastBytes (n : Nat) (s : State) : List Byte := (s.trace.drop (s.trace.length - n)).map byteRead

/-- A command, and the error of R250 when the STATUS read after it has a code (R211). -/
def sendCommand (i : Instr) (s : State) : State × Except HostError Unit :=
  andThen (sendLines (checkedCommand i) s) fun _ t =>
    match reportedCause (lastRegister t) with
    | some c => (t, .error (.reported c))
    | none => (t, .ok ())

/-- `rdout` (R105): OUT_LEN, then that many bytes of DOUT; `lineRdout` are its events. -/
def readOut (s : State) : State × Except HostError (List Byte) :=
  andThen (sendLines (lineCsrr 0x020) s) fun _ t =>
    andThen (sendLines (lineBufr (bufBase .dout) (lastRegister t).toNat) t) fun _ u =>
      (u, .ok (lastBytes (lastRegister t).toNat u))

end Sys2Proof.Machine
end

