-- ==== Sys2Proof/Machine/HostWrapper.lean ====
section
/-! DEFINITION. Host software, outside the hardware block (00_scope.md R5): TweakableSymmetricAlgorithm and its concrete
wrappers (43_host_layers.md R212 to R216) and the factory of modes (R228). No step of the machine calls anything here. -/

namespace Sys2Proof.Machine

/-- A legal-size set (R213), in bits. -/
structure SizeSet where
  minimum : Nat
  maximum : Nat
  step    : Nat
deriving DecidableEq, Repr

/-- The membership test of R213. -/
def legalSize (z : SizeSet) (bits : Nat) : Bool :=
  z.minimum ≤ bits && bits ≤ z.maximum && (z.step == 0 || (bits - z.minimum) % z.step == 0)

/-- The legal key sizes (R213). -/
def keySizes (v : Variant) : SizeSet := { minimum := 8 * blockBytes v, maximum := 8 * blockBytes v, step := 0 }

/-- The legal block sizes (R213). -/
def blockSizes (v : Variant) : SizeSet := { minimum := 8 * blockBytes v, maximum := 8 * blockBytes v, step := 0 }

/-- The legal tweak sizes (R213). -/
def tweakSizes : SizeSet := { minimum := 128, maximum := 128, step := 0 }

/-- TweakableSymmetricAlgorithm with its concrete configuration (R212, R214). -/
structure Wrapper where
  variant   : Variant
  mode      : Mode
  padding   : Padding
  key       : List Byte
  iv        : List Byte
  tweak     : Option (List Byte)
  tweakBits : Nat
  disposed  : Bool
deriving DecidableEq, Repr

/-- The defaults of R214: mode CBC, padding PKCS7, TweakSize 128 bits; no tweak set yet (R212). -/
def Wrapper.create (v : Variant) (key iv : List Byte) : Wrapper :=
  { variant := v, mode := .cbc, padding := .pkcs7, key := key, iv := iv, tweak := none, tweakBits := 128, disposed := false }

/-- The result of a use of the wrapper. After its disposal every use is DisposedStateError: DEDUCED (log entry 14) from the
source's "any use after Dispose", which R250 quotes; R212 names no outcome. -/
def Wrapper.use {α : Type} (w : Wrapper) (r : Except HostError α) : Except HostError α :=
  if w.disposed then .error .disposedState else r

/-- Setting Tweak validates its length against the legal sizes (R212). That a wrong length is SizeError is DEDUCED from R215
(log entry 14). -/
def Wrapper.setTweak (w : Wrapper) (t : List Byte) : Except HostError Wrapper :=
  w.use (if legalSize tweakSizes (8 * t.length) then .ok { w with tweak := some t } else .error (.size tweakBytes))

/-- "Setting TweakSize invalidates any previously set Tweak" (R212). That an illegal size is SizeError and leaves the wrapper
as it was is the model's DESIGN CHOICE (log entry 14): the spec names no outcome. -/
def Wrapper.setTweakSize (w : Wrapper) (bits : Nat) : Except HostError Wrapper :=
  w.use (if legalSize tweakSizes bits then .ok { w with tweakBits := bits, tweak := none } else .error (.size tweakBytes))

/-- `n` random bytes, none of them 0x00 (R216): the host draws a value below 255 for each. -/
def generateBytes (n : Nat) (draw : Nat → Fin 255) : List Byte :=
  (List.range n).map fun i => BitVec.ofNat 8 ((draw i).val + 1)

/-- GenerateKey (R216): B bytes, the key size of the variant. -/
def Wrapper.generateKey (w : Wrapper) (draw : Nat → Fin 255) : Except HostError Wrapper :=
  w.use (.ok { w with key := generateBytes (blockBytes w.variant) draw })

/-- GenerateIV (R216): B bytes. -/
def Wrapper.generateIV (w : Wrapper) (draw : Nat → Fin 255) : Except HostError Wrapper :=
  w.use (.ok { w with iv := generateBytes (blockBytes w.variant) draw })

/-- GenerateTweak (R216): TweakSize bits, in place of a tweak that was set. -/
def Wrapper.generateTweak (w : Wrapper) (draw : Nat → Fin 255) : Except HostError Wrapper :=
  w.use (.ok { w with tweak := some (generateBytes (w.tweakBits / 8) draw) })

/-- Reading Tweak generates one "if read before being set" (R212). -/
def Wrapper.readTweak (w : Wrapper) (draw : Nat → Fin 255) : Except HostError (List Byte × Wrapper) :=
  w.use (match w.tweak with
    | some t => .ok (t, w)
    | none =>
      .ok (generateBytes (w.tweakBits / 8) draw, { w with tweak := some (generateBytes (w.tweakBits / 8) draw) }))

/-- A copy the host overwrites with zeros (R227). -/
def zeroed (bs : List Byte) : List Byte := List.replicate bs.length 0

/-- The wrapper's copies of Key, IV and Tweak overwritten with zeros (R212, R227, R244). R227 names the Key and Tweak copies
only, R244 the IV's as well; that disposal overwrites all three is the model's DESIGN CHOICE (log entry 16). -/
def Wrapper.dispose (w : Wrapper) : Wrapper :=
  { w with key := zeroed w.key, iv := zeroed w.iv, tweak := w.tweak.map zeroed, disposed := true }

/-- `Validate(key, iv, tweak)` (R215), before anything is sent to TFE. Where several lengths are wrong the one reported is the
first of key, IV, tweak, the order R215 lists them in: the model's DESIGN CHOICE (log entry 14), since R215 gives no order. -/
def validate (v : Variant) (key iv tweak : List Byte) : Except HostError Unit :=
  if key.length ≠ blockBytes v then .error (.size (blockBytes v))
  else if iv.length ≠ blockBytes v then .error (.size (blockBytes v))
  else if tweak.length ≠ tweakBytes then .error (.size tweakBytes)
  else .ok ()

/-- The factory of modes (R228), by the codes of R94. -/
def modeStrategy : Nat → Except HostError Mode
  | 0 => .ok .ecb
  | 1 => .ok .cbc
  | 2 => .ok .cfb
  | 3 => .ok .ofb
  | 4 => .ok .ctr
  | _ => .error .unsupportedConfiguration

end Sys2Proof.Machine
end

