-- ==== Sys2Proof/Machine/HostStream.lean ====
section
/-! DEFINITION. Host software, outside the hardware block (00_scope.md R5): CipherTransform, the stream object, in its
dialogue with TFE (43_host_layers.md R210, R211, R224 to R227). No step of the machine calls anything here. -/

namespace Sys2Proof.Machine

/-- The INIT command of a variant. -/
def initOf : Variant → Instr
  | .t256  => .init256
  | .t512  => .init512
  | .t1024 => .init1024

/-- The START command of a mode. -/
def startOf : Mode → Instr
  | .ecb => .startEcb
  | .cbc => .startCbc
  | .cfb => .startCfb
  | .ofb => .startOfb
  | .ctr => .startCtr

/-- The XFORM command of a direction. -/
def xformOf : Dir → Instr
  | .encrypt => .xformE
  | .decrypt => .xformD

/-- The life of a stream object (R226). -/
inductive Life where
  /-- Before key, IV and tweak are bound. -/
  | created
  /-- Key, IV and tweak bound. -/
  | initialized
  | transforming
  | finalized
  | disposed
deriving DecidableEq, Repr

/-- CipherTransform (R224): what it binds, its ResidualBuffer and where it stands in its life. The BlockCipher it binds is the
engine TFE holds for `variant`, the ModeTransform TFE's open stream of `mode`. -/
structure CipherTransform where
  variant  : Variant
  mode     : Mode
  padding  : Padding
  dir      : Dir
  residual : List Byte
  life     : Life
deriving DecidableEq, Repr

/-- The object as it is created (R226). -/
def CipherTransform.new (v : Variant) (m : Mode) (p : Padding) (dir : Dir) : CipherTransform :=
  { variant := v, mode := m, padding := p, dir := dir, residual := [], life := .created }

/-- The object can be given key, IV and tweak: once (R226). -/
def CipherTransform.bindable (t : CipherTransform) : Except HostError Unit :=
  match t.life with
  | .created      => .ok ()
  | .initialized  => .error .notReusable
  | .transforming => .error .notReusable
  | .finalized    => .error .notReusable
  | .disposed     => .error .disposedState

/-- The object can transform and be finalized (R226): its key, IV and tweak are bound, and it is neither finalized nor
disposed. -/
def CipherTransform.usable (t : CipherTransform) : Except HostError Unit :=
  match t.life with
  | .created      => .error .notInitialized
  | .initialized  => .ok ()
  | .transforming => .ok ()
  | .finalized    => .error .notReusable
  | .disposed     => .error .disposedState

/-- Created → Initialized (R226): validate, then key, tweak, INIT of the variant, IV, START of the mode (R211). -/
def CipherTransform.bind (t : CipherTransform) (key iv tweak : List Byte) (s : State) :
    State × Except HostError CipherTransform :=
  andThen (s, t.bindable) fun _ s =>
  andThen (s, validate t.variant key iv tweak) fun _ s =>
  andThen (sendLines (lineLdkey key ++ lineLdtwk tweak) s) fun _ s =>
  andThen (sendCommand (initOf t.variant) s) fun _ s =>
  andThen (sendLines (lineLdiv iv) s) fun _ s =>
  andThen (sendCommand (startOf t.mode) s) fun _ s =>
  (s, .ok { t with life := .initialized })

/-- `CreateEncryptor(key, iv, tweak)` and `CreateDecryptor(key, iv, tweak)` of the wrapper (R211, R212): the object for its
variant, BlockMode and Padding, the direction remembered. -/
def createTransform (w : Wrapper) (dir : Dir) (key iv tweak : List Byte) (s : State) :
    State × Except HostError CipherTransform :=
  andThen (s, w.use (.ok ())) fun _ s => (CipherTransform.new w.variant w.mode w.padding dir).bind key iv tweak s

/-- The last whole block is kept back: decrypting, with a padding that removes bytes, and S an exact multiple of B (R225). -/
def CipherTransform.withholds (t : CipherTransform) (len : Nat) : Bool :=
  t.dir == .decrypt && removesBytes t.padding && len % blockBytes t.variant == 0

/-- How many bytes of S, the residual followed by the new input, a call sends (R225). -/
def CipherTransform.sendCount (t : CipherTransform) (len : Nat) : Nat :=
  if t.withholds len then len - blockBytes t.variant else len / blockBytes t.variant * blockBytes t.variant

/-- One call of the stream transform (R225): the bytes to send and the object after it. -/
def CipherTransform.update (t : CipherTransform) (input : List Byte) : Except HostError (List Byte × CipherTransform) :=
  match t.usable with
  | .error e => .error e
  | .ok _ => .ok
    ((t.residual ++ input).take (t.sendCount (t.residual ++ input).length),
      { t with residual := (t.residual ++ input).drop (t.sendCount (t.residual ++ input).length), life := .transforming })

/-- The bytes in pieces of at most DBUF_BYTES (R225); DBUF_BYTES is a multiple of every block size. -/
def pieces (c : Config) (bs : List Byte) : List (List Byte) :=
  (List.range ((bs.length + dbufBytes c - 1) / dbufBytes c)).map fun i =>
    (bs.drop (i * dbufBytes c)).take (dbufBytes c)

/-- One piece through TFE (R211): `lddata`, XFORM with the object's direction in its DIR field (R224), `rdout`. -/
def CipherTransform.sendPiece (t : CipherTransform) (piece : List Byte) (s : State) : State × Except HostError (List Byte) :=
  andThen (sendLines (lineLddata piece) s) fun _ s =>
  andThen (sendCommand (xformOf t.dir) s) fun _ s => readOut s

/-- Pieces through TFE one after another, the outputs joined (R225). -/
def CipherTransform.sendPieces (t : CipherTransform) : List (List Byte) → State → State × Except HostError (List Byte)
  | [], s => (s, .ok [])
  | p :: ps, s =>
    andThen (t.sendPiece p s) fun out s => andThen (t.sendPieces ps s) fun rest s => (s, .ok (out ++ rest))

/-- Whole blocks through TFE (R211, R225); no block, no XFORM. -/
def CipherTransform.send (t : CipherTransform) (bs : List Byte) (s : State) : State × Except HostError (List Byte) :=
  t.sendPieces (pieces s.cfg bs) s

/-- One call of the stream transform (R211, R225): the output of the blocks sent, and the object after it. -/
def CipherTransform.transform (t : CipherTransform) (input : List Byte) (s : State) :
    State × Except HostError (List Byte × CipherTransform) :=
  andThen (s, t.update input) fun u s => andThen (t.send u.1 s) fun out s => (s, .ok (out, u.2))

/-- The final segment that goes through TFE (R226): the padded residual, or the residual, a whole number of blocks. -/
def CipherTransform.finalInput (t : CipherTransform) (filler : Nat → Byte) : Except HostError (List Byte) :=
  match t.usable with
  | .error e => .error e
  | .ok _ =>
    match t.dir with
    | .encrypt => pad t.padding (blockBytes t.variant) filler t.residual
    | .decrypt =>
      if t.residual.length % blockBytes t.variant ≠ 0 then .error (.size (blockBytes t.variant)) else .ok t.residual

/-- What finalization returns of TFE's output (R226): unpadded when decrypting. -/
def CipherTransform.finalOutput (t : CipherTransform) (out : List Byte) : Except HostError (List Byte) :=
  match t.dir with
  | .encrypt => .ok out
  | .decrypt => unpad t.padding (blockBytes t.variant) out

/-- Finalization (R226): the final segment runs through the mode transform in the object's direction, is unpadded when
decrypting, and the object is finalized. -/
def CipherTransform.finalize (t : CipherTransform) (filler : Nat → Byte) (s : State) :
    State × Except HostError (List Byte × CipherTransform) :=
  andThen (s, t.finalInput filler) fun segment s =>
  andThen (t.send segment s) fun out s =>
  andThen (s, t.finalOutput out) fun tail s =>
  (s, .ok (tail, { t with residual := [], life := .finalized }))

/-- Disposal (R227), from every point of the object's life: the ResidualBuffer overwritten with zeros, and DISPOSE sent to
TFE. -/
def CipherTransform.dispose (t : CipherTransform) (s : State) : State × CipherTransform :=
  ((sendCommand .dispose s).1, { t with residual := zeroed t.residual, life := .disposed })

/-- What the host holds for one stream: the operands it binds, and the message in the pieces it pushes (R210). -/
structure StreamInput where
  key     : List Byte
  iv      : List Byte
  tweak   : List Byte
  message : List (List Byte)
deriving DecidableEq, Repr

/-- The host's copies overwritten with zeros (R227, R244; which copies, log entry 16). -/
def StreamInput.overwrite (c : StreamInput) : StreamInput :=
  { key := zeroed c.key, iv := zeroed c.iv, tweak := zeroed c.tweak, message := c.message.map zeroed }

/-- What a stream has come to, on whatever path: TFE, the object the host still holds, and the output or the error. -/
structure StreamRun where
  tfe    : State
  object : CipherTransform
  result : Except HostError (List Byte)
deriving DecidableEq, Repr

/-- How the host ends a stream whose calls have all succeeded (R226, R227). -/
inductive Ending where
  | finalize
  /-- It leaves the stream without finalizing it. -/
  | abandon
deriving DecidableEq, Repr

/-- A part of a stream, with the object the host holds should it fail: the one before the part (log entry 11). -/
def CipherTransform.after (t : CipherTransform) (out : List Byte)
    (r : State × Except HostError (List Byte × CipherTransform)) : StreamRun :=
  match r with
  | (s, .ok (more, t')) => { tfe := s, object := t', result := .ok (out ++ more) }
  | (s, .error e) => { tfe := s, object := t, result := .error e }

/-- The next part of a stream, unless an error has ended it. -/
def StreamRun.andThen (r : StreamRun)
    (f : CipherTransform → State → State × Except HostError (List Byte × CipherTransform)) : StreamRun :=
  match r.result with
  | .ok out => r.object.after out (f r.object r.tfe)
  | .error _ => r

/-- The message's pieces pushed one after another (R210), up to the first call that fails. -/
def StreamRun.push (r : StreamRun) (message : List (List Byte)) : StreamRun :=
  message.foldl (fun r piece => r.andThen fun t s => t.transform piece s) r

/-- The end of the stream: finalization, or nothing. -/
def StreamRun.finish (r : StreamRun) (ending : Ending) (filler : Nat → Byte) : StreamRun :=
  match ending with
  | .finalize => r.andThen fun t s => t.finalize filler s
  | .abandon  => r

/-- The stream as it begins (R211). Where creation fails the host is left with the object as created, which holds no byte. -/
def startStreamRun (w : Wrapper) (dir : Dir) (c : StreamInput) (s : State) : StreamRun :=
  match createTransform w dir c.key c.iv c.tweak s with
  | (s', .ok t) => { tfe := s', object := t, result := .ok [] }
  | (s', .error e) =>
    { tfe := s', object := CipherTransform.new w.variant w.mode w.padding dir, result := .error e }

/-- The pipeline of R210: create, push the pieces of the message, finalize (or abandon the stream after them). -/
def runStream (w : Wrapper) (dir : Dir) (c : StreamInput) (ending : Ending) (filler : Nat → Byte) (s : State) : StreamRun :=
  ((startStreamRun w dir c s).push c.message).finish ending filler

/-- The pipeline with its disposal "on every exit path", on "normal return, on error and on abandonment" (R227): whatever
`runStream` came to, the stream object it left is disposed of, which sends DISPOSE, and the copies in the wrapper and of the
input are overwritten (log entries 15 and 16). -/
def runStreamAndDispose (w : Wrapper) (dir : Dir) (c : StreamInput) (ending : Ending) (filler : Nat → Byte) (s : State) :
    StreamRun × Wrapper × StreamInput :=
  let r := runStream w dir c ending filler s
  ({ r with tfe := (r.object.dispose r.tfe).1, object := (r.object.dispose r.tfe).2 }, w.dispose, c.overwrite)

end Sys2Proof.Machine
end

