-- ==== Sys2Proof/Safety.lean ====
section
/-! DEFINITION. What claims say of a state and of a run: the invariant of TFE's state (10_state.md R21 to R47), a run
without a failed command (60_exceptions.md R265), scrubbed secrets (44_dispose.md R241, 70_reset_and_hazards.md R313). -/

namespace Sys2Proof.Machine

/-- Every listed byte lies in one of the five buffers (R61). -/
def memoryInBuffers (s : State) : Bool :=
  s.mem.all fun c => hostWritable s.cfg c.1 || inBuffer s.cfg .dout c.1

/-- The bits of ERRSTAT that can be set: 1, 2, 4, 5, 6 (R34). -/
def errStatMask : Reg32 := 0x00000076

/-- ERRSTAT bits 0, 3 and 31:7 read 0 (R34). -/
def errStatOk (s : State) : Bool := s.errStat &&& ~~~errStatMask == 0

/-- ERRINFO bits 7:3 read 0 (R41). -/
def errInfoOk (s : State) : Bool := s.errInfo.extractLsb' 3 5 == 0

/-- LASTERR is never the host's InvalidPaddingError (R254). -/
def lastErrOk (s : State) : Bool := s.lastErr != some .invalidPadding

/-- VAR is 0 unless an engine exists (R33). -/
def varOk (s : State) : Bool := s.phase == .keyed || s.phase == .stream || s.var == .t256

/-- MODE is 0 unless a stream is open (R33). -/
def modeOk (s : State) : Bool := s.phase == .stream || s.mode == .ecb

/-- The words from index `n` on are zero. -/
def zeroFrom (n : Nat) (ws : List Word) : Bool := (ws.drop n).all fun w => w == 0

/-- In KEYED and STREAM the schedules have their structure (R21, R47); otherwise they are zero (R45, R241). -/
def schedulesOk (s : State) : Bool :=
  if s.phase == .keyed || s.phase == .stream then
    (s.ks.toList.take (wordCount s.var + 1)).foldl (fun p w => p ^^^ w) 0 == c240
      && zeroFrom (wordCount s.var + 1) s.ks.toList
      && s.ts[2] == s.ts[0] ^^^ s.ts[1]
  else zeroFrom 0 s.ks.toList && zeroFrom 0 s.ts.toList

/-- REG[W..15] is zero in STREAM, and all of REG otherwise (R23, R126, R241). -/
def regOk (s : State) : Bool :=
  if s.phase == .stream then zeroFrom (wordCount s.var) s.reg.toList else zeroFrom 0 s.reg.toList

/-- OUT_LEN counts bytes of DOUT (R39). -/
def outLenOk (s : State) : Bool := s.outLen.toNat ≤ dbufBytes s.cfg

/-- The invariant of TFE's state. -/
def State.inv (s : State) : Bool :=
  s.mem.wf && memoryInBuffers s && errStatOk s && errInfoOk s && lastErrOk s && varOk s && modeOk s
    && schedulesOk s && regOk s && outLenOk s

/-- No command has failed since the host last cleared ERRSTAT (R265). -/
def noCommandFailed (s : State) : Bool := s.errStat == 0

/-- Every schedule word, every word of REG and every buffer byte is zero (R241). -/
def secretsScrubbed (s : State) : Bool :=
  zeroFrom 0 s.ks.toList && zeroFrom 0 s.ts.toList && zeroFrom 0 s.reg.toList && s.mem == []

/-- A transaction of R60, or reset. -/
def Event.inInterface : Event → Bool
  | .csrRead a      => csrOffset a
  | .csrWrite a _   => csrOffset a
  | .bufRead a      => bufAddress a
  | .bufWrite a _   => bufAddress a
  | .otherWidth _ _ => false
  | .reset          => true

/-- The step ended in a next state. -/
def Runs (o : Host.Outcome State Fault Refusal) : Bool :=
  match o with
  | .next _    => true
  | .fault _   => false
  | .refused _ => false

end Sys2Proof.Machine
end

