-- ==== Sys2Proof/Certificates/Slice0/Obligations.lean ====
section
/-! DEFINITION. The statements. Under Sys2Proof.Spec stand the spec's own tables and formulas, written again from its
text, so that a statement does not lean on the model's spelling of them; the statements follow, by the spec's files. -/

namespace Sys2Proof.Spec

open Sys2Proof.Machine

/-- The word column of R97. -/
def wordOf : Instr → Reg32
  | .init256  => 0x00000001
  | .init512  => 0x00000101
  | .init1024 => 0x00000201
  | .encb     => 0x00000002
  | .decb     => 0x00000012
  | .startEcb => 0x00000003
  | .startCbc => 0x00000023
  | .startCfb => 0x00000043
  | .startOfb => 0x00000063
  | .startCtr => 0x00000083
  | .xformE   => 0x00000004
  | .xformD   => 0x00000014
  | .dispose  => 0x00000005

/-- The columns OP, DIR, MODE and VAR of R97. -/
def columnsOf : Instr → Nat × Nat × Nat × Nat
  | .init256  => (1, 0, 0, 0)
  | .init512  => (1, 0, 0, 1)
  | .init1024 => (1, 0, 0, 2)
  | .encb     => (2, 0, 0, 0)
  | .decb     => (2, 1, 0, 0)
  | .startEcb => (3, 0, 0, 0)
  | .startCbc => (3, 0, 1, 0)
  | .startCfb => (3, 0, 2, 0)
  | .startOfb => (3, 0, 3, 0)
  | .startCtr => (3, 0, 4, 0)
  | .xformE   => (4, 0, 0, 0)
  | .xformD   => (4, 1, 0, 0)
  | .dispose  => (5, 0, 0, 0)

/-- INIT.v (R97). -/
def init : Variant → Instr
  | .t256  => .init256
  | .t512  => .init512
  | .t1024 => .init1024

/-- START.m (R97). -/
def start : Mode → Instr
  | .ecb => .startEcb
  | .cbc => .startCbc
  | .cfb => .startCfb
  | .ofb => .startOfb
  | .ctr => .startCtr

/-- XFORM.E, XFORM.D (R97). -/
def xform : Dir → Instr
  | .encrypt => .xformE
  | .decrypt => .xformD

/-- ENCB, DECB (R97). -/
def block : Dir → Instr
  | .encrypt => .encb
  | .decrypt => .decb

/-- W (R8). -/
def words : Variant → Nat
  | .t256  => 4
  | .t512  => 8
  | .t1024 => 16

/-- BlockSize and KeySize (R8). -/
def bytes : Variant → Nat
  | .t256  => 32
  | .t512  => 64
  | .t1024 => 128

/-- DBUF_BYTES (R10). -/
def dbuf (s : State) : Nat := 128 * (s.cfg.dbufUnits.val + 1)

/-- Eight bytes as a word, the byte at the lowest address least significant (R63). -/
def word (m : Memory) (a : Nat) : Word :=
  m.read (a + 7) ++ m.read (a + 6) ++ m.read (a + 5) ++ m.read (a + 4)
    ++ m.read (a + 3) ++ m.read (a + 2) ++ m.read (a + 1) ++ m.read a

/-- C240 (R9). -/
def c240 : Word := 0x1BD11BDAA9FC1A22

/-- Key word i (R122): KEYBUF begins at 0x0100 (R61). -/
def key (s : State) (i : Nat) : Word := word s.mem (0x0100 + 8 * i)

/-- T0 and T1 (R122): TWKBUF begins at 0x0180 (R61). -/
def tweak (s : State) (i : Nat) : Word := word s.mem (0x0180 + 8 * i)

/-- The codes of R250. -/
def code : Cause → Nat
  | .size                     => 1
  | .unsupportedConfiguration => 2
  | .invalidPadding           => 3
  | .disposedState            => 4
  | .sequence                 => 5
  | .illegalCommand           => 6

/-- The state after a command `w` has failed (R262): LASTERR, one bit of ERRSTAT, ERRINFO = {CMDLO, EXPECT, 0, WHAT}, and
OUT_LEN = 0; nothing else. -/
def failed (c : Cause) (expect what : Nat) (w : Reg32) (s : State) : State :=
  { s with lastErr := some c, errStat := s.errStat ||| (1#32 <<< code c),
           errInfo := BitVec.ofNat 32 (w.toNat % 65536 * 65536 + expect * 256 + what), outLen := 0 }

/-- The EXPECT and WHAT that go with a cause (R251 to R253, R255, R256): for SizeError the length register that is wrong and
the size the command `w` requires, for every other cause 0. -/
def errorDetail (s : State) (w : Reg32) (c : Cause) (expect what : Nat) : Prop :=
  (c ≠ .size → expect = 0 ∧ what = 0) ∧
  (c = .size →
    (∃ v, w = wordOf (init v) ∧ expect = bytes v ∧ what = 1 ∧ s.keyLen.toNat ≠ expect) ∨
    (∃ v, w = wordOf (init v) ∧ expect = 16 ∧ what = 2 ∧ s.twkLen.toNat ≠ expect) ∨
    (∃ m, w = wordOf (start m) ∧ expect = bytes s.var ∧ what = 3 ∧ s.ivLen.toNat ≠ expect) ∨
    (∃ dir, w = wordOf (block dir) ∧ expect = bytes s.var ∧ what = 4 ∧ s.dataLen.toNat ≠ expect) ∨
    (∃ dir, w = wordOf (xform dir) ∧ expect = bytes s.var ∧ what = 4 ∧
      ¬ (0 < s.dataLen.toNat ∧ s.dataLen.toNat % expect = 0 ∧ s.dataLen.toNat ≤ dbuf s)))

/-- An engine exists (R28). -/
def engine (s : State) : Prop := s.phase = .keyed ∨ s.phase = .stream

/-- STATUS (R33), field by field from bit 31 down. -/
def status (s : State) : Reg32 :=
  0#21
    ++ (match s.lastErr with | none => 0#3 | some c => BitVec.ofNat 3 (code c))
    ++ 0#1
    ++ (match s.mode with | .ecb => 0#3 | .cbc => 1#3 | .cfb => 2#3 | .ofb => 3#3 | .ctr => 4#3)
    ++ (match s.var with | .t256 => 0#2 | .t512 => 1#2 | .t1024 => 2#2)
    ++ (match s.phase with | .created => 0#2 | .keyed => 1#2 | .stream => 2#2 | .disposed => 3#2)

/-- The rows of R30 a read gives a value of: the offset and the value. -/
def registers (s : State) : List (Nat × Reg32) :=
  [(0x000, 0x54464531), (0x004, 0), (0x008, status s), (0x00C, s.errStat), (0x010, s.keyLen), (0x014, s.twkLen),
   (0x018, s.ivLen), (0x01C, s.dataLen), (0x020, s.outLen), (0x024, BitVec.ofNat 32 (dbuf s)), (0x028, s.errInfo)]

/-- A transaction of R60, or reset (R290). -/
def inInterface : Event → Prop
  | .csrRead a      => a % 4 = 0 ∧ a ≤ 0x0FC
  | .csrWrite a _   => a % 4 = 0 ∧ a ≤ 0x0FC
  | .bufRead a      => 0x100 ≤ a ∧ a ≤ 0x2FFF
  | .bufWrite a _   => 0x100 ≤ a ∧ a ≤ 0x2FFF
  | .otherWidth _ _ => False
  | .reset          => True

/-- The ranges of R61 a host write stores to: KEYBUF, TWKBUF, IVBUF, DIN. -/
def writable (s : State) (a : Nat) : Prop :=
  (0x0100 ≤ a ∧ a ≤ 0x017F) ∨ (0x0180 ≤ a ∧ a ≤ 0x018F) ∨ (0x0200 ≤ a ∧ a ≤ 0x027F) ∨
    (0x1000 ≤ a ∧ a ≤ 0x1000 + dbuf s - 1)

/-- The range of DOUT (R61). -/
def inDout (s : State) (a : Nat) : Prop := 0x2000 ≤ a ∧ a ≤ 0x2000 + dbuf s - 1

/-- The memory `m'` is `m` with the bytes `bs` in DOUT from its offset 0 on, and every other byte as it was (R77). -/
def doutHolds (m m' : Memory) (bs : List Byte) : Prop :=
  (∀ k, k < bs.length → m'.read (0x2000 + k) = bs.getD k 0) ∧
    ∀ a, ¬ (0x2000 ≤ a ∧ a < 0x2000 + bs.length) → m'.read a = m.read a

/-- The pairs that the in-place form mixes in round d, by d mod 4 (R149). -/
def pairs : Variant → Nat → List (Nat × Nat)
  | .t256, 0  => [(0, 1), (2, 3)]
  | .t256, 1  => [(0, 3), (2, 1)]
  | .t256, 2  => [(0, 1), (2, 3)]
  | .t256, _  => [(0, 3), (2, 1)]
  | .t512, 0  => [(0, 1), (2, 3), (4, 5), (6, 7)]
  | .t512, 1  => [(2, 1), (4, 7), (6, 5), (0, 3)]
  | .t512, 2  => [(4, 1), (6, 3), (0, 5), (2, 7)]
  | .t512, _  => [(6, 1), (0, 7), (2, 5), (4, 3)]
  | .t1024, 0 => [(0, 1), (2, 3), (4, 5), (6, 7), (8, 9), (10, 11), (12, 13), (14, 15)]
  | .t1024, 1 => [(0, 9), (2, 13), (6, 11), (4, 15), (10, 7), (12, 3), (14, 5), (8, 1)]
  | .t1024, 2 => [(0, 7), (2, 5), (4, 3), (6, 1), (12, 15), (14, 13), (8, 11), (10, 9)]
  | .t1024, _ => [(0, 15), (2, 11), (6, 13), (4, 9), (14, 1), (8, 5), (10, 3), (12, 7)]

/-- ROT4, ROT8 and ROT16 (R143): the rotation amounts of the row d mod 8, column by column. -/
def rot : Variant → Nat → List Nat
  | .t256, 0 => [14, 16]
  | .t256, 1 => [52, 57]
  | .t256, 2 => [23, 40]
  | .t256, 3 => [5, 37]
  | .t256, 4 => [25, 33]
  | .t256, 5 => [46, 12]
  | .t256, 6 => [58, 22]
  | .t256, _ => [32, 32]
  | .t512, 0 => [46, 36, 19, 37]
  | .t512, 1 => [33, 27, 14, 42]
  | .t512, 2 => [17, 49, 36, 39]
  | .t512, 3 => [44, 9, 54, 56]
  | .t512, 4 => [39, 30, 34, 24]
  | .t512, 5 => [13, 50, 10, 17]
  | .t512, 6 => [25, 29, 39, 43]
  | .t512, _ => [8, 35, 56, 22]
  | .t1024, 0 => [24, 13, 8, 47, 8, 17, 22, 37]
  | .t1024, 1 => [38, 19, 10, 55, 49, 18, 23, 52]
  | .t1024, 2 => [33, 4, 51, 13, 34, 41, 59, 17]
  | .t1024, 3 => [5, 20, 48, 41, 47, 28, 16, 25]
  | .t1024, 4 => [41, 9, 37, 31, 12, 47, 44, 30]
  | .t1024, 5 => [16, 34, 56, 51, 4, 53, 42, 41]
  | .t1024, 6 => [31, 44, 47, 46, 19, 42, 44, 25]
  | .t1024, _ => [9, 48, 35, 52, 23, 31, 37, 20]

/-- One Mix in place: `(v[x], v[y]) = Mix(v[x], v[y], r)` (R149). -/
def mixAt (v : List Word) (p : (Nat × Nat) × Nat) : List Word :=
  (v.set p.1.1 (mix (v.getD p.1.1 0) (v.getD p.1.2 0) p.2).1).set p.1.2 (mix (v.getD p.1.1 0) (v.getD p.1.2 0) p.2).2

/-- Round d in place (R149), the rotation amounts taken along the row d mod 8 of the table. -/
def inPlaceRound (var : Variant) (d : Nat) (v : List Word) : List Word :=
  ((pairs var (d % 4)).zip (rot var (d % 8))).foldl mixAt v

/-- E_K by groups (R150): subkey g, then rounds 4g to 4g+3 in place. -/
def inPlaceGroups (var : Variant) (ks : Vector Word 17) (ts : Vector Word 3) : Nat → List Word → List Word
  | 0, v => v
  | g + 1, v =>
    let u := List.zipWith (fun a b => a + b) (inPlaceGroups var ks ts g v) (subkey var ks ts g)
    inPlaceRound var (4 * g + 3) (inPlaceRound var (4 * g + 2) (inPlaceRound var (4 * g + 1) (inPlaceRound var (4 * g) u)))

/-- R/4 (R8). -/
def groups : Variant → Nat
  | .t256  => 18
  | .t512  => 18
  | .t1024 => 20

/-- The schedule of the pattern key of 95_test_vectors.md section 1: the key bytes 10 11 12 …, whose words cancel in pairs, so
that the parity word is C240. -/
def patternKey (v : Variant) : Vector Word 17 :=
  Vector.ofFn fun j =>
    if j.val < words v then 0x1716151413121110 + BitVec.ofNat 64 j.val * 0x0808080808080808
    else if j.val = words v then c240 else 0

/-- The pattern plaintext of 95_test_vectors.md section 1: FF FE FD …. -/
def patternBlock (v : Variant) : List Byte := (List.range (bytes v)).map fun k => BitVec.ofNat 8 (255 - k)

/-- The number a register block holds in CTR mode (R188), B its length. -/
def counter (o : CtrOrder) (rb : List Byte) : Nat :=
  match o with
  | .beFull => ((List.range rb.length).map fun k => (rb.getD k 0).toNat * 256 ^ (rb.length - 1 - k)).sum
  | .leFull => ((List.range rb.length).map fun k => (rb.getD k 0).toNat * 256 ^ k).sum

/-- `inc(RB)` (R188). -/
def inc (o : CtrOrder) (rb : List Byte) : List Byte :=
  let n := (counter o rb + 1) % 2 ^ (8 * rb.length)
  (List.range rb.length).map fun k =>
    match o with
    | .beFull => BitVec.ofNat 8 (n / 256 ^ (rb.length - 1 - k) % 256)
    | .leFull => BitVec.ofNat 8 (n / 256 ^ k % 256)

/-- The byte-wise exclusive or (R173). -/
def xor (x y : List Byte) : List Byte := List.zipWith (fun a b => a ^^^ b) x y

/-- `step(mode, DIR, X, RB) = (Y, RB')` (R180 to R189) under the engine of `s`. -/
def modeRule (s : State) (dir : Dir) (x rb : List Byte) : List Byte × List Byte :=
  match s.mode with
  | .ecb => match dir with
    | .encrypt => (encryptBlock s x, rb)
    | .decrypt => (decryptBlock s x, rb)
  | .cbc => match dir with
    | .encrypt => (encryptBlock s (xor x rb), encryptBlock s (xor x rb))
    | .decrypt => (xor (decryptBlock s x) rb, x)
  | .cfb => match dir with
    | .encrypt => (xor x (encryptBlock s rb), xor x (encryptBlock s rb))
    | .decrypt => (xor x (encryptBlock s rb), x)
  | .ofb => (xor x (encryptBlock s rb), encryptBlock s rb)
  | .ctr => (xor x (encryptBlock s rb), inc s.cfg.ctrOrder rb)

/-- The blocks of a message one after another (R176): the outputs joined, and the register left. -/
def chain (rule : List Byte → List Byte → List Byte × List Byte) : List (List Byte) → List Byte → List Byte × List Byte
  | [], rb => ([], rb)
  | x :: xs, rb => ((rule x rb).1 ++ (chain rule xs (rule x rb).2).1, (chain rule xs (rule x rb).2).2)

/-- The input blocks of an XFORM (R176): n blocks of DIN. -/
def inputBlocks (s : State) (n : Nat) : List (List Byte) :=
  (List.range n).map fun i => s.mem.readBytes (0x1000 + i * bytes s.var) (bytes s.var)

/-- RB (R173). -/
def register (s : State) : List Byte := bytesOf (s.reg.toList.take (words s.var))

/-- The sizes XFORM accepts (R175). -/
def xformSize (s : State) : Prop :=
  0 < s.dataLen.toNat ∧ s.dataLen.toNat % bytes s.var = 0 ∧ s.dataLen.toNat ≤ dbuf s

/-- The errors of the table of R29. -/
def phaseError : Instr → Phase → Option Cause
  | .encb, .created | .decb, .created => some .sequence
  | .encb, .disposed | .decb, .disposed => some .disposedState
  | .startEcb, .created | .startCbc, .created | .startCfb, .created | .startOfb, .created | .startCtr, .created =>
    some .sequence
  | .startEcb, .disposed | .startCbc, .disposed | .startCfb, .disposed | .startOfb, .disposed | .startCtr, .disposed =>
    some .disposedState
  | .xformE, .created | .xformD, .created | .xformE, .keyed | .xformD, .keyed => some .sequence
  | .xformE, .disposed | .xformD, .disposed => some .disposedState
  | _, _ => none

/-- The phase after a command that completes (R29). -/
def phaseAfter : Instr → Phase → Phase
  | .init256, _ | .init512, _ | .init1024, _ => .keyed
  | .encb, p | .decb, p => p
  | .startEcb, _ | .startCbc, _ | .startCfb, _ | .startOfb, _ | .startCtr, _ => .stream
  | .xformE, _ | .xformD, _ => .stream
  | .dispose, _ => .disposed

/-- The paddings whose `Unpad` removes bytes (R225). -/
def removes (p : Padding) : Prop := p = .pkcs7 ∨ p = .ansiX923 ∨ p = .iso10126

/-- A byte string cut into blocks of `n` bytes. -/
def blocksOf (n : Nat) (bs : List Byte) : List (List Byte) :=
  (List.range (bs.length / n)).map fun i => (bs.drop (i * n)).take n

/-- The host can tell the two states apart by no register it reads and no byte of DOUT (R44, R270). -/
def looksAlike (s t : State) : Prop :=
  s.cfg = t.cfg ∧ s.phase = t.phase ∧ s.var = t.var ∧ s.mode = t.mode ∧ s.lastErr = t.lastErr ∧
    s.errStat = t.errStat ∧ s.keyLen = t.keyLen ∧ s.twkLen = t.twkLen ∧ s.ivLen = t.ivLen ∧ s.dataLen = t.dataLen ∧
    s.outLen = t.outLen ∧ s.errInfo = t.errInfo ∧ (∀ a, inDout s a → s.mem.read a = t.mem.read a) ∧ s.trace = t.trace

end Sys2Proof.Spec

open Sys2Proof Sys2Proof.Machine

/-! The command word (30_encoding.md) and one step -/

/-- R97: the thirteen words, each compared in all 32 bits; their fields, `word = OP + 16·DIR + 32·MODE + 256·VAR`; and
the encoder writes them. -/
def Obligations.DecodeLegalIffTableWord : Prop :=
  (∀ (w : Reg32) (i : Instr), decode w = .legal i ↔ w = Spec.wordOf i) ∧
  ∀ i, encode i = Spec.wordOf i ∧
    (Spec.wordOf i).toNat = (Spec.columnsOf i).1 + 16 * (Spec.columnsOf i).2.1 + 32 * (Spec.columnsOf i).2.2.1
      + 256 * (Spec.columnsOf i).2.2.2 ∧
    (splitFields (Spec.wordOf i)).op.toNat = (Spec.columnsOf i).1 ∧
    (splitFields (Spec.wordOf i)).dir.toNat = (Spec.columnsOf i).2.1 ∧
    (splitFields (Spec.wordOf i)).mode.toNat = (Spec.columnsOf i).2.2.1 ∧
    (splitFields (Spec.wordOf i)).var.toNat = (Spec.columnsOf i).2.2.2

/-- R90, R91, R92, R93, R94: a word is a command when its fields are well formed. -/
def Obligations.WordLegalIffFieldsWellFormed : Prop :=
  ∀ w : Reg32, (∃ i, decode w = .legal i) ↔ (splitFields w).wellFormed = true

/-- Words of the table written out bit by bit, and what they stand for (R97, R98, R99). -/
def Obligations.DecodeOfWrittenWords : Prop :=
  decode 0b00000000000000000000001000000001#32 = .legal .init1024 ∧
  decode 0b00000000000000000000000000010010#32 = .legal .decb ∧
  decode 0b00000000000000000000000001100011#32 = .legal .startOfb ∧
  decode 0b00000000000000000000000000010100#32 = .legal .xformD ∧
  decode 0b00000000000000000000000000000101#32 = .legal .dispose ∧
  decode 0b00000000000000000000001100000001#32 = .reservedInit ∧
  decode 0b00000000000000000000000011100011#32 = .reservedStart ∧
  decode 0b00000000000000000000010000000001#32 = .illegal

/-- The step runs the decoded command: a word written to CMD is taken from the events and executed (R15, R32, R90).
That the events stand as a list in the state is the model's choice (log entry 2). -/
def Obligations.StepRunsDecodedCommand : Prop :=
  ∀ (s : State) (w : Reg32) (i : Instr) (rest : List Event), s.inputs = .csrWrite 0x004 w :: rest →
    decode w = .legal i → step s = exec i { s with inputs := rest }

/-- R98, R252: the four reserved words. -/
def Obligations.ReservedWordsReportUnsupportedConfiguration : Prop :=
  ∀ (s : State) (w : Reg32) (rest : List Event), s.inputs = .csrWrite 0x004 w :: rest →
    (w = 0x00000301 →
      step s = .next (Spec.failed .unsupportedConfiguration 0 0 w { s with inputs := rest })) ∧
    (w = 0x000000A3 ∨ w = 0x000000C3 ∨ w = 0x000000E3 →
      (s.phase = .created → step s = .next (Spec.failed .sequence 0 0 w { s with inputs := rest })) ∧
      (s.phase = .disposed → step s = .next (Spec.failed .disposedState 0 0 w { s with inputs := rest })) ∧
      (Spec.engine s → step s = .next (Spec.failed .unsupportedConfiguration 0 0 w { s with inputs := rest })))

/-- R99, R256: every other word raises IllegalCommandError, whatever the phase, and changes nothing else. -/
def Obligations.IllegalWordsReportIllegalCommand : Prop :=
  ∀ (s : State) (w : Reg32) (rest : List Event), s.inputs = .csrWrite 0x004 w :: rest →
    (∀ i, w ≠ Spec.wordOf i) → w ≠ 0x00000301 → w ≠ 0x000000A3 → w ≠ 0x000000C3 → w ≠ 0x000000E3 →
    decode w = .illegal ∧ step s = .next (Spec.failed .illegalCommand 0 0 w { s with inputs := rest })

/-! The host port (20_memory.md, 10_state.md section 6) -/

/-- R60, R314, U4: a transaction of R60 always has a next state, and any other is refused. That the events stand as a list
in the state is the model's choice (log entry 2); the name of the refusal is too (log entry 5). -/
def Obligations.TransactionRunsOrIsOutsideInterface : Prop :=
  ∀ (s : State) (e : Event) (rest : List Event), s.inputs = e :: rest →
    (Spec.inInterface e → ∃ t, step s = .next t) ∧ (¬ Spec.inInterface e → step s = .refused .outsideInterface)

/-- With no event to come the machine waits, the state as it was: the model's choice (log entry 2) for
"TFE then waits for host transactions" (R290). -/
def Obligations.StepWaitsForTheHost : Prop := ∀ s : State, s.inputs = [] → step s = .next s

/-- R30 to R41, R66, R67: what a register read returns, and that it changes nothing of TFE. The record of
what reads returned, `trace`, is the model's own (log entry 3), as the list of events is (log entry 2). -/
def Obligations.RegisterReadsReturnTheTable : Prop :=
  ∀ (s : State) (a : Nat) (rest : List Event), s.inputs = .csrRead a :: rest →
    (∀ v, (a, v) ∈ Spec.registers s → step s = .next { s with inputs := rest, trace := s.trace ++ [.csr v] }) ∧
    (0x02C ≤ a ∧ a ≤ 0x0FC ∧ a % 4 = 0 → step s = .next { s with inputs := rest, trace := s.trace ++ [.csr 0] })

/-- R34: "A host write of value v clears every bit c with v[c] = 1 and leaves the others". -/
def Obligations.ErrstatWriteClearsTheBitsWritten : Prop :=
  ∀ (s : State) (v : Reg32) (rest : List Event), s.inputs = .csrWrite 0x00C v :: rest →
    ∃ e : Reg32, step s = .next { s with inputs := rest, errStat := e } ∧
      ∀ c, e.getLsbD c = (s.errStat.getLsbD c && !v.getLsbD c)

/-- R35 to R38: the length registers store all 32 bits; R30, R66: every other register but CMD and ERRSTAT ignores a write. -/
def Obligations.RegisterWritesStoreOrAreIgnored : Prop :=
  ∀ (s : State) (a : Nat) (v : Reg32) (rest : List Event), s.inputs = .csrWrite a v :: rest →
    (a = 0x010 → step s = .next { s with inputs := rest, keyLen := v }) ∧
    (a = 0x014 → step s = .next { s with inputs := rest, twkLen := v }) ∧
    (a = 0x018 → step s = .next { s with inputs := rest, ivLen := v }) ∧
    (a = 0x01C → step s = .next { s with inputs := rest, dataLen := v }) ∧
    (a = 0x000 ∨ a = 0x008 ∨ (0x020 ≤ a ∧ a ≤ 0x0FC ∧ a % 4 = 0) → step s = .next { s with inputs := rest })

/-- R60, R61, R66: a byte written by the host is stored in KEYBUF, TWKBUF, IVBUF and DIN and ignored elsewhere. The canonical
form of memory, `wf`, is the model's choice (log entry 6). -/
def Obligations.BufferWritesStoreOneByte : Prop :=
  ∀ (s : State) (a : Nat) (b : Byte) (rest : List Event), s.mem.wf = true → s.inputs = .bufWrite a b :: rest →
    0x100 ≤ a → a ≤ 0x2FFF →
    ∃ m : Memory, step s = .next { s with inputs := rest, mem := m } ∧ m.wf = true ∧
      (Spec.writable s a → m.read a = b ∧ ∀ x, x ≠ a → m.read x = s.mem.read x) ∧
      (¬ Spec.writable s a → m = s.mem)

/-- R26, R61, R66, R67: a buffer read returns a byte of DOUT, or 0x00 everywhere else, and changes nothing of TFE
(`trace` and `inputs` are the model's own, log entries 2 and 3). -/
def Obligations.BufferReadsShowDoutOnly : Prop :=
  ∀ (s : State) (a : Nat) (rest : List Event), s.inputs = .bufRead a :: rest → 0x100 ≤ a → a ≤ 0x2FFF →
    (Spec.inDout s a → step s = .next { s with inputs := rest, trace := s.trace ++ [.byte (s.mem.read a)] }) ∧
    (¬ Spec.inDout s a → step s = .next { s with inputs := rest, trace := s.trace ++ [.byte 0] })

/-- R44, R270: no read tells apart two states that differ in KS, TS, REG, KEYBUF, TWKBUF, IVBUF or DIN only. -/
def Obligations.HostReadsHideKeyMaterial : Prop :=
  ∀ (s t s' t' : State) (e : Event) (rs rt : List Event), s.inputs = e :: rs → t.inputs = e :: rt →
    ((∃ a, e = .csrRead a) ∨ ∃ a, e = .bufRead a) → Spec.looksAlike s t → step s = .next s' → step t = .next t' →
    s'.trace = t'.trace ∧ Spec.looksAlike s' t'

/-! Key and tweak expansion (40_key_tweak_expansion.md) -/

/-- INIT.256 completes (R127, with the expansion of R122 to R126). -/
def Obligations.Init256BuildsTheSchedules : Prop :=
  ∀ s : State, s.keyLen = 32 → s.twkLen = 16 →
    exec .init256 s = .next { s with
      ks := #v[Spec.key s 0, Spec.key s 1, Spec.key s 2, Spec.key s 3,
        Spec.c240 ^^^ Spec.key s 0 ^^^ Spec.key s 1 ^^^ Spec.key s 2 ^^^ Spec.key s 3,
        0, 0, 0, 0, 0, 0, 0, 0, 0, 0, 0, 0]
      ts := #v[Spec.tweak s 0, Spec.tweak s 1, Spec.tweak s 0 ^^^ Spec.tweak s 1]
      reg := #v[0, 0, 0, 0, 0, 0, 0, 0, 0, 0, 0, 0, 0, 0, 0, 0]
      phase := .keyed, var := .t256, mode := .ecb, lastErr := none, outLen := 0 }

/-- INIT.512 completes (R128). -/
def Obligations.Init512BuildsTheSchedules : Prop :=
  ∀ s : State, s.keyLen = 64 → s.twkLen = 16 →
    exec .init512 s = .next { s with
      ks := #v[Spec.key s 0, Spec.key s 1, Spec.key s 2, Spec.key s 3, Spec.key s 4, Spec.key s 5, Spec.key s 6,
        Spec.key s 7,
        Spec.c240 ^^^ Spec.key s 0 ^^^ Spec.key s 1 ^^^ Spec.key s 2 ^^^ Spec.key s 3 ^^^ Spec.key s 4
          ^^^ Spec.key s 5 ^^^ Spec.key s 6 ^^^ Spec.key s 7,
        0, 0, 0, 0, 0, 0, 0, 0]
      ts := #v[Spec.tweak s 0, Spec.tweak s 1, Spec.tweak s 0 ^^^ Spec.tweak s 1]
      reg := #v[0, 0, 0, 0, 0, 0, 0, 0, 0, 0, 0, 0, 0, 0, 0, 0]
      phase := .keyed, var := .t512, mode := .ecb, lastErr := none, outLen := 0 }

/-- INIT.1024 completes (R129). -/
def Obligations.Init1024BuildsTheSchedules : Prop :=
  ∀ s : State, s.keyLen = 128 → s.twkLen = 16 →
    exec .init1024 s = .next { s with
      ks := #v[Spec.key s 0, Spec.key s 1, Spec.key s 2, Spec.key s 3, Spec.key s 4, Spec.key s 5, Spec.key s 6,
        Spec.key s 7, Spec.key s 8, Spec.key s 9, Spec.key s 10, Spec.key s 11, Spec.key s 12, Spec.key s 13,
        Spec.key s 14, Spec.key s 15,
        Spec.c240 ^^^ Spec.key s 0 ^^^ Spec.key s 1 ^^^ Spec.key s 2 ^^^ Spec.key s 3 ^^^ Spec.key s 4
          ^^^ Spec.key s 5 ^^^ Spec.key s 6 ^^^ Spec.key s 7 ^^^ Spec.key s 8 ^^^ Spec.key s 9 ^^^ Spec.key s 10
          ^^^ Spec.key s 11 ^^^ Spec.key s 12 ^^^ Spec.key s 13 ^^^ Spec.key s 14 ^^^ Spec.key s 15]
      ts := #v[Spec.tweak s 0, Spec.tweak s 1, Spec.tweak s 0 ^^^ Spec.tweak s 1]
      reg := #v[0, 0, 0, 0, 0, 0, 0, 0, 0, 0, 0, 0, 0, 0, 0, 0]
      phase := .keyed, var := .t1024, mode := .ecb, lastErr := none, outLen := 0 }

/-- R121, R251, R262: INIT with a wrong length reports the key first, then the tweak, and changes nothing else. -/
def Obligations.InitReportsWrongLengths : Prop :=
  ∀ (s : State) (v : Variant),
    (s.keyLen.toNat ≠ Spec.bytes v →
      exec (Spec.init v) s = .next (Spec.failed .size (Spec.bytes v) 1 (Spec.wordOf (Spec.init v)) s)) ∧
    (s.keyLen.toNat = Spec.bytes v → s.twkLen.toNat ≠ 16 →
      exec (Spec.init v) s = .next (Spec.failed .size 16 2 (Spec.wordOf (Spec.init v)) s))

/-! The round pipeline (41_block_cipher.md) -/

/-- R141, R142: Mix and Unmix, each the inverse of the other for every amount, with the rules' examples. -/
def Obligations.UnmixInvertsMix : Prop :=
  (∀ (a b : Word) (r : Nat), mix a b r = (a + b, rotl b r ^^^ (a + b))) ∧
  (∀ (a b : Word) (r : Nat), unmix a b r = (a - rotr (b ^^^ a) r, rotr (b ^^^ a) r)) ∧
  (∀ (a b : Word) (r : Nat), unmix (mix a b r).1 (mix a b r).2 r = (a, b)) ∧
  (∀ (a b : Word) (r : Nat), mix (unmix a b r).1 (unmix a b r).2 r = (a, b)) ∧
  mix 0x0123456789ABCDEF 0xFEDCBA9876543210 52 = (0xFFFFFFFFFFFFFFFF, 0xDEF0123456789ABC) ∧
  unmix 0xFFFFFFFFFFFFFFFF 0xDEF0123456789ABC 52 = (0x0123456789ABCDEF, 0xFEDCBA9876543210)

/-- R12: the rotations, reduced modulo 64, undo each other. -/
def Obligations.RotationsUndoEachOther : Prop :=
  ∀ (x : Word) (r : Nat),
    rotl x r = (if r % 64 = 0 then x else (x <<< (r % 64)) ||| (x >>> (64 - r % 64))) ∧
    rotr x r = rotl x ((64 - r % 64) % 64) ∧ rotr (rotl x r) r = x ∧ rotl (rotr x r) r = x

/-- R147: the words of subkey s. Which words take the tweak and the counter the spec supplies from general knowledge, its own
mark G3 (log entry 9). -/
def Obligations.SubkeyWordsFollowTheSchedule : Prop :=
  (∀ (v : Variant) (ks : Vector Word 17) (ts : Vector Word 3) (s : Nat),
    (subkey v ks ts s).length = Spec.words v ∧
    (∀ i, i < Spec.words v - 3 → (subkey v ks ts s).getD i 0 = ks.toList.getD ((s + i) % (Spec.words v + 1)) 0) ∧
    (subkey v ks ts s).getD (Spec.words v - 3) 0
      = ks.toList.getD ((s + (Spec.words v - 3)) % (Spec.words v + 1)) 0 + ts.toList.getD (s % 3) 0 ∧
    (subkey v ks ts s).getD (Spec.words v - 2) 0
      = ks.toList.getD ((s + (Spec.words v - 2)) % (Spec.words v + 1)) 0 + ts.toList.getD ((s + 1) % 3) 0 ∧
    (subkey v ks ts s).getD (Spec.words v - 1) 0
      = ks.toList.getD ((s + (Spec.words v - 1)) % (Spec.words v + 1)) 0 + BitVec.ofNat 64 s) ∧
  ∀ (ks : Vector Word 17) (ts : Vector Word 3) (s : Nat),
    subkey .t256 ks ts s
      = [ks.toList.getD (s % 5) 0, ks.toList.getD ((s + 1) % 5) 0 + ts.toList.getD (s % 3) 0,
         ks.toList.getD ((s + 2) % 5) 0 + ts.toList.getD ((s + 1) % 3) 0,
         ks.toList.getD ((s + 3) % 5) 0 + BitVec.ofNat 64 s]

/-- R149, R150: the rounds with a permutation after each give what the in-place form gives, and so does E_K. The tables of
both forms the spec supplies from general knowledge, its own marks G1, G2 and G4 (log entry 9). -/
def Obligations.InPlaceRoundsComputeEncryption : Prop :=
  ∀ (v : Variant) (ks : Vector Word 17) (ts : Vector Word 3) (x : List Word), x.length = Spec.words v →
    encryptWords v ks ts x
      = List.zipWith (fun a b => a + b) (Spec.inPlaceGroups v ks ts (Spec.groups v) x) (subkey v ks ts (Spec.groups v))

/-- R156: D_K undoes E_K and E_K undoes D_K, for every schedule and every block; both depend on nothing but KS, TS and the
bound variant; ENCB and DECB disturb neither REG nor the open stream. -/
def Obligations.DecryptionInvertsEncryption : Prop :=
  (∀ (s : State) (x : List Byte), x.length = Spec.bytes s.var →
    decryptBlock s (encryptBlock s x) = x ∧ encryptBlock s (decryptBlock s x) = x) ∧
  (∀ (s u : State) (x : List Byte), u.ks = s.ks → u.ts = s.ts → u.var = s.var →
    encryptBlock u x = encryptBlock s x ∧ decryptBlock u x = decryptBlock s x) ∧
  ∀ (s t : State) (dir : Dir), exec (Spec.block dir) s = .next t →
    t.reg = s.reg ∧ t.phase = s.phase ∧ t.mode = s.mode ∧ t.ks = s.ks ∧ t.ts = s.ts ∧ t.var = s.var

/-- R154, R155: ENCB and DECB complete: DOUT[0 .. B) is E_K (D_K) of DIN[0 .. B), and nothing else of memory changes. -/
def Obligations.BlockCommandsWriteOneBlock : Prop :=
  ∀ (s : State) (dir : Dir), s.mem.wf = true → Spec.engine s → s.dataLen.toNat = Spec.bytes s.var →
    ∃ m : Memory,
      exec (Spec.block dir) s
        = .next { s with mem := m, outLen := BitVec.ofNat 32 (Spec.bytes s.var), lastErr := none } ∧
      Spec.doutHolds s.mem m (match dir with
        | .encrypt => encryptBlock s (s.mem.readBytes 0x1000 (Spec.bytes s.var))
        | .decrypt => decryptBlock s (s.mem.readBytes 0x1000 (Spec.bytes s.var))) ∧
      (encryptBlock s (s.mem.readBytes 0x1000 (Spec.bytes s.var))).length = Spec.bytes s.var ∧
      (decryptBlock s (s.mem.readBytes 0x1000 (Spec.bytes s.var))).length = Spec.bytes s.var

/-- R153, R251, R253, R255, R262: where ENCB and DECB report an error, in the order of the checks. -/
def Obligations.BlockCommandsReportErrors : Prop :=
  ∀ (s : State) (dir : Dir),
    (s.phase = .disposed →
      exec (Spec.block dir) s = .next (Spec.failed .disposedState 0 0 (Spec.wordOf (Spec.block dir)) s)) ∧
    (s.phase = .created →
      exec (Spec.block dir) s = .next (Spec.failed .sequence 0 0 (Spec.wordOf (Spec.block dir)) s)) ∧
    (Spec.engine s → s.dataLen.toNat ≠ Spec.bytes s.var →
      exec (Spec.block dir) s
        = .next (Spec.failed .size (Spec.bytes s.var) 4 (Spec.wordOf (Spec.block dir)) s))

/-- The known answer of R154 (vector T1: Threefish-256, the zero block under the zero key and tweak), and those of T4
(Threefish-512) and T6 (Threefish-1024), pattern inputs: key words from 0x1716151413121110 on in steps of 0x08…08, tweak
bytes 00 01 …, plaintext FF FE …. The bytes the spec has from evaluating its rules and from general knowledge, the last byte
of T6 from evaluation alone (C9; log entry 9). -/
def Obligations.KnownAnswersOfTheVariants : Prop :=
  encryptBlock { State.reset with phase := .keyed, ks := (State.reset.ks.set 4 Spec.c240) } (List.replicate 32 0)
    = [0x84, 0xDA, 0x2A, 0x1F, 0x8B, 0xEA, 0xEE, 0x94, 0x70, 0x66, 0xAE, 0x3E, 0x31, 0x03, 0xF1, 0xAD,
       0x53, 0x6D, 0xB1, 0xF4, 0xA1, 0x19, 0x24, 0x95, 0x11, 0x6B, 0x9F, 0x3C, 0xE6, 0x13, 0x3F, 0xD8] ∧
  encryptBlock { State.reset with
      phase := .keyed, var := .t512, ks := Spec.patternKey .t512
      ts := #v[0x0706050403020100, 0x0F0E0D0C0B0A0908, 0x0808080808080808] } (Spec.patternBlock .t512)
    = [0xE3, 0x04, 0x43, 0x96, 0x26, 0xD4, 0x5A, 0x2C, 0xB4, 0x01, 0xCA, 0xD8, 0xD6, 0x36, 0x24, 0x9A,
       0x63, 0x38, 0x33, 0x0E, 0xB0, 0x6D, 0x45, 0xDD, 0x8B, 0x36, 0xB9, 0x0E, 0x97, 0x25, 0x47, 0x79,
       0x27, 0x2A, 0x0A, 0x8D, 0x99, 0x46, 0x35, 0x04, 0x78, 0x44, 0x20, 0xEA, 0x18, 0xC9, 0xA7, 0x25,
       0xAF, 0x11, 0xDF, 0xFE, 0xA1, 0x01, 0x62, 0x34, 0x89, 0x27, 0x67, 0x3D, 0x5C, 0x1C, 0xAF, 0x3D] ∧
  encryptBlock { State.reset with
      phase := .keyed, var := .t1024, ks := Spec.patternKey .t1024
      ts := #v[0x0706050403020100, 0x0F0E0D0C0B0A0908, 0x0808080808080808] } (Spec.patternBlock .t1024)
    = [0xA6, 0x65, 0x4D, 0xDB, 0xD7, 0x3C, 0xC3, 0xB0, 0x5D, 0xD7, 0x77, 0x10, 0x5A, 0xA8, 0x49, 0xBC,
       0xE4, 0x93, 0x72, 0xEA, 0xAF, 0xFC, 0x55, 0x68, 0xD2, 0x54, 0x77, 0x1B, 0xAB, 0x85, 0x53, 0x1C,
       0x94, 0xF7, 0x80, 0xE7, 0xFF, 0xAA, 0xE4, 0x30, 0xD5, 0xD8, 0xAF, 0x8C, 0x70, 0xEE, 0xBB, 0xE1,
       0x76, 0x0F, 0x3B, 0x42, 0xB7, 0x37, 0xA8, 0x9C, 0xB3, 0x63, 0x49, 0x0D, 0x67, 0x03, 0x14, 0xBD,
       0x8A, 0xA4, 0x1E, 0xE6, 0x3C, 0x2E, 0x1F, 0x45, 0xFB, 0xD4, 0x77, 0x92, 0x2F, 0x83, 0x60, 0xB3,
       0x88, 0xD6, 0x12, 0x5E, 0xA6, 0xC7, 0xAF, 0x0A, 0xD7, 0x05, 0x6D, 0x01, 0x79, 0x6E, 0x90, 0xC8,
       0x33, 0x13, 0xF4, 0x15, 0x0A, 0x57, 0x16, 0xB3, 0x0E, 0xD5, 0xF5, 0x69, 0x28, 0x8A, 0xE9, 0x74,
       0xCE, 0x2B, 0x43, 0x47, 0x92, 0x6F, 0xCE, 0x57, 0xDE, 0x44, 0x51, 0x21, 0x77, 0xDD, 0x7C, 0xDE]

/-! The mode transform engine (42_mode_transform.md) -/

/-- R172: the effect of a completed START, in every mode. -/
def Obligations.StartLoadsTheRegister : Prop :=
  ∀ (s : State) (m : Mode), Spec.engine s → s.ivLen.toNat = Spec.bytes s.var →
    ∃ r : Vector Word 16,
      exec (Spec.start m) s
        = .next { s with reg := r, mode := m, phase := .stream, lastErr := none, outLen := 0 } ∧
      ∀ i : Fin 16, r[i] = if i.val < Spec.words s.var then Spec.word s.mem (0x0200 + 8 * i.val) else 0

/-- R171, R251, R253, R255, R262: where START reports an error, in the order of the checks. -/
def Obligations.StartReportsErrors : Prop :=
  ∀ (s : State) (m : Mode),
    (s.phase = .disposed →
      exec (Spec.start m) s = .next (Spec.failed .disposedState 0 0 (Spec.wordOf (Spec.start m)) s)) ∧
    (s.phase = .created →
      exec (Spec.start m) s = .next (Spec.failed .sequence 0 0 (Spec.wordOf (Spec.start m)) s)) ∧
    (Spec.engine s → s.ivLen.toNat ≠ Spec.bytes s.var →
      exec (Spec.start m) s = .next (Spec.failed .size (Spec.bytes s.var) 3 (Spec.wordOf (Spec.start m)) s))

/-- R175, R251, R253, R255, R262: where XFORM reports an error, in the order of the checks. -/
def Obligations.XformReportsErrors : Prop :=
  ∀ (s : State) (dir : Dir),
    (s.phase = .disposed →
      exec (Spec.xform dir) s = .next (Spec.failed .disposedState 0 0 (Spec.wordOf (Spec.xform dir)) s)) ∧
    (s.phase = .created ∨ s.phase = .keyed →
      exec (Spec.xform dir) s = .next (Spec.failed .sequence 0 0 (Spec.wordOf (Spec.xform dir)) s)) ∧
    (s.phase = .stream → ¬ Spec.xformSize s →
      exec (Spec.xform dir) s = .next (Spec.failed .size (Spec.bytes s.var) 4 (Spec.wordOf (Spec.xform dir)) s))

/-- R188: the counter increment, for both values of CTR_ORDER. -/
def Obligations.CounterBlockIncrementsByOne : Prop :=
  ∀ (o : CtrOrder) (rb : List Byte), incCounter o rb = Spec.inc o rb

/-- R176 to R178, R180 to R189: a completed XFORM is the chain of the mode's rule over the blocks of DIN. -/
def Obligations.XformChainsTheModeRule : Prop :=
  ∀ (s : State) (dir : Dir), s.mem.wf = true → s.phase = .stream → Spec.xformSize s →
    ∃ (m : Memory) (r : Vector Word 16),
      exec (Spec.xform dir) s = .next { s with mem := m, reg := r, outLen := s.dataLen, lastErr := none } ∧
      Spec.doutHolds s.mem m (Spec.chain (Spec.modeRule s dir)
        (Spec.inputBlocks s (s.dataLen.toNat / Spec.bytes s.var)) (Spec.register s)).1 ∧
      (Spec.chain (Spec.modeRule s dir)
        (Spec.inputBlocks s (s.dataLen.toNat / Spec.bytes s.var)) (Spec.register s)).1.length = s.dataLen.toNat ∧
      bytesOf (r.toList.take (Spec.words s.var)) = (Spec.chain (Spec.modeRule s dir)
        (Spec.inputBlocks s (s.dataLen.toNat / Spec.bytes s.var)) (Spec.register s)).2 ∧
      ∀ i : Fin 16, Spec.words s.var ≤ i.val → r[i] = s.reg[i]

/-- R179: one XFORM over n blocks, and two over consecutive pieces of them (`a`, then `b` continued from the first),
leave the same bytes and the same register. -/
def Obligations.XformSplitsAtBlockBoundaries : Prop :=
  ∀ (s a b t ta tb : State) (dir : Dir) (n1 n2 : Nat), s.mem.wf = true → s.phase = .stream →
    0 < n1 → 0 < n2 → s.dataLen.toNat = (n1 + n2) * Spec.bytes s.var → s.dataLen.toNat ≤ Spec.dbuf s →
    a = { s with dataLen := BitVec.ofNat 32 (n1 * Spec.bytes s.var) } →
    exec (Spec.xform dir) s = .next t → exec (Spec.xform dir) a = .next ta →
    b = { ta with dataLen := BitVec.ofNat 32 (n2 * Spec.bytes s.var), mem := b.mem } → b.mem.wf = true →
    (∀ k, k < n2 * Spec.bytes s.var → b.mem.read (0x1000 + k) = s.mem.read (0x1000 + n1 * Spec.bytes s.var + k)) →
    exec (Spec.xform dir) b = .next tb →
    t.reg = tb.reg ∧
    (∀ k, k < n1 * Spec.bytes s.var → t.mem.read (0x2000 + k) = ta.mem.read (0x2000 + k)) ∧
    (∀ k, k < n2 * Spec.bytes s.var →
      t.mem.read (0x2000 + n1 * Spec.bytes s.var + k) = tb.mem.read (0x2000 + k))

/-- R195: START, XFORM.E over P, START again with the same IV, XFORM.D over the result give P back, in every variant and
mode. `c` is any state of the same engine whose DIN holds the ciphertext. -/
def Obligations.StreamRoundTripReturnsThePlaintext : Prop :=
  ∀ (s s1 s2 c c1 c2 : State) (m : Mode), s.mem.wf = true → Spec.engine s → s.ivLen.toNat = Spec.bytes s.var →
    Spec.xformSize s → exec (Spec.start m) s = .next s1 → exec .xformE s1 = .next s2 →
    c = { s2 with mem := c.mem } → c.mem.wf = true →
    (∀ k, k < s.dataLen.toNat → c.mem.read (0x1000 + k) = s2.mem.read (0x2000 + k)) →
    (∀ k, k < Spec.bytes s.var → c.mem.read (0x0200 + k) = s.mem.read (0x0200 + k)) →
    exec (Spec.start m) c = .next c1 → exec .xformD c1 = .next c2 →
    ∀ k, k < s.dataLen.toNat → c2.mem.read (0x2000 + k) = s.mem.read (0x1000 + k)

/-- R196: in OFB and CTR, XFORM.E and XFORM.D give the same state, and the keystream does not depend on the data: with
`z` the same stream over zero bytes, `XFORM(P) ^ P = XFORM(zero-buffer)`. -/
def Obligations.KeystreamModesIgnoreDirectionAndData : Prop :=
  ∀ (s z t tz : State), s.mem.wf = true → z.mem.wf = true → s.phase = .stream → (s.mode = .ofb ∨ s.mode = .ctr) →
    Spec.xformSize s → z = { s with mem := z.mem } →
    (∀ k, k < s.dataLen.toNat → z.mem.read (0x1000 + k) = 0) →
    exec .xformE s = .next t → exec .xformE z = .next tz →
    exec .xformD s = .next t ∧ t.reg = tz.reg ∧
    ∀ k, k < s.dataLen.toNat → t.mem.read (0x2000 + k) ^^^ s.mem.read (0x1000 + k) = tz.mem.read (0x2000 + k)

/-! Disposal (44_dispose.md) and the phase machine (10_state.md R29) -/

/-- R240, R241: DISPOSE, in every phase. That a memory of zero bytes is the empty list is the model's choice of form (log
entry 6). -/
def Obligations.DisposeZeroesEverySecret : Prop :=
  ∀ s : State, exec .dispose s = .next { s with
      ks := #v[0, 0, 0, 0, 0, 0, 0, 0, 0, 0, 0, 0, 0, 0, 0, 0, 0]
      ts := #v[0, 0, 0]
      reg := #v[0, 0, 0, 0, 0, 0, 0, 0, 0, 0, 0, 0, 0, 0, 0, 0]
      mem := []
      keyLen := 0, twkLen := 0, ivLen := 0, dataLen := 0, outLen := 0
      phase := .disposed, var := .t256, mode := .ecb, lastErr := none } ∧
    ∀ a, Memory.read [] a = 0

/-- R29: the whole table of phases. -/
def Obligations.PhaseTableHolds : Prop :=
  ∀ (i : Instr) (s t : State), exec i s = .next t →
    (∀ c, Spec.phaseError i s.phase = some c → t.lastErr = some c) ∧
    (t.lastErr = none → Spec.phaseError i s.phase = none ∧ t.phase = Spec.phaseAfter i s.phase) ∧
    (t.lastErr ≠ none → t.phase = s.phase)

/-- R45: the state after reset, for every value of the parameters; `State.reset` has the defaults of R10. -/
def Obligations.ResetStateIsAllZero : Prop :=
  State.reset = State.resetWith { dbufUnits := 7, ctrOrder := .beFull } ∧ Spec.dbuf State.reset = 1024 ∧
  ∀ (c : Config) (s : State), s = State.resetWith c →
    s.phase = .created ∧ s.var = .t256 ∧ s.mode = .ecb ∧ s.lastErr = none ∧ Spec.status s = 0 ∧ s.errStat = 0 ∧
    s.keyLen = 0 ∧ s.twkLen = 0 ∧ s.ivLen = 0 ∧ s.dataLen = 0 ∧ s.outLen = 0 ∧ s.errInfo = 0 ∧
    s.ks = Vector.replicate 17 0 ∧ s.ts = Vector.replicate 3 0 ∧ s.reg = Vector.replicate 16 0 ∧
    (∀ a, s.mem.read a = 0) ∧ csrValue s 0x000 = 0x54464531 ∧ csrValue s 0x008 = 0 ∧
    csrValue s 0x024 = BitVec.ofNat 32 (Spec.dbuf s) ∧ s.cfg = c

/-- R290, R291: reset puts every piece of TFE's state at its reset value, whatever the state was. That the
parameters, the events still to come and the host's record of its reads stay is the model's choice (log entry 4). -/
def Obligations.ResetEventRestoresTheResetState : Prop :=
  ∀ (s : State) (rest : List Event), s.inputs = .reset :: rest →
    step s = .next { State.resetWith s.cfg with inputs := rest, trace := s.trace }

/-! Errors (60_exceptions.md) -/

/-- R262, R263, R34, R41, R265: a command either completes, leaving ERRSTAT and ERRINFO as they were, or fails, changing
nothing but LASTERR, ERRSTAT, ERRINFO and OUT_LEN, with EXPECT and WHAT as `Spec.errorDetail` allows them. -/
def Obligations.FailedCommandChangesOnlyErrorRegisters : Prop :=
  ∀ (s t : State) (w : Reg32) (rest : List Event), s.inputs = .csrWrite 0x004 w :: rest → step s = .next t →
    (t.lastErr = none ∧ t.errStat = s.errStat ∧ t.errInfo = s.errInfo) ∨
    ∃ (c : Cause) (expect what : Nat), c ≠ .invalidPadding ∧ expect < 256 ∧ what < 8 ∧
      Spec.errorDetail s w c expect what ∧ t = Spec.failed c expect what w { s with inputs := rest }

/-- R264: the next command is checked and executed as if the failed one had never been written: no command reads LASTERR,
ERRSTAT, ERRINFO or OUT_LEN. -/
def Obligations.ErrorRegistersDoNotInfluenceCommands : Prop :=
  ∀ (i : Instr) (s t : State) (le : Option Cause) (es ei ol : Reg32), exec i s = .next t →
    ∃ u : State, exec i { s with lastErr := le, errStat := es, errInfo := ei, outLen := ol } = .next u ∧
      t = { u with errStat := t.errStat, errInfo := t.errInfo }

/-- R39: OUT_LEN after each command. -/
def Obligations.OutLenCountsTheBytesWritten : Prop :=
  ∀ (i : Instr) (s t : State), exec i s = .next t →
    (t.lastErr = none → (i = .encb ∨ i = .decb ∨ i = .xformE ∨ i = .xformD) → t.outLen = s.dataLen) ∧
    (t.lastErr ≠ none ∨ ¬ (i = .encb ∨ i = .decb ∨ i = .xformE ∨ i = .xformD) → t.outLen = 0)

/-! Rules about the whole machine -/

/-- R131, R21, R22: only a completed INIT, DISPOSE or reset writes KS or TS. -/
def Obligations.SchedulesChangeOnlyByInitDisposeReset : Prop :=
  ∀ (s t : State), step s = .next t → (t.ks ≠ s.ks ∨ t.ts ≠ s.ts) →
    (∃ rest, s.inputs = .reset :: rest) ∨
    (∃ v rest, s.inputs = .csrWrite 0x004 (Spec.wordOf (Spec.init v)) :: rest ∧ t.lastErr = none) ∨
    ∃ rest, s.inputs = .csrWrite 0x004 (Spec.wordOf .dispose) :: rest

/-- R23, R46: only a completed START, XFORM, INIT or DISPOSE, or reset, writes REG. -/
def Obligations.RegisterChangesOnlyByStreamCommands : Prop :=
  ∀ (s t : State), step s = .next t → t.reg ≠ s.reg →
    (∃ rest, s.inputs = .reset :: rest) ∨
    ∃ i rest, s.inputs = .csrWrite 0x004 (Spec.wordOf i) :: rest ∧ i ≠ .encb ∧ i ≠ .decb ∧ t.lastErr = none

/-- R76, R77: no command but DISPOSE writes a byte outside DOUT, and no host write changes a byte of DOUT. -/
def Obligations.MemoryChangesOnlyWhereTheRulesSay : Prop :=
  ∀ (s t : State) (a : Nat), step s = .next t → t.mem.read a ≠ s.mem.read a →
    (∃ rest, s.inputs = .reset :: rest) ∨
    (∃ rest, s.inputs = .csrWrite 0x004 (Spec.wordOf .dispose) :: rest) ∨
    (∃ b rest, s.inputs = .bufWrite a b :: rest ∧ Spec.writable s a) ∨
    ∃ i rest, s.inputs = .csrWrite 0x004 (Spec.wordOf i) :: rest ∧ t.lastErr = none ∧
      (i = .encb ∨ i = .decb ∨ i = .xformE ∨ i = .xformD) ∧ 0x2000 ≤ a ∧ a < 0x2000 + t.outLen.toNat

/-- The invariant holds after reset, for every value of the parameters (R45). -/
def Obligations.InvariantHoldsAtReset : Prop :=
  State.reset.inv = true ∧ ∀ c : Config, (State.resetWith c).inv = true

/-- Every step keeps the invariant: memory in its canonical form, which is the model's choice (log entry 6), and inside the
buffers (R61), the reserved bits of
ERRSTAT and ERRINFO 0 (R34, R41), LASTERR never 3 (R254), VAR and MODE 0 outside their phases (R33), the schedules with
their parity word and third tweak word or all zero (R21, R47), REG zero outside the block (R23), OUT_LEN within DOUT. -/
def Obligations.StepKeepsTheInvariant : Prop :=
  ∀ s t : State, s.inv = true → step s = .next t → t.inv = true

/-! The host's software layers (43_host_layers.md) -/

/-- R217, R220 to R222: for a block size from 1 to 255, the three counting strategies pad to whole blocks, keep the input in
front, and unpad to it, whatever the filler. -/
def Obligations.UnpadUndoesPad : Prop :=
  ∀ (p : Padding) (b : Nat) (filler : Nat → Byte) (x : List Byte),
    p = .pkcs7 ∨ p = .ansiX923 ∨ p = .iso10126 → 1 ≤ b → b ≤ 255 →
    ∃ y, pad p b filler x = .ok y ∧ y.length = x.length + (b - x.length % b) ∧ y.length % b = 0 ∧
      y.take x.length = x ∧ unpad p b y = .ok x

/-- R220: PKCS7 unpads exactly the strings that end in n bytes of value n, 1 ≤ n ≤ b; every other string fails. That an empty
string, or one shorter than its pad count, is InvalidPaddingError is the model's reading (DEDUCED, log entry 11). -/
def Obligations.Pkcs7UnpadsExactlyUniformPads : Prop :=
  ∀ (b : Nat) (x y : List Byte), b ≤ 255 →
    (unpad .pkcs7 b x = .ok y ↔ ∃ n, 1 ≤ n ∧ n ≤ b ∧ x = y ++ List.replicate n (BitVec.ofNat 8 n)) ∧
    ((∀ z, unpad .pkcs7 b x ≠ .ok z) → unpad .pkcs7 b x = .error .invalidPadding)

/-- R225: a call of the stream transform sends whole blocks only and loses no byte. It keeps the tail that fills no block; but
decrypting with a padding that removes bytes, when S (the residual followed by the input) is a positive number of whole
blocks, it keeps the last of them. -/
def Obligations.StreamUpdateKeepsEveryByte : Prop :=
  ∀ (t t' : CipherTransform) (input out : List Byte), t.update input = .ok (out, t') →
    out ++ t'.residual = t.residual ++ input ∧ out.length % Spec.bytes t.variant = 0 ∧
    t'.residual.length ≤ Spec.bytes t.variant ∧
    (t.dir = .decrypt ∧ Spec.removes t.padding ∧ 0 < (t.residual ++ input).length ∧
        (t.residual ++ input).length % Spec.bytes t.variant = 0 → t'.residual.length = Spec.bytes t.variant) ∧
    (¬ (t.dir = .decrypt ∧ Spec.removes t.padding ∧ 0 < (t.residual ++ input).length ∧
        (t.residual ++ input).length % Spec.bytes t.variant = 0) →
      t'.residual.length = (t.residual ++ input).length % Spec.bytes t.variant) ∧
    t'.life = .transforming ∧ t'.variant = t.variant ∧ t'.mode = t.mode ∧ t'.padding = t.padding ∧ t'.dir = t.dir

/-- R211, R224: a piece of whole blocks goes through the open stream in the direction the object holds; what comes back is the
chain of the mode's rule over the piece. -/
def Obligations.PieceRunsInTheObjectsDirection : Prop :=
  ∀ (t : CipherTransform) (piece : List Byte) (s : State), s.mem.wf = true → s.phase = .stream →
    0 < piece.length → piece.length % Spec.bytes s.var = 0 → piece.length ≤ Spec.dbuf s →
    ∃ u : State,
      t.sendPiece piece s
        = (u, .ok (Spec.chain (Spec.modeRule s t.dir) (Spec.blocksOf (Spec.bytes s.var) piece) (Spec.register s)).1) ∧
      Spec.register u
        = (Spec.chain (Spec.modeRule s t.dir) (Spec.blocksOf (Spec.bytes s.var) piece) (Spec.register s)).2 ∧
      u.phase = .stream ∧ u.mode = s.mode ∧ u.var = s.var ∧ u.ks = s.ks ∧ u.ts = s.ts ∧ u.cfg = s.cfg ∧ u.mem.wf = true

/-- R226, R250: what an object refuses at each point of its life, TFE being left as it was. The errors of an object not yet
bound, and of one finalized, are the model's choice (log entry 11). -/
def Obligations.StreamObjectsRefuseUseOutsideTheirLife : Prop :=
  ∀ (t : CipherTransform) (e : HostError) (s : State),
    (t.life = .created ∧ e = .notInitialized) ∨ (t.life = .finalized ∧ e = .notReusable) ∨
      (t.life = .disposed ∧ e = .disposedState) →
    (∀ input, t.transform input s = (s, .error e)) ∧ ∀ filler, t.finalize filler s = (s, .error e)

/-- R226: a finalization that succeeds runs the padded residual (or, decrypting, the residual) through TFE in the object's
direction, unpads what comes back when decrypting, and leaves the object finalized with nothing buffered. -/
def Obligations.FinalizationRunsTheFinalSegment : Prop :=
  ∀ (t t' : CipherTransform) (filler : Nat → Byte) (s u : State) (tail : List Byte),
    t.finalize filler s = (u, .ok (tail, t')) →
    (t.life = .initialized ∨ t.life = .transforming) ∧
    t' = { t with residual := [], life := .finalized } ∧
    ∃ segment out : List Byte, segment.length % Spec.bytes t.variant = 0 ∧ t.send segment s = (u, .ok out) ∧
      (t.dir = .encrypt → pad t.padding (Spec.bytes t.variant) filler t.residual = .ok segment ∧ tail = out) ∧
      (t.dir = .decrypt → segment = t.residual ∧ unpad t.padding (Spec.bytes t.variant) out = .ok tail)

/-- R216: what is generated has the length of its buffer and no byte 0x00, whatever the draw and whatever was there. -/
def Obligations.GeneratedBuffersHaveTheirLength : Prop :=
  ∀ (w w' : Wrapper) (draw : Nat → Fin 255),
    (w.generateKey draw = .ok w' →
      w'.key.length = Spec.bytes w.variant ∧ (0 : Byte) ∉ w'.key ∧ w' = { w with key := w'.key }) ∧
    (w.generateIV draw = .ok w' →
      w'.iv.length = Spec.bytes w.variant ∧ (0 : Byte) ∉ w'.iv ∧ w' = { w with iv := w'.iv }) ∧
    (w.generateTweak draw = .ok w' →
      ∃ b : List Byte, w' = { w with tweak := some b } ∧ b.length = w.tweakBits / 8 ∧ (0 : Byte) ∉ b)

/-- R227, R244: a stream that returns, fails or is abandoned leaves TFE disposed of with every secret zero, and zeros in the
stream object's ResidualBuffer, in the wrapper's Key, IV and Tweak, and in the input the host held; its output or error stays.
That one function stands for the disposal on every exit path, and which copies count, is the model's choice (log entries 15
and 16). -/
def Obligations.StreamsDisposeOnEveryExitPath : Prop :=
  ∀ (w : Wrapper) (dir : Dir) (c : StreamInput) (ending : Ending) (filler : Nat → Byte) (s : State),
    ∃ t : State, t.phase = .disposed ∧ secretsScrubbed t = true ∧
      runStreamAndDispose w dir c ending filler s =
        ({ tfe := t
           object := { (runStream w dir c ending filler s).object with
             residual := List.replicate (runStream w dir c ending filler s).object.residual.length 0, life := .disposed }
           result := (runStream w dir c ending filler s).result },
         { w with
             key := List.replicate w.key.length 0, iv := List.replicate w.iv.length 0
             tweak := w.tweak.map (fun b => List.replicate b.length 0), disposed := true },
         { key := List.replicate c.key.length 0, iv := List.replicate c.iv.length 0
           tweak := List.replicate c.tweak.length 0
           message := c.message.map fun b => List.replicate b.length 0 })
end

