-- ==== Sys2Proof/Laws/State.lean ====
section
/-! SUPPORT. For each named update of the state, what each field of the result is: one lemma per field, true by rfl, so
that no later proof unfolds a record update. -/

namespace Sys2Proof.Machine

@[simp] theorem raiseError_cfg (c : Cause) (e w : Nat) (x : Reg32) (s : State) : (raiseError c e w x s).cfg = s.cfg := rfl
@[simp] theorem raiseError_phase (c : Cause) (e w : Nat) (x : Reg32) (s : State) : (raiseError c e w x s).phase = s.phase := rfl
@[simp] theorem raiseError_var (c : Cause) (e w : Nat) (x : Reg32) (s : State) : (raiseError c e w x s).var = s.var := rfl
@[simp] theorem raiseError_mode (c : Cause) (e w : Nat) (x : Reg32) (s : State) : (raiseError c e w x s).mode = s.mode := rfl
@[simp] theorem raiseError_lastErr (c : Cause) (e w : Nat) (x : Reg32) (s : State) : (raiseError c e w x s).lastErr = some c := rfl
@[simp] theorem raiseError_errStat (c : Cause) (e w : Nat) (x : Reg32) (s : State) : (raiseError c e w x s).errStat = setErrBit s.errStat c := rfl
@[simp] theorem raiseError_keyLen (c : Cause) (e w : Nat) (x : Reg32) (s : State) : (raiseError c e w x s).keyLen = s.keyLen := rfl
@[simp] theorem raiseError_twkLen (c : Cause) (e w : Nat) (x : Reg32) (s : State) : (raiseError c e w x s).twkLen = s.twkLen := rfl
@[simp] theorem raiseError_ivLen (c : Cause) (e w : Nat) (x : Reg32) (s : State) : (raiseError c e w x s).ivLen = s.ivLen := rfl
@[simp] theorem raiseError_dataLen (c : Cause) (e w : Nat) (x : Reg32) (s : State) : (raiseError c e w x s).dataLen = s.dataLen := rfl
@[simp] theorem raiseError_outLen (c : Cause) (e w : Nat) (x : Reg32) (s : State) : (raiseError c e w x s).outLen = 0 := rfl
@[simp] theorem raiseError_errInfo (c : Cause) (e w : Nat) (x : Reg32) (s : State) : (raiseError c e w x s).errInfo = errInfoWord x e w := rfl
@[simp] theorem raiseError_ks (c : Cause) (e w : Nat) (x : Reg32) (s : State) : (raiseError c e w x s).ks = s.ks := rfl
@[simp] theorem raiseError_ts (c : Cause) (e w : Nat) (x : Reg32) (s : State) : (raiseError c e w x s).ts = s.ts := rfl
@[simp] theorem raiseError_reg (c : Cause) (e w : Nat) (x : Reg32) (s : State) : (raiseError c e w x s).reg = s.reg := rfl
@[simp] theorem raiseError_mem (c : Cause) (e w : Nat) (x : Reg32) (s : State) : (raiseError c e w x s).mem = s.mem := rfl
@[simp] theorem raiseError_inputs (c : Cause) (e w : Nat) (x : Reg32) (s : State) : (raiseError c e w x s).inputs = s.inputs := rfl
@[simp] theorem raiseError_trace (c : Cause) (e w : Nat) (x : Reg32) (s : State) : (raiseError c e w x s).trace = s.trace := rfl

@[simp] theorem complete_cfg (x : Reg32) (s : State) : (complete x s).cfg = s.cfg := rfl
@[simp] theorem complete_phase (x : Reg32) (s : State) : (complete x s).phase = s.phase := rfl
@[simp] theorem complete_var (x : Reg32) (s : State) : (complete x s).var = s.var := rfl
@[simp] theorem complete_mode (x : Reg32) (s : State) : (complete x s).mode = s.mode := rfl
@[simp] theorem complete_lastErr (x : Reg32) (s : State) : (complete x s).lastErr = none := rfl
@[simp] theorem complete_errStat (x : Reg32) (s : State) : (complete x s).errStat = s.errStat := rfl
@[simp] theorem complete_keyLen (x : Reg32) (s : State) : (complete x s).keyLen = s.keyLen := rfl
@[simp] theorem complete_twkLen (x : Reg32) (s : State) : (complete x s).twkLen = s.twkLen := rfl
@[simp] theorem complete_ivLen (x : Reg32) (s : State) : (complete x s).ivLen = s.ivLen := rfl
@[simp] theorem complete_dataLen (x : Reg32) (s : State) : (complete x s).dataLen = s.dataLen := rfl
@[simp] theorem complete_outLen (x : Reg32) (s : State) : (complete x s).outLen = x := rfl
@[simp] theorem complete_errInfo (x : Reg32) (s : State) : (complete x s).errInfo = s.errInfo := rfl
@[simp] theorem complete_ks (x : Reg32) (s : State) : (complete x s).ks = s.ks := rfl
@[simp] theorem complete_ts (x : Reg32) (s : State) : (complete x s).ts = s.ts := rfl
@[simp] theorem complete_reg (x : Reg32) (s : State) : (complete x s).reg = s.reg := rfl
@[simp] theorem complete_mem (x : Reg32) (s : State) : (complete x s).mem = s.mem := rfl
@[simp] theorem complete_inputs (x : Reg32) (s : State) : (complete x s).inputs = s.inputs := rfl
@[simp] theorem complete_trace (x : Reg32) (s : State) : (complete x s).trace = s.trace := rfl

@[simp] theorem zeroize_cfg (s : State) : (zeroize s).cfg = s.cfg := rfl
@[simp] theorem zeroize_phase (s : State) : (zeroize s).phase = s.phase := rfl
@[simp] theorem zeroize_var (s : State) : (zeroize s).var = s.var := rfl
@[simp] theorem zeroize_mode (s : State) : (zeroize s).mode = s.mode := rfl
@[simp] theorem zeroize_lastErr (s : State) : (zeroize s).lastErr = s.lastErr := rfl
@[simp] theorem zeroize_errStat (s : State) : (zeroize s).errStat = s.errStat := rfl
@[simp] theorem zeroize_keyLen (s : State) : (zeroize s).keyLen = 0 := rfl
@[simp] theorem zeroize_twkLen (s : State) : (zeroize s).twkLen = 0 := rfl
@[simp] theorem zeroize_ivLen (s : State) : (zeroize s).ivLen = 0 := rfl
@[simp] theorem zeroize_dataLen (s : State) : (zeroize s).dataLen = 0 := rfl
@[simp] theorem zeroize_outLen (s : State) : (zeroize s).outLen = 0 := rfl
@[simp] theorem zeroize_errInfo (s : State) : (zeroize s).errInfo = s.errInfo := rfl
@[simp] theorem zeroize_ks (s : State) : (zeroize s).ks = Vector.replicate 17 0 := rfl
@[simp] theorem zeroize_ts (s : State) : (zeroize s).ts = Vector.replicate 3 0 := rfl
@[simp] theorem zeroize_reg (s : State) : (zeroize s).reg = Vector.replicate 16 0 := rfl
@[simp] theorem zeroize_mem (s : State) : (zeroize s).mem = [] := rfl
@[simp] theorem zeroize_inputs (s : State) : (zeroize s).inputs = s.inputs := rfl
@[simp] theorem zeroize_trace (s : State) : (zeroize s).trace = s.trace := rfl

@[simp] theorem hardReset_cfg (s : State) : (hardReset s).cfg = s.cfg := rfl
@[simp] theorem hardReset_phase (s : State) : (hardReset s).phase = .created := rfl
@[simp] theorem hardReset_var (s : State) : (hardReset s).var = .t256 := rfl
@[simp] theorem hardReset_mode (s : State) : (hardReset s).mode = .ecb := rfl
@[simp] theorem hardReset_lastErr (s : State) : (hardReset s).lastErr = none := rfl
@[simp] theorem hardReset_errStat (s : State) : (hardReset s).errStat = 0 := rfl
@[simp] theorem hardReset_keyLen (s : State) : (hardReset s).keyLen = 0 := rfl
@[simp] theorem hardReset_twkLen (s : State) : (hardReset s).twkLen = 0 := rfl
@[simp] theorem hardReset_ivLen (s : State) : (hardReset s).ivLen = 0 := rfl
@[simp] theorem hardReset_dataLen (s : State) : (hardReset s).dataLen = 0 := rfl
@[simp] theorem hardReset_outLen (s : State) : (hardReset s).outLen = 0 := rfl
@[simp] theorem hardReset_errInfo (s : State) : (hardReset s).errInfo = 0 := rfl
@[simp] theorem hardReset_ks (s : State) : (hardReset s).ks = Vector.replicate 17 0 := rfl
@[simp] theorem hardReset_ts (s : State) : (hardReset s).ts = Vector.replicate 3 0 := rfl
@[simp] theorem hardReset_reg (s : State) : (hardReset s).reg = Vector.replicate 16 0 := rfl
@[simp] theorem hardReset_mem (s : State) : (hardReset s).mem = [] := rfl
@[simp] theorem hardReset_inputs (s : State) : (hardReset s).inputs = s.inputs := rfl
@[simp] theorem hardReset_trace (s : State) : (hardReset s).trace = s.trace := rfl

@[simp] theorem putBuf_cfg (b : Buffer) (o : Nat) (bs : List Byte) (s : State) : (putBuf b o bs s).cfg = s.cfg := rfl
@[simp] theorem putBuf_phase (b : Buffer) (o : Nat) (bs : List Byte) (s : State) : (putBuf b o bs s).phase = s.phase := rfl
@[simp] theorem putBuf_var (b : Buffer) (o : Nat) (bs : List Byte) (s : State) : (putBuf b o bs s).var = s.var := rfl
@[simp] theorem putBuf_mode (b : Buffer) (o : Nat) (bs : List Byte) (s : State) : (putBuf b o bs s).mode = s.mode := rfl
@[simp] theorem putBuf_lastErr (b : Buffer) (o : Nat) (bs : List Byte) (s : State) : (putBuf b o bs s).lastErr = s.lastErr := rfl
@[simp] theorem putBuf_errStat (b : Buffer) (o : Nat) (bs : List Byte) (s : State) : (putBuf b o bs s).errStat = s.errStat := rfl
@[simp] theorem putBuf_keyLen (b : Buffer) (o : Nat) (bs : List Byte) (s : State) : (putBuf b o bs s).keyLen = s.keyLen := rfl
@[simp] theorem putBuf_twkLen (b : Buffer) (o : Nat) (bs : List Byte) (s : State) : (putBuf b o bs s).twkLen = s.twkLen := rfl
@[simp] theorem putBuf_ivLen (b : Buffer) (o : Nat) (bs : List Byte) (s : State) : (putBuf b o bs s).ivLen = s.ivLen := rfl
@[simp] theorem putBuf_dataLen (b : Buffer) (o : Nat) (bs : List Byte) (s : State) : (putBuf b o bs s).dataLen = s.dataLen := rfl
@[simp] theorem putBuf_outLen (b : Buffer) (o : Nat) (bs : List Byte) (s : State) : (putBuf b o bs s).outLen = s.outLen := rfl
@[simp] theorem putBuf_errInfo (b : Buffer) (o : Nat) (bs : List Byte) (s : State) : (putBuf b o bs s).errInfo = s.errInfo := rfl
@[simp] theorem putBuf_ks (b : Buffer) (o : Nat) (bs : List Byte) (s : State) : (putBuf b o bs s).ks = s.ks := rfl
@[simp] theorem putBuf_ts (b : Buffer) (o : Nat) (bs : List Byte) (s : State) : (putBuf b o bs s).ts = s.ts := rfl
@[simp] theorem putBuf_reg (b : Buffer) (o : Nat) (bs : List Byte) (s : State) : (putBuf b o bs s).reg = s.reg := rfl
@[simp] theorem putBuf_mem (b : Buffer) (o : Nat) (bs : List Byte) (s : State) : (putBuf b o bs s).mem = s.mem.writeBytes (bufBase b + o) bs := rfl
@[simp] theorem putBuf_inputs (b : Buffer) (o : Nat) (bs : List Byte) (s : State) : (putBuf b o bs s).inputs = s.inputs := rfl
@[simp] theorem putBuf_trace (b : Buffer) (o : Nat) (bs : List Byte) (s : State) : (putBuf b o bs s).trace = s.trace := rfl

@[simp] theorem putReg_cfg (z : List Byte) (s : State) : (putReg z s).cfg = s.cfg := by simp only [putReg]
@[simp] theorem putReg_phase (z : List Byte) (s : State) : (putReg z s).phase = s.phase := by simp only [putReg]
@[simp] theorem putReg_var (z : List Byte) (s : State) : (putReg z s).var = s.var := by simp only [putReg]
@[simp] theorem putReg_mode (z : List Byte) (s : State) : (putReg z s).mode = s.mode := by simp only [putReg]
@[simp] theorem putReg_lastErr (z : List Byte) (s : State) : (putReg z s).lastErr = s.lastErr := by simp only [putReg]
@[simp] theorem putReg_errStat (z : List Byte) (s : State) : (putReg z s).errStat = s.errStat := by simp only [putReg]
@[simp] theorem putReg_keyLen (z : List Byte) (s : State) : (putReg z s).keyLen = s.keyLen := by simp only [putReg]
@[simp] theorem putReg_twkLen (z : List Byte) (s : State) : (putReg z s).twkLen = s.twkLen := by simp only [putReg]
@[simp] theorem putReg_ivLen (z : List Byte) (s : State) : (putReg z s).ivLen = s.ivLen := by simp only [putReg]
@[simp] theorem putReg_dataLen (z : List Byte) (s : State) : (putReg z s).dataLen = s.dataLen := by simp only [putReg]
@[simp] theorem putReg_outLen (z : List Byte) (s : State) : (putReg z s).outLen = s.outLen := by simp only [putReg]
@[simp] theorem putReg_errInfo (z : List Byte) (s : State) : (putReg z s).errInfo = s.errInfo := by simp only [putReg]
@[simp] theorem putReg_ks (z : List Byte) (s : State) : (putReg z s).ks = s.ks := by simp only [putReg]
@[simp] theorem putReg_ts (z : List Byte) (s : State) : (putReg z s).ts = s.ts := by simp only [putReg]
@[simp] theorem putReg_reg (z : List Byte) (s : State) : (putReg z s).reg = Vector.ofFn fun i => if i.val < wordCount s.var then le64 z (8 * i.val) else s.reg[i] := by simp only [putReg]
@[simp] theorem putReg_mem (z : List Byte) (s : State) : (putReg z s).mem = s.mem := by simp only [putReg]
@[simp] theorem putReg_inputs (z : List Byte) (s : State) : (putReg z s).inputs = s.inputs := by simp only [putReg]
@[simp] theorem putReg_trace (z : List Byte) (s : State) : (putReg z s).trace = s.trace := by simp only [putReg]

@[simp] theorem observe_cfg (r : ReadValue) (s : State) : (observe r s).cfg = s.cfg := rfl
@[simp] theorem observe_phase (r : ReadValue) (s : State) : (observe r s).phase = s.phase := rfl
@[simp] theorem observe_var (r : ReadValue) (s : State) : (observe r s).var = s.var := rfl
@[simp] theorem observe_mode (r : ReadValue) (s : State) : (observe r s).mode = s.mode := rfl
@[simp] theorem observe_lastErr (r : ReadValue) (s : State) : (observe r s).lastErr = s.lastErr := rfl
@[simp] theorem observe_errStat (r : ReadValue) (s : State) : (observe r s).errStat = s.errStat := rfl
@[simp] theorem observe_keyLen (r : ReadValue) (s : State) : (observe r s).keyLen = s.keyLen := rfl
@[simp] theorem observe_twkLen (r : ReadValue) (s : State) : (observe r s).twkLen = s.twkLen := rfl
@[simp] theorem observe_ivLen (r : ReadValue) (s : State) : (observe r s).ivLen = s.ivLen := rfl
@[simp] theorem observe_dataLen (r : ReadValue) (s : State) : (observe r s).dataLen = s.dataLen := rfl
@[simp] theorem observe_outLen (r : ReadValue) (s : State) : (observe r s).outLen = s.outLen := rfl
@[simp] theorem observe_errInfo (r : ReadValue) (s : State) : (observe r s).errInfo = s.errInfo := rfl
@[simp] theorem observe_ks (r : ReadValue) (s : State) : (observe r s).ks = s.ks := rfl
@[simp] theorem observe_ts (r : ReadValue) (s : State) : (observe r s).ts = s.ts := rfl
@[simp] theorem observe_reg (r : ReadValue) (s : State) : (observe r s).reg = s.reg := rfl
@[simp] theorem observe_mem (r : ReadValue) (s : State) : (observe r s).mem = s.mem := rfl
@[simp] theorem observe_inputs (r : ReadValue) (s : State) : (observe r s).inputs = s.inputs := rfl
@[simp] theorem observe_trace (r : ReadValue) (s : State) : (observe r s).trace = s.trace ++ [r] := rfl

end Sys2Proof.Machine
end

