-- ==== Sys2Proof/Laws/Memory.lean ====
section
/-! SUPPORT. Memory: read after write, the canonical form, byte strings. -/

namespace Sys2Proof.Machine

theorem Memory.wf_iff (m : Memory) :
    m.wf = true ↔ List.Pairwise (fun x y => x.1 < y.1) m ∧ ∀ c ∈ m, c.2 ≠ 0 := by
  simp [Memory.wf]

@[simp] theorem Memory.read_nil (a : Nat) : Memory.read [] a = 0 := rfl

@[simp] theorem Memory.wf_nil : Memory.wf [] = true := rfl

/-- Every entry of a written memory is an old one or the written byte. -/
theorem Memory.mem_write {m : Memory} {a : Nat} {b : Byte} {c : Host.Cell} (h : c ∈ m.write a b) :
    c ∈ m ∨ (c = (a, b) ∧ b ≠ 0) := by
  induction m with
  | nil => simp only [Memory.write] at h; split at h <;> simp_all
  | cons x m ih =>
    obtain ⟨k, v⟩ := x
    simp only [Memory.write] at h
    split at h
    · split at h <;> simp_all
      tauto
    · split at h
      · split at h
        · exact .inl (List.mem_cons_of_mem _ h)
        · simp_all
          tauto
      · rcases List.mem_cons.1 h with h | h
        · exact .inl (h ▸ List.mem_cons_self)
        · rcases ih h with h | h
          · exact .inl (List.mem_cons_of_mem _ h)
          · exact .inr h

/-- A write keeps the canonical form. -/
theorem Memory.wf_write {m : Memory} (h : m.wf = true) (a : Nat) (b : Byte) : (m.write a b).wf = true := by
  rw [Memory.wf_iff] at h ⊢
  obtain ⟨hp, hz⟩ := h
  refine ⟨?_, fun c hc => ?_⟩
  · clear hz
    induction m with
    | nil => simp only [Memory.write]; split <;> simp
    | cons x m ih =>
      obtain ⟨k, v⟩ := x
      rw [List.pairwise_cons] at hp
      obtain ⟨hk, hp⟩ := hp
      simp only [Memory.write]
      split
      · split
        · exact List.pairwise_cons.2 ⟨hk, hp⟩
        · refine List.pairwise_cons.2 ⟨fun c hc => ?_, List.pairwise_cons.2 ⟨hk, hp⟩⟩
          rcases List.mem_cons.1 hc with rfl | hc
          · assumption
          · exact lt_trans (by assumption) (hk c hc)
      · split
        · split
          · exact hp
          · subst_vars
            exact List.pairwise_cons.2 ⟨hk, hp⟩
        · refine List.pairwise_cons.2 ⟨fun c hc => ?_, ih hp⟩
          rcases Memory.mem_write hc with hc | ⟨rfl, _⟩
          · exact hk c hc
          · simp only; omega
  · rcases Memory.mem_write hc with hc | ⟨rfl, hb⟩
    · exact hz c hc
    · exact hb

/-- An address below every listed one reads as 0x00. -/
theorem Memory.read_of_lt {m : Memory} {a : Nat} (h : ∀ c ∈ m, a < c.1) : m.read a = 0 := by
  induction m with
  | nil => rfl
  | cons x m ih =>
    have hx := h x List.mem_cons_self
    rw [Memory.read, if_neg (by omega)]
    exact ih fun c hc => h c (List.mem_cons_of_mem _ hc)

/-- A write leaves every other address as it was. -/
theorem Memory.read_write_other (m : Memory) {a a' : Nat} (b : Byte) (h : a' ≠ a) :
    (m.write a b).read a' = m.read a' := by
  induction m with
  | nil => simp only [Memory.write]; split <;> simp [Memory.read, h.symm]
  | cons x m ih =>
    obtain ⟨k, v⟩ := x
    simp only [Memory.write]
    split
    · split <;> simp [Memory.read, h.symm]
    · split
      · subst_vars
        split <;> simp [Memory.read, h.symm]
      · simp [Memory.read, ih]

/-- A read after a write to the same address gives the byte written, in a memory of canonical form. -/
theorem Memory.read_write_same {m : Memory} (hm : m.wf = true) (a : Nat) (b : Byte) :
    (m.write a b).read a = b := by
  rw [Memory.wf_iff] at hm
  obtain ⟨hp, -⟩ := hm
  induction m with
  | nil => simp only [Memory.write]; split <;> simp_all [Memory.read]
  | cons x m ih =>
    obtain ⟨k, v⟩ := x
    rw [List.pairwise_cons] at hp
    obtain ⟨hk, hp⟩ := hp
    simp only [Memory.write]
    split
    · split
      · subst_vars
        refine Memory.read_of_lt fun c hc => ?_
        rcases List.mem_cons.1 hc with rfl | hc
        · assumption
        · exact lt_trans (by assumption) (hk c hc)
      · simp [Memory.read]
    · split
      · subst_vars
        split
        · subst_vars
          exact Memory.read_of_lt hk
        · simp [Memory.read]
      · rw [Memory.read, if_neg (by omega)]
        exact ih hp

/-- Storing a byte string keeps the canonical form. -/
theorem Memory.wf_writeBytes {m : Memory} (h : m.wf = true) (a : Nat) (bs : List Byte) :
    (m.writeBytes a bs).wf = true := by
  induction bs generalizing m a with
  | nil => exact h
  | cons b bs ih => exact ih (Memory.wf_write h a b) (a + 1)

/-- Every entry after storing a byte string is an old one or lies where the string was stored. -/
theorem Memory.mem_writeBytes {m : Memory} {a : Nat} {bs : List Byte} {c : Host.Cell}
    (h : c ∈ m.writeBytes a bs) : c ∈ m ∨ (a ≤ c.1 ∧ c.1 < a + bs.length) := by
  induction bs generalizing m a with
  | nil => exact .inl h
  | cons b bs ih =>
    rcases ih h with h | h
    · rcases Memory.mem_write h with h | ⟨rfl, _⟩
      · exact .inl h
      · exact .inr ⟨le_rfl, by simp⟩
    · exact .inr (by simp only [List.length_cons]; omega)

/-- Storing a byte string leaves every address outside it as it was. -/
theorem Memory.read_writeBytes_outside (m : Memory) {a x : Nat} (bs : List Byte)
    (h : x < a ∨ a + bs.length ≤ x) : (m.writeBytes a bs).read x = m.read x := by
  induction bs generalizing m a with
  | nil => rfl
  | cons b bs ih =>
    simp only [List.length_cons] at h
    rw [Memory.writeBytes, ih (m.write a b) (by omega), Memory.read_write_other m b (by omega)]

/-- Reading back a stored byte string. -/
theorem Memory.read_writeBytes_inside {m : Memory} (hm : m.wf = true) (a : Nat) (bs : List Byte) {k : Nat}
    (h : k < bs.length) : (m.writeBytes a bs).read (a + k) = bs[k] := by
  induction bs generalizing m a k with
  | nil => simp at h
  | cons b bs ih =>
    rw [Memory.writeBytes]
    cases k with
    | zero =>
      rw [Memory.read_writeBytes_outside _ _ (by omega)]
      exact Memory.read_write_same hm a b
    | succ k =>
      have := ih (Memory.wf_write hm a b) (a + 1) (k := k) (by simpa using h)
      rw [show a + (k + 1) = a + 1 + k by omega]
      simpa using this

/-- Memories of canonical form that read alike are equal. -/
theorem Memory.ext_read {m n : Memory} (hm : m.wf = true) (hn : n.wf = true)
    (h : ∀ a, m.read a = n.read a) : m = n := by
  rw [Memory.wf_iff] at hm hn
  obtain ⟨pm, zm⟩ := hm
  obtain ⟨pn, zn⟩ := hn
  induction m generalizing n with
  | nil =>
    cases n with
    | nil => rfl
    | cons y n =>
      have := h y.1
      simp [Memory.read] at this
      exact absurd this.symm (zn y List.mem_cons_self)
  | cons x m ih =>
    rw [List.pairwise_cons] at pm
    cases n with
    | nil =>
      have := h x.1
      simp [Memory.read] at this
      exact absurd this (zm x List.mem_cons_self)
    | cons y n =>
      rw [List.pairwise_cons] at pn
      have hxy : x.1 = y.1 := by
        rcases lt_trichotomy x.1 y.1 with hlt | heq | hgt
        · have hx := h x.1
          rw [Memory.read, if_pos rfl, Memory.read_of_lt (m := y :: n)] at hx
          · exact absurd hx (zm x List.mem_cons_self)
          · intro c hc
            rcases List.mem_cons.1 hc with rfl | hc
            · exact hlt
            · exact lt_trans hlt (pn.1 c hc)
        · exact heq
        · have hy := h y.1
          rw [Memory.read_of_lt (m := x :: m), Memory.read, if_pos rfl] at hy
          · exact absurd hy.symm (zn y List.mem_cons_self)
          · intro c hc
            rcases List.mem_cons.1 hc with rfl | hc
            · exact hgt
            · exact lt_trans hgt (pm.1 c hc)
      have hv : x.2 = y.2 := by
        have := h x.1
        simpa [Memory.read, hxy] using this
      have htail : m = n := by
        refine ih (fun a => ?_) pm.2 (fun c hc => zm c (List.mem_cons_of_mem _ hc)) pn.2
          (fun c hc => zn c (List.mem_cons_of_mem _ hc))
        by_cases ha : a = x.1
        · rw [Memory.read_of_lt (m := m), Memory.read_of_lt (m := n)]
          · intro c hc; rw [ha, hxy]; exact pn.1 c hc
          · intro c hc; rw [ha]; exact pm.1 c hc
        · have := h a
          rwa [Memory.read, if_neg (Ne.symm ha), Memory.read, if_neg (by rw [← hxy]; exact Ne.symm ha)] at this
      rw [htail, Prod.ext hxy hv]

@[simp] theorem Memory.readBytes_length (m : Memory) (a n : Nat) : (m.readBytes a n).length = n := by
  simp [Memory.readBytes]

@[simp] theorem Memory.readBytes_getElem (m : Memory) (a n k : Nat) (h : k < (m.readBytes a n).length) :
    (m.readBytes a n)[k] = m.read (a + k) := by
  simp [Memory.readBytes]

/-- Byte strings read from two memories are equal when the memories read alike there. -/
theorem Memory.readBytes_congr {m m' : Memory} {a a' n : Nat}
    (h : ∀ k < n, m.read (a + k) = m'.read (a' + k)) : m.readBytes a n = m'.readBytes a' n := by
  simp only [Memory.readBytes]
  exact List.map_congr_left fun k hk => h k (List.mem_range.1 hk)

/-- Reading back a whole stored byte string. -/
theorem Memory.readBytes_writeBytes_same {m : Memory} (hm : m.wf = true) (a : Nat) (bs : List Byte) :
    (m.writeBytes a bs).readBytes a bs.length = bs := by
  refine List.ext_getElem (by simp) fun k h1 h2 => ?_
  rw [Memory.readBytes_getElem, Memory.read_writeBytes_inside hm a bs h2]

/-- Storing a byte string does not change what is read elsewhere. -/
theorem Memory.readBytes_writeBytes_outside (m : Memory) {a x n : Nat} (bs : List Byte)
    (h : x + n ≤ a ∨ a + bs.length ≤ x) : (m.writeBytes a bs).readBytes x n = m.readBytes x n :=
  Memory.readBytes_congr fun k hk => Memory.read_writeBytes_outside m bs (by omega)

/-- Storing two byte strings one after the other is storing their concatenation. -/
theorem Memory.writeBytes_append (m : Memory) (a : Nat) (xs ys : List Byte) :
    m.writeBytes a (xs ++ ys) = (m.writeBytes a xs).writeBytes (a + xs.length) ys := by
  induction xs generalizing m a with
  | nil => rfl
  | cons x xs ih => simp only [List.cons_append, Memory.writeBytes, ih, List.length_cons]; congr 1; omega

end Sys2Proof.Machine
end

