-- ==== Sys2Proof/Laws/Bytes.lean ====
section
/-! SUPPORT. Little-endian byte strings and words: lengths and round trips. -/

namespace Sys2Proof.Machine

@[simp] theorem leBytes_length (n x : Nat) : (leBytes n x).length = n := by
  induction n generalizing x with
  | zero => rfl
  | succ n ih => simp [leBytes, ih]

theorem leNat_lt (bs : List Byte) : leNat bs < 256 ^ bs.length := by
  induction bs with
  | nil => simp [leNat]
  | cons b bs ih =>
    have hb := b.isLt
    simp only [leNat, List.length_cons, pow_succ]
    omega

/-- The number a byte string made from `x` holds is `x` modulo 256^n. -/
theorem leNat_leBytes (n x : Nat) : leNat (leBytes n x) = x % 256 ^ n := by
  induction n generalizing x with
  | zero => simp [leBytes, leNat, Nat.mod_one]
  | succ n ih =>
    have hp : 256 ^ (n + 1) = 256 * 256 ^ n := by rw [pow_succ, Nat.mul_comm]
    rw [leBytes, leNat, ih, BitVec.toNat_ofNat, hp, Nat.mod_mul]

/-- A byte string is made from the number it holds. -/
theorem leBytes_leNat (bs : List Byte) : leBytes bs.length (leNat bs) = bs := by
  induction bs with
  | nil => rfl
  | cons b bs ih =>
    have hb := b.isLt
    have h1 : BitVec.ofNat 8 (b.toNat + 256 * leNat bs) = b := by
      apply BitVec.eq_of_toNat_eq
      simp only [BitVec.toNat_ofNat]
      omega
    have h2 : (b.toNat + 256 * leNat bs) / 256 = leNat bs := by omega
    simp only [List.length_cons, leBytes, leNat, h1, h2, ih]

/-- `leBytes` sees its number modulo 256^n only. -/
theorem leBytes_mod (n x : Nat) : leBytes n (x % 256 ^ n) = leBytes n x := by
  have h := leBytes_leNat (leBytes n x)
  rwa [leBytes_length, leNat_leBytes] at h

@[simp] theorem wordsOf_length (n : Nat) (bs : List Byte) : (wordsOf n bs).length = n := by simp [wordsOf]

theorem bytesOf_cons (w : Word) (ws : List Word) : bytesOf (w :: ws) = leBytes 8 w.toNat ++ bytesOf ws := rfl

@[simp] theorem bytesOf_length (ws : List Word) : (bytesOf ws).length = 8 * ws.length := by
  induction ws with
  | nil => rfl
  | cons w ws ih => rw [bytesOf_cons]; simp [ih]; omega

@[simp] theorem xorBytes_length (x y : List Byte) : (xorBytes x y).length = min x.length y.length := by
  simp [xorBytes]

/-- Exclusive or with the same string twice is the identity. -/
theorem xorBytes_cancel {x y : List Byte} (h : x.length = y.length) : xorBytes (xorBytes x y) y = x := by
  refine List.ext_getElem (by simp [h]) fun k h1 h2 => ?_
  simp [xorBytes]

theorem xorBytes_comm (x y : List Byte) : xorBytes x y = xorBytes y x := by
  simp only [xorBytes]
  rw [List.zipWith_comm]
  congr 1
  funext a b
  exact BitVec.xor_comm b a

/-- A word of a byte string, eight bytes at an offset. -/
theorem wordsOf_succ (n : Nat) (bs : List Byte) :
    wordsOf (n + 1) bs = le64 bs 0 :: wordsOf n (bs.drop 8) := by
  simp only [wordsOf, List.range_succ_eq_map, List.map_cons, List.map_map]
  congr 1
  refine List.map_congr_left fun i _ => ?_
  simp only [Function.comp, le64, List.drop_drop]
  congr 4
  omega

/-- The words of the bytes of a word array are the array. -/
theorem wordsOf_bytesOf (ws : List Word) : wordsOf ws.length (bytesOf ws) = ws := by
  induction ws with
  | nil => rfl
  | cons w ws ih =>
    rw [List.length_cons, wordsOf_succ, bytesOf_cons]
    have h8 : (leBytes 8 w.toNat ++ bytesOf ws).drop 8 = bytesOf ws := by
      rw [List.drop_append_of_le_length (by simp)]; simp
    have h0 : le64 (leBytes 8 w.toNat ++ bytesOf ws) 0 = w := by
      rw [le64, List.drop_zero, List.take_append_of_le_length (by simp),
        List.take_of_length_le (by simp), leNat_leBytes]
      apply BitVec.eq_of_toNat_eq
      have := w.isLt
      simp only [BitVec.toNat_ofNat]
      omega
    rw [h8, h0, ih]

/-- The bytes of the words of a byte string of 8n bytes are the string. -/
theorem bytesOf_wordsOf (n : Nat) (bs : List Byte) (h : bs.length = 8 * n) : bytesOf (wordsOf n bs) = bs := by
  induction n generalizing bs with
  | zero => simp at h; subst h; rfl
  | succ n ih =>
    rw [wordsOf_succ, bytesOf_cons, ih _ (by rw [List.length_drop, h]; omega)]
    have ht : (bs.take 8).length = 8 := by simp [h]
    have h0 : leBytes 8 (le64 bs 0).toNat = bs.take 8 := by
      have hl := leBytes_leNat (bs.take 8)
      rw [ht] at hl
      have hlt := leNat_lt (bs.take 8)
      rw [ht] at hlt
      rw [le64, List.drop_zero, BitVec.toNat_ofNat, Nat.mod_eq_of_lt (by norm_num at hlt ⊢; exact hlt), hl]
    rw [h0, List.take_append_drop]

/-- The eight bytes of an engine read, the byte at the lowest address least significant (R63). -/
theorem memRead_eight (m : Memory) (a : Nat) :
    memRead m a 8 = (m.read a).toNat + 256 * ((m.read (a + 1)).toNat + 256 * ((m.read (a + 2)).toNat
      + 256 * ((m.read (a + 3)).toNat + 256 * ((m.read (a + 4)).toNat + 256 * ((m.read (a + 5)).toNat
      + 256 * ((m.read (a + 6)).toNat + 256 * (m.read (a + 7)).toNat)))))) := by
  simp [memRead, Memory.readBytes, List.range_succ_eq_map, leNat]

end Sys2Proof.Machine
end

