-- ==== Sys2Proof/Laws/Cipher.lean ====
section
/-! SUPPORT. The round pipeline and the modes keep lengths; what one block and the block loop of XFORM write. -/

namespace Sys2Proof.Machine

theorem blockBytes_eq (v : Variant) : blockBytes v = 8 * wordCount v := rfl

theorem wordCount_cases (v : Variant) : wordCount v = 4 ∨ wordCount v = 8 ∨ wordCount v = 16 := by
  cases v <;> simp [wordCount]

theorem wordCount_pos (v : Variant) : 0 < wordCount v := by cases v <;> decide

theorem wordCount_le (v : Variant) : wordCount v ≤ 16 := by cases v <;> decide

/-- Each row of a rotation table serves W/2 pairs (R143). -/
theorem rotRow_length (v : Variant) (d : Nat) : 2 * (rotRow v d).length = wordCount v := by
  have h : d % 8 < 8 := Nat.mod_lt _ (by decide)
  rw [rotRow]
  generalize d % 8 = k at h
  cases v <;> interval_cases k <;> rfl

@[simp] theorem piTable_length (v : Variant) : (piTable v).length = wordCount v := by cases v <;> rfl

@[simp] theorem invTable_length (v : Variant) : (invTable v).length = wordCount v := by cases v <;> rfl

theorem mixPairs_length {rs : List Nat} {x : List Word} (h : 2 * rs.length = x.length) :
    (mixPairs rs x).length = x.length := by
  induction rs generalizing x with
  | nil => simp at h; simp [mixPairs, ← h]
  | cons r rs ih =>
    obtain _ | ⟨a, _ | ⟨b, x⟩⟩ := x
    · simp at h
    · simp at h
    · simp only [mixPairs, List.length_cons] at h ⊢
      rw [ih (by omega)]

theorem unmixPairs_length {rs : List Nat} {x : List Word} (h : 2 * rs.length = x.length) :
    (unmixPairs rs x).length = x.length := by
  induction rs generalizing x with
  | nil => simp at h; simp [unmixPairs, ← h]
  | cons r rs ih =>
    obtain _ | ⟨a, _ | ⟨b, x⟩⟩ := x
    · simp at h
    · simp at h
    · simp only [unmixPairs, List.length_cons] at h ⊢
      rw [ih (by omega)]

@[simp] theorem permute_length (p : List Nat) (f : List Word) : (permute p f).length = p.length := by
  simp [permute]

@[simp] theorem forwardRound_length (v : Variant) (d : Nat) (x : List Word) :
    (forwardRound v d x).length = wordCount v := by simp [forwardRound]

@[simp] theorem inverseRound_length (v : Variant) (d : Nat) (y : List Word) :
    (inverseRound v d y).length = wordCount v := by
  rw [inverseRound, unmixPairs_length] <;> simp [rotRow_length]

@[simp] theorem subkey_length (v : Variant) (ks : Vector Word 17) (ts : Vector Word 3) (s : Nat) :
    (subkey v ks ts s).length = wordCount v := by simp [subkey]

@[simp] theorem inject_length (x k : List Word) : (inject x k).length = min x.length k.length := by simp [inject]

@[simp] theorem eject_length (x k : List Word) : (eject x k).length = min x.length k.length := by simp [eject]

theorem encryptRounds_length (v : Variant) (ks : Vector Word 17) (ts : Vector Word 3) (n : Nat) {x : List Word}
    (h : x.length = wordCount v) : (encryptRounds v ks ts n x).length = wordCount v := by
  cases n with
  | zero => exact h
  | succ n => simp only [encryptRounds]; split <;> simp

theorem decryptRounds_length (v : Variant) (ks : Vector Word 17) (ts : Vector Word 3) (n : Nat) {x : List Word}
    (h : x.length = wordCount v) : (decryptRounds v ks ts n x).length = wordCount v := by
  induction n generalizing x with
  | zero => exact h
  | succ n ih => simp only [decryptRounds]; split <;> exact ih (by simp)

@[simp] theorem encryptBlock_length (s : State) (x : List Byte) :
    (encryptBlock s x).length = blockBytes s.var := by
  simp [encryptBlock, encryptWords, encryptRounds_length, blockBytes_eq]

@[simp] theorem decryptBlock_length (s : State) (x : List Byte) :
    (decryptBlock s x).length = blockBytes s.var := by
  rw [decryptBlock, decryptWords, bytesOf_length, decryptRounds_length _ _ _ _ (by simp), blockBytes_eq]

@[simp] theorem bufBytes_length (s : State) (b : Buffer) (o n : Nat) : (bufBytes s b o n).length = n := by
  simp [bufBytes]

@[simp] theorem regBytes_length (s : State) : (regBytes s).length = blockBytes s.var := by
  have := wordCount_le s.var
  simp [regBytes, blockBytes_eq]; omega

@[simp] theorem incCounter_length (o : CtrOrder) (rb : List Byte) : (incCounter o rb).length = rb.length := by
  cases o <;> simp [incCounter]

/-- One block of any mode gives a whole block and a whole register (R180 to R189). -/
theorem modeStep_length {o : CtrOrder} {e d : List Byte → List Byte} {n : Nat} (he : ∀ x, (e x).length = n)
    (hd : ∀ x, (d x).length = n) (m : Mode) (dir : Dir) {x rb : List Byte} (hx : x.length = n) (hr : rb.length = n) :
    (modeStep o e d m dir x rb).1.length = n ∧ (modeStep o e d m dir x rb).2.length = n := by
  cases m <;> cases dir <;> simp [modeStep, he, hd, hx, hr]

theorem boundStep_length (dir : Dir) (s : State) {x : List Byte} (hx : x.length = blockBytes s.var) :
    (boundStep dir s x).1.length = blockBytes s.var ∧ (boundStep dir s x).2.length = blockBytes s.var :=
  modeStep_length (encryptBlock_length s) (decryptBlock_length s) s.mode dir hx (regBytes_length s)

/-- The register read back after it is written (R173). -/
theorem regBytes_putReg {s : State} {z : List Byte} (h : z.length = blockBytes s.var) :
    regBytes (putReg z s) = z := by
  have hw := wordCount_le s.var
  have hl : (putReg z s).reg.toList.take (wordCount s.var) = wordsOf (wordCount s.var) z := by
    refine List.ext_getElem (by simp; omega) fun i h1 h2 => ?_
    have hi : i < wordCount s.var := by simpa using h2
    simp [wordsOf, hi]
  rw [regBytes, putReg_var, hl, bytesOf_wordsOf _ _ h]

/-- One block of XFORM writes memory and REG only. -/
theorem xformBlock_eq (dir : Dir) (i : Nat) (s : State) :
    xformBlock dir i s = { s with mem := (xformBlock dir i s).mem, reg := (xformBlock dir i s).reg } := rfl

/-- The block loop of XFORM writes memory and REG only (R176). -/
theorem xformBlocks_eq (dir : Dir) (n : Nat) (s : State) :
    xformBlocks dir n s = { s with mem := (xformBlocks dir n s).mem, reg := (xformBlocks dir n s).reg } := by
  induction n with
  | zero => rfl
  | succ n ih => rw [xformBlocks, ih, xformBlock_eq]

/-- The memory after one block of XFORM (R176). -/
theorem xformBlock_mem (dir : Dir) (i : Nat) (s : State) :
    (xformBlock dir i s).mem = s.mem.writeBytes (bufBase .dout + i * blockBytes s.var)
      (boundStep dir s (bufBytes s .din (i * blockBytes s.var) (blockBytes s.var))).1 := rfl

/-- The register after one block of XFORM (R176). -/
theorem xformBlock_regBytes (dir : Dir) (i : Nat) (s : State) :
    regBytes (xformBlock dir i s)
      = (boundStep dir s (bufBytes s .din (i * blockBytes s.var) (blockBytes s.var))).2 := by
  rw [xformBlock, regBytes_putReg]
  exact (boundStep_length dir s (by simp)).2

end Sys2Proof.Machine
end

