-- ==== Sys2Proof/Laws/Decode.lean ====
section
/-! SUPPORT. A word with a bit above bit 9 is illegal; the others are the numbers below 1024. -/

namespace Sys2Proof

/-- The field ZERO of a word is the word divided by 1024 (R90). -/
theorem splitFields_zero_toNat (w : Reg32) : (splitFields w).zero.toNat = w.toNat / 1024 := by
  have := w.isLt
  simp only [splitFields, BitVec.extractLsb'_toNat, Nat.shiftRight_eq_div_pow]
  omega

theorem splitFields_zero_ne {w : Reg32} (h : 1024 ≤ w.toNat) : (splitFields w).zero ≠ 0 := by
  intro hz
  have hn : w.toNat / 1024 = 0 := by rw [← splitFields_zero_toNat, hz]; rfl
  omega

/-- A word with a bit of ZERO set is illegal (R99). -/
theorem decode_illegal_of_large {w : Reg32} (h : 1024 ≤ w.toNat) : decode w = .illegal := by
  rw [decode, decodeFields, if_pos (splitFields_zero_ne h)]

/-- Every other word is one of 1024. -/
theorem word_of_small {w : Reg32} (h : w.toNat < 1024) : ∃ n : Fin 1024, w = BitVec.ofNat 32 n.val :=
  ⟨⟨w.toNat, h⟩, by simp⟩

end Sys2Proof
end

