-- ==== Sys2Proof/Laws/Exec.lean ====
section
/-! SUPPORT. Everything each shared operation, each command and one step can do: an inversion lemma for each, which
later proofs cite instead of unfolding it. -/

namespace Sys2Proof.Machine

/-- INIT either completes or reports one of its two sizes (R121). -/
theorem initEngine_cases (v : Variant) (w : Reg32) (s : State) :
    (s.keyLen.toNat ≠ blockBytes v ∧ initEngine v w s = raiseSize .key (blockBytes v) w s) ∨
    (s.keyLen.toNat = blockBytes v ∧ s.twkLen.toNat ≠ tweakBytes ∧ initEngine v w s = raiseSize .twk tweakBytes w s) ∨
    (s.keyLen.toNat = blockBytes v ∧ s.twkLen.toNat = tweakBytes ∧ initEngine v w s = bindEngine v s) := by
  unfold initEngine
  split
  · exact .inl ⟨‹_›, rfl⟩
  · split
    · exact .inr (.inl ⟨not_not.1 ‹_›, ‹_›, rfl⟩)
    · exact .inr (.inr ⟨not_not.1 ‹_›, not_not.1 ‹_›, rfl⟩)

/-- ENCB and DECB either complete or report the phase or the size (R153). -/
theorem blockCommand_cases (f : List Byte → List Byte) (w : Reg32) (s : State) :
    (s.phase = .created ∧ blockCommand f w s = raiseCause .sequence w s) ∨
    (s.phase = .disposed ∧ blockCommand f w s = raiseCause .disposedState w s) ∨
    ((s.phase = .keyed ∨ s.phase = .stream) ∧ s.dataLen.toNat ≠ blockBytes s.var ∧
      blockCommand f w s = raiseSize .data (blockBytes s.var) w s) ∨
    ((s.phase = .keyed ∨ s.phase = .stream) ∧ s.dataLen.toNat = blockBytes s.var ∧
      blockCommand f w s = runBlock f s) := by
  cases h : s.phase <;> simp only [blockCommand, needsEngine, h] <;>
    by_cases hd : s.dataLen.toNat = blockBytes s.var <;> simp [hd]

/-- START either completes or reports the phase or the size (R171). -/
theorem startStream_cases (m : Mode) (w : Reg32) (s : State) :
    (s.phase = .created ∧ startStream m w s = raiseCause .sequence w s) ∨
    (s.phase = .disposed ∧ startStream m w s = raiseCause .disposedState w s) ∨
    ((s.phase = .keyed ∨ s.phase = .stream) ∧ s.ivLen.toNat ≠ blockBytes s.var ∧
      startStream m w s = raiseSize .iv (blockBytes s.var) w s) ∨
    ((s.phase = .keyed ∨ s.phase = .stream) ∧ s.ivLen.toNat = blockBytes s.var ∧
      startStream m w s = openStream m s) := by
  cases h : s.phase <;> simp only [startStream, needsEngine, h] <;>
    by_cases hd : s.ivLen.toNat = blockBytes s.var <;> simp [hd]

/-- XFORM either completes or reports the phase or the size (R175). -/
theorem xformCommand_cases (dir : Dir) (w : Reg32) (s : State) :
    ((s.phase = .created ∨ s.phase = .keyed) ∧ xformCommand dir w s = raiseCause .sequence w s) ∨
    (s.phase = .disposed ∧ xformCommand dir w s = raiseCause .disposedState w s) ∨
    (s.phase = .stream ∧ xformSizeOk s = false ∧ xformCommand dir w s = raiseSize .data (blockBytes s.var) w s) ∨
    (s.phase = .stream ∧ xformSizeOk s = true ∧ xformCommand dir w s = runXform dir s) := by
  cases h : s.phase <;> simp only [xformCommand, needsStream, h] <;>
    by_cases hd : xformSizeOk s = true <;> simp [hd]

/-- The sizes XFORM accepts (R175). -/
theorem xformSizeOk_iff (s : State) : xformSizeOk s = true ↔
    0 < s.dataLen.toNat ∧ s.dataLen.toNat % blockBytes s.var = 0 ∧ s.dataLen.toNat ≤ dbufBytes s.cfg := by
  simp [xformSizeOk, and_assoc]

/-- Everything a command word can do: it fails, with an effect of `raiseError` alone, or one of the five effects of
files 40 to 44 happens. -/
inductive CommandEffect (s : State) : State → Prop
  | failed (c : Cause) (expect what : Nat) (w : Reg32) (hc : c ≠ .invalidPadding) :
      CommandEffect s (raiseError c expect what w s)
  | bound (v : Variant) (hk : s.keyLen.toNat = blockBytes v) (ht : s.twkLen.toNat = tweakBytes) :
      CommandEffect s (bindEngine v s)
  | block (f : List Byte → List Byte) (hf : f = encryptBlock s ∨ f = decryptBlock s)
      (hp : s.phase = .keyed ∨ s.phase = .stream) (hd : s.dataLen.toNat = blockBytes s.var) :
      CommandEffect s (runBlock f s)
  | opened (m : Mode) (hp : s.phase = .keyed ∨ s.phase = .stream) (hd : s.ivLen.toNat = blockBytes s.var) :
      CommandEffect s (openStream m s)
  | transformed (dir : Dir) (hp : s.phase = .stream) (hd : xformSizeOk s = true) : CommandEffect s (runXform dir s)
  | scrubbed : CommandEffect s (scrub s)

theorem CommandEffect.ofInit (v : Variant) (w : Reg32) (s : State) : CommandEffect s (initEngine v w s) := by
  obtain ⟨-, h⟩ | ⟨-, -, h⟩ | ⟨hk, ht, h⟩ := initEngine_cases v w s <;> rw [h]
  · exact .failed _ _ _ _ (by decide)
  · exact .failed _ _ _ _ (by decide)
  · exact .bound v hk ht

theorem CommandEffect.ofBlock {f : List Byte → List Byte} (w : Reg32) {s : State}
    (hf : f = encryptBlock s ∨ f = decryptBlock s) : CommandEffect s (blockCommand f w s) := by
  obtain ⟨-, h⟩ | ⟨-, h⟩ | ⟨-, -, h⟩ | ⟨hp, hd, h⟩ := blockCommand_cases f w s <;> rw [h]
  · exact .failed _ _ _ _ (by decide)
  · exact .failed _ _ _ _ (by decide)
  · exact .failed _ _ _ _ (by decide)
  · exact .block f hf hp hd

theorem CommandEffect.ofStart (m : Mode) (w : Reg32) (s : State) : CommandEffect s (startStream m w s) := by
  obtain ⟨-, h⟩ | ⟨-, h⟩ | ⟨-, -, h⟩ | ⟨hp, hd, h⟩ := startStream_cases m w s <;> rw [h]
  · exact .failed _ _ _ _ (by decide)
  · exact .failed _ _ _ _ (by decide)
  · exact .failed _ _ _ _ (by decide)
  · exact .opened m hp hd

theorem CommandEffect.ofXform (dir : Dir) (w : Reg32) (s : State) : CommandEffect s (xformCommand dir w s) := by
  obtain ⟨-, h⟩ | ⟨-, h⟩ | ⟨-, -, h⟩ | ⟨hp, hd, h⟩ := xformCommand_cases dir w s <;> rw [h]
  · exact .failed _ _ _ _ (by decide)
  · exact .failed _ _ _ _ (by decide)
  · exact .failed _ _ _ _ (by decide)
  · exact .transformed dir hp hd

/-- Every command has a next state, and it is one of the effects above. -/
theorem exec_effect (i : Instr) (s : State) : ∃ t, exec i s = .next t ∧ CommandEffect s t := by
  cases i
  case init256 => exact ⟨_, rfl, .ofInit ..⟩
  case init512 => exact ⟨_, rfl, .ofInit ..⟩
  case init1024 => exact ⟨_, rfl, .ofInit ..⟩
  case encb => exact ⟨_, rfl, .ofBlock _ (.inl rfl)⟩
  case decb => exact ⟨_, rfl, .ofBlock _ (.inr rfl)⟩
  case startEcb => exact ⟨_, rfl, .ofStart ..⟩
  case startCbc => exact ⟨_, rfl, .ofStart ..⟩
  case startCfb => exact ⟨_, rfl, .ofStart ..⟩
  case startOfb => exact ⟨_, rfl, .ofStart ..⟩
  case startCtr => exact ⟨_, rfl, .ofStart ..⟩
  case xformE => exact ⟨_, rfl, .ofXform ..⟩
  case xformD => exact ⟨_, rfl, .ofXform ..⟩
  case dispose => exact ⟨_, rfl, .scrubbed⟩

/-- Every word written to CMD has a next state, and it is one of the effects above (R99, R314). -/
theorem runCommand_effect (w : Reg32) (s : State) : ∃ t, runCommand w s = .next t ∧ CommandEffect s t := by
  unfold runCommand
  cases decode w with
  | legal i => exact exec_effect i s
  | reservedInit => exact ⟨_, rfl, .failed _ _ _ _ (by decide)⟩
  | reservedStart =>
    refine ⟨_, rfl, ?_⟩
    cases h : s.phase <;> simp only [runReservedStart, needsEngine, h] <;> exact .failed _ _ _ _ (by decide)
  | illegal => exact ⟨_, rfl, .failed _ _ _ _ (by decide)⟩

/-- Everything an event can do. -/
inductive EventEffect (s : State) : State → Prop
  | read (r : ReadValue) : EventEffect s (observe r s)
  | register (a : Nat) (v : Reg32) : EventEffect s (csrStore a v s)
  | byte (a : Nat) (b : Byte) : EventEffect s (bufStore a b s)
  | command (t : State) (h : CommandEffect s t) : EventEffect s t
  | reset : EventEffect s (hardReset s)

/-- An event that is served has one of the effects above. -/
theorem serve_effect {e : Event} {s t : State} (h : serve e s = .next t) : EventEffect s t := by
  cases e with
  | csrRead a => simp only [serve] at h; split at h <;> cases h; exact .read _
  | bufRead a => simp only [serve] at h; split at h <;> cases h; exact .read _
  | bufWrite a b => simp only [serve] at h; split at h <;> cases h; exact .byte a b
  | otherWidth a n => cases h
  | reset => cases h; exact .reset
  | csrWrite a v =>
    simp only [serve] at h
    split at h
    · split at h
      · obtain ⟨u, hu, he⟩ := runCommand_effect v s
        rw [hu] at h; cases h
        exact .command _ he
      · cases h; exact .register a v
    · cases h

/-- Everything one step can do: wait, or take the next event and serve it. -/
theorem step_effect {s t : State} (h : step s = .next t) :
    (s.inputs = [] ∧ t = s) ∨
    ∃ e rest, s.inputs = e :: rest ∧ serve e { s with inputs := rest } = .next t ∧
      EventEffect { s with inputs := rest } t := by
  unfold step at h
  split at h
  · cases h; exact .inl ⟨‹_›, rfl⟩
  · exact .inr ⟨_, _, ‹_›, h, serve_effect h⟩

/-- An event is served when it lies in the interface of R60 (or is reset), and refused otherwise (U4). -/
theorem serve_next_or_refused (e : Event) (s : State) :
    (∃ t, serve e s = .next t) ∨ serve e s = .refused .outsideInterface := by
  cases e with
  | csrRead a => by_cases h : csrOffset a = true <;> simp [serve, h]
  | bufRead a => by_cases h : bufAddress a = true <;> simp [serve, h]
  | bufWrite a b => by_cases h : bufAddress a = true <;> simp [serve, h]
  | otherWidth a n => exact .inr rfl
  | reset => exact .inl ⟨_, rfl⟩
  | csrWrite a v =>
    by_cases h : csrOffset a = true
    · by_cases hc : a = cmdOffset
      · obtain ⟨t, ht, -⟩ := runCommand_effect v s
        exact .inl ⟨t, by simp [serve, hc, ht, show csrOffset cmdOffset = true from rfl]⟩
      · simp [serve, h, hc]
    · simp [serve, h]

end Sys2Proof.Machine
end

