-- ==== Sys2Proof/Laws/Flags.lean ====
section
/-! SUPPORT. The registers as numbers, and the address map as inequalities. -/

namespace Sys2Proof.Machine

/-- ERRINFO as a number (R41): CMDLO above EXPECT above WHAT. -/
theorem errInfoWord_toNat (w : Reg32) {e k : Nat} (he : e < 256) (hk : k < 8) :
    (errInfoWord w e k).toNat = w.toNat % 65536 * 65536 + e * 256 + k := by
  have h : (errInfoWord w e k).toNat = (((w.toNat % 65536) <<< 8 ||| e) <<< 5 ||| 0) <<< 3 ||| k := by
    unfold errInfoWord
    erw [BitVec.toNat_append, BitVec.toNat_append, BitVec.toNat_append]
    simp [BitVec.extractLsb'_toNat, Nat.mod_eq_of_lt he, Nat.mod_eq_of_lt hk]
  rw [h, ← Nat.shiftLeft_add_eq_or_of_lt (b := k) (i := 3) (by omega),
    ← Nat.shiftLeft_add_eq_or_of_lt (b := 0) (i := 5) (by omega),
    ← Nat.shiftLeft_add_eq_or_of_lt (b := e) (i := 8) (by omega)]
  simp only [Nat.shiftLeft_eq]
  omega

/-- The range of a buffer (R61). -/
theorem inBuffer_iff (c : Config) (b : Buffer) (a : Nat) :
    inBuffer c b a = true ↔ bufBase b ≤ a ∧ a < bufBase b + bufSize c b := by
  simp only [inBuffer, Bool.and_eq_true, decide_eq_true_eq]

/-- DBUF_BYTES lies between its bounds (R10). -/
theorem dbufBytes_bounds (c : Config) : 128 ≤ dbufBytes c ∧ dbufBytes c ≤ 4096 := by
  have := c.dbufUnits.isLt
  simp only [dbufBytes]
  omega

/-- The ranges the host may write (R61). -/
theorem hostWritable_iff (c : Config) (a : Nat) : hostWritable c a = true ↔
    (0x0100 ≤ a ∧ a < 0x0180) ∨ (0x0180 ≤ a ∧ a < 0x0190) ∨ (0x0200 ≤ a ∧ a < 0x0280) ∨
      (0x1000 ≤ a ∧ a < 0x1000 + dbufBytes c) := by
  simp only [hostWritable, Bool.or_eq_true, inBuffer_iff]
  simp only [bufBase, bufSize, or_assoc]

/-- The range of DOUT (R61). -/
theorem inDout_iff (c : Config) (a : Nat) :
    inBuffer c .dout a = true ↔ 0x2000 ≤ a ∧ a < 0x2000 + dbufBytes c := by
  rw [inBuffer_iff]
  rfl

end Sys2Proof.Machine
end

