-- ==== Sys2Proof/Laws/Host.lean ====
section
/-! SUPPORT. What the host's dialogue with TFE does: lines one after another, a pseudo-line's bytes in their buffer, the
value a read has returned, and the error the host takes from STATUS. -/

namespace Sys2Proof.Machine

@[simp] theorem andThen_ok {α β : Type} (s : State) (a : α) (f : α → State → State × Except HostError β) :
    andThen (s, .ok a) f = f a s := rfl

@[simp] theorem andThen_error {α β : Type} (s : State) (e : HostError) (f : α → State → State × Except HostError β) :
    andThen (s, .error e) f = (s, .error e) := rfl

/-- A part of a dialogue succeeds only when the part before it did. -/
theorem andThen_eq_ok {α β : Type} {r : State × Except HostError α} {f : α → State → State × Except HostError β}
    {u : State} {b : β} (h : andThen r f = (u, .ok b)) : ∃ s a, r = (s, .ok a) ∧ f a s = (u, .ok b) := by
  obtain ⟨s, e | a⟩ := r
  · simp at h
  · exact ⟨s, a, rfl, h⟩

@[simp] theorem sendLines_nil (s : State) : sendLines [] s = (s, .ok ()) := rfl

theorem sendLines_cons {e : Event} {s t : State} (es : List Event) (h : serve e s = .next t) :
    sendLines (e :: es) s = sendLines es t := by simp [sendLines, h]

theorem sendLines_append (xs ys : List Event) (s : State) :
    sendLines (xs ++ ys) s = andThen (sendLines xs s) fun _ t => sendLines ys t := by
  induction xs generalizing s with
  | nil => rfl
  | cons x xs ih =>
    simp only [List.cons_append, sendLines]
    cases serve x s with
    | next t => exact ih t
    | fault f => cases f
    | refused r => rfl

/-- `bufw` (R104) into one writable buffer. -/
theorem sendLines_lineBufw (s : State) (a : Nat) (bs : List Byte)
    (h : ∀ k, k < bs.length → hostWritable s.cfg (a + k) = true ∧ bufAddress (a + k) = true) :
    sendLines (lineBufw a bs) s = ({ s with mem := s.mem.writeBytes a bs }, .ok ()) := by
  induction bs generalizing s a with
  | nil => rfl
  | cons b bs ih =>
    have h0 := h 0 (by simp)
    rw [Nat.add_zero] at h0
    rw [lineBufw, sendLines_cons _ (t := { s with mem := s.mem.write a b }) (by simp [serve, bufStore, h0])]
    exact ih _ _ fun k hk => by
      have := h (k + 1) (by simpa using hk)
      rwa [show a + (k + 1) = a + 1 + k by omega] at this

/-- `csrr` (R104). -/
theorem sendLines_lineCsrr (s : State) {a : Nat} (h : csrOffset a = true) :
    sendLines (lineCsrr a) s = (observe (.csr (csrValue s a)) s, .ok ()) := by simp [lineCsrr, sendLines, serve, h]

/-- `csrw` (R104) at an offset other than CMD. -/
theorem sendLines_lineCsrw (s : State) {a : Nat} (v : Reg32) (h : csrOffset a = true) (hc : a ≠ cmdOffset) :
    sendLines (lineCsrw a v) s = (csrStore a v s, .ok ()) := by simp [lineCsrw, sendLines, serve, h, hc]

@[simp] theorem lastRegister_observe (v : Reg32) (s : State) : lastRegister (observe (.csr v) s) = v := by
  simp [lastRegister, observe]

/-- Buffer reads in DOUT record its bytes, in order. -/
theorem sendLines_bufReads (s : State) (as : List Nat)
    (h : ∀ a ∈ as, inBuffer s.cfg .dout a = true ∧ bufAddress a = true) :
    sendLines (as.map .bufRead) s = ({ s with trace := s.trace ++ as.map fun a => .byte (s.mem.read a) }, .ok ()) := by
  induction as generalizing s with
  | nil => simp
  | cons a as ih =>
    have h0 := h a (by simp)
    rw [List.map_cons, sendLines_cons _ (t := observe (.byte (s.mem.read a)) s) (by simp [serve, bufValue, h0])]
    rw [ih (observe (.byte (s.mem.read a)) s) fun x hx => h x (by simp [hx])]
    simp [observe]

/-- The code in STATUS is LASTERR (R33, R250). -/
@[simp] theorem reportedCause_statusWord (s : State) : reportedCause (statusWord s) = s.lastErr := by
  simp only [statusWord]
  cases s.phase <;> cases s.var <;> cases s.mode <;> rcases s.lastErr with _ | c <;> (try cases c) <;> rfl

/-- A command whose next state is `t`: the host reads STATUS, and LASTERR decides. -/
theorem sendCommand_eq {i : Instr} {s t : State} (h : exec i s = .next t) :
    sendCommand i s = (observe (.csr (statusWord t)) t,
      match t.lastErr with
      | some c => .error (.reported c)
      | none => .ok ()) := by
  have hs : serve (.csrWrite 0x004 (encode i)) s = .next t := by
    rw [← h, show serve (.csrWrite 0x004 (encode i)) s = runCommand (encode i) s from rfl, runCommand,
      show decode (encode i) = .legal i by cases i <;> decide]
  rw [sendCommand, checkedCommand, lineCommand, List.singleton_append, sendLines_cons _ hs,
    sendLines_lineCsrr t (a := 0x008) rfl, andThen_ok, lastRegister_observe,
    show csrValue t 0x008 = statusWord t from rfl, reportedCause_statusWord]
  cases t.lastErr <;> rfl

/-- Every command of the host leaves TFE in the state the command left, but for the record of reads. -/
theorem sendCommand_state (i : Instr) (s : State) :
    ∃ t, exec i s = .next t ∧ (sendCommand i s).1 = observe (.csr (statusWord t)) t := by
  obtain ⟨t, h, -⟩ := exec_effect i s
  exact ⟨t, h, by rw [sendCommand_eq h]⟩

/-- `rdout` (R105) gives OUT_LEN bytes of DOUT, and changes nothing but the record of reads. -/
theorem readOut_eq (s : State) (h : s.outLen.toNat ≤ dbufBytes s.cfg) :
    ∃ tr, readOut s = ({ s with trace := tr }, .ok (s.mem.readBytes 0x2000 s.outLen.toNat)) := by
  have hb := dbufBytes_bounds s.cfg
  rw [readOut, sendLines_lineCsrr s (a := 0x020) rfl, andThen_ok, lastRegister_observe,
    show csrValue s 0x020 = s.outLen from rfl,
    show lineBufr (bufBase .dout) s.outLen.toNat = ((List.range s.outLen.toNat).map (0x2000 + ·)).map .bufRead by
      simp [lineBufr, bufBase],
    sendLines_bufReads, andThen_ok]
  · refine ⟨_, congrArg (Prod.mk _) (congrArg Except.ok ?_)⟩
    simp only [lastBytes, List.length_append, List.length_map, List.length_range, Nat.add_sub_cancel, List.drop_left,
      List.map_map, Memory.readBytes]
    rfl
  · intro a ha
    simp only [List.mem_map, List.mem_range] at ha
    obtain ⟨k, hk, rfl⟩ := ha
    rw [inDout_iff]
    simp only [observe, bufAddress, Bool.and_eq_true, decide_eq_true_eq]
    omega

end Sys2Proof.Machine
end

