-- ==== Sys2Proof/Laws/PerInstr.lean ====
section
/-! SUPPORT. For each command: its fields form a command, its word splits into them, and the decoder reads it back. -/

namespace Sys2Proof.Laws.Encoding

/-- What is said of the command as syntax (30_encoding.md R90, R91, R97). -/
def Statement (i : Instr) : Prop :=
  (fieldsOf i).wellFormed = true ∧ splitFields (encode i) = fieldsOf i ∧ decode (encode i) = .legal i

theorem init256 : Statement .init256 := by unfold Statement; decide
theorem init512 : Statement .init512 := by unfold Statement; decide
theorem init1024 : Statement .init1024 := by unfold Statement; decide
theorem encb : Statement .encb := by unfold Statement; decide
theorem decb : Statement .decb := by unfold Statement; decide
theorem startEcb : Statement .startEcb := by unfold Statement; decide
theorem startCbc : Statement .startCbc := by unfold Statement; decide
theorem startCfb : Statement .startCfb := by unfold Statement; decide
theorem startOfb : Statement .startOfb := by unfold Statement; decide
theorem startCtr : Statement .startCtr := by unfold Statement; decide
theorem xformE : Statement .xformE := by unfold Statement; decide
theorem xformD : Statement .xformD := by unfold Statement; decide
theorem dispose : Statement .dispose := by unfold Statement; decide

end Sys2Proof.Laws.Encoding
end

