-- ==== Sys2Proof/Tests/Slice0.lean ====
section
/-! SUPPORT. Tests on fixed values, whose results stand in spec/95_test_vectors.md or in the rule named, and a witness for
the hypotheses of every statement that has some. Each test is one step on a small state. -/

namespace Sys2Proof.Tests

open Sys2Proof.Machine

/-! Small states -/

/-- The bytes i, i+1, …: the pattern inputs of 95_test_vectors.md section 1. -/
def pattern (i n : Nat) : List Byte := (List.range n).map fun k => BitVec.ofNat 8 (i + k)

/-- The next state of an outcome has the property. -/
def leads (o : Host.Outcome State Fault Refusal) (p : State → Bool) : Bool :=
  match o with
  | .next t    => p t
  | .fault _   => false
  | .refused _ => false

/-- The state after reset, with one event to come. -/
def facing (e : Event) : State := { State.reset with inputs := [e] }

/-- Vector T7: a Threefish-256 engine with the pattern key and tweak. -/
def engine : State := { State.reset with
  phase := .keyed
  ks := #v[0x1716151413121110, 0x1F1E1D1C1B1A1918, 0x2726252423222120, 0x2F2E2D2C2B2A2928, 0x1BD11BDAA9FC1A22,
    0, 0, 0, 0, 0, 0, 0, 0, 0, 0, 0, 0]
  ts := #v[0x0706050403020100, 0x0F0E0D0C0B0A0908, 0x0808080808080808] }

/-- The engine with bytes in DIN. -/
def loaded (bs : List Byte) : State :=
  { engine with mem := Memory.writeBytes [] 0x1000 bs, dataLen := BitVec.ofNat 32 bs.length }

/-- The streams of vectors T20 to T24, IV A0 A1 … BF, with bytes in DIN. -/
def stream (m : Mode) (bs : List Byte) : State :=
  { loaded bs with
      phase := .stream
      mode := m
      reg := #v[0xA7A6A5A4A3A2A1A0, 0xAFAEADACABAAA9A8, 0xB7B6B5B4B3B2B1B0, 0xBFBEBDBCBBBAB9B8,
        0, 0, 0, 0, 0, 0, 0, 0, 0, 0, 0, 0] }

/-- The state after reset with key bytes, the pattern tweak of T9 and the two lengths. -/
def keyed (key : List Byte) : State :=
  { State.reset with
      mem := (Memory.writeBytes [] 0x0100 key).writeBytes 0x0180
        [0xF0, 0xDF, 0xCE, 0xBD, 0xAC, 0x9B, 0x8A, 0x79, 0x68, 0x57, 0x46, 0x35, 0x24, 0x13, 0x02, 0xF1]
      keyLen := BitVec.ofNat 32 key.length, twkLen := 16 }

/-! WellFormed: for each check, fields it refuses -/

theorem test_zero_field_refused : ({ op := 1, dir := 0, mode := 0, var := 0, zero := 1 } : CommandFields).wellFormed = false := by
  decide
theorem test_missing_operation_refused :
    ({ op := 0, dir := 0, mode := 0, var := 0, zero := 0 } : CommandFields).wellFormed = false ∧
    ({ op := 6, dir := 0, mode := 0, var := 0, zero := 0 } : CommandFields).wellFormed = false := by decide
theorem test_unused_dir_refused : ({ op := 1, dir := 1, mode := 0, var := 0, zero := 0 } : CommandFields).wellFormed = false := by
  decide
theorem test_unused_mode_refused : ({ op := 5, dir := 0, mode := 1, var := 0, zero := 0 } : CommandFields).wellFormed = false := by
  decide
theorem test_unused_var_refused : ({ op := 4, dir := 0, mode := 0, var := 1, zero := 0 } : CommandFields).wellFormed = false := by
  decide
theorem test_reserved_var_refused : ({ op := 1, dir := 0, mode := 0, var := 3, zero := 0 } : CommandFields).wellFormed = false := by
  decide
theorem test_reserved_mode_refused : ({ op := 3, dir := 0, mode := 5, var := 0, zero := 0 } : CommandFields).wellFormed = false := by
  decide

/-! Decoding: the words of R97 written out field by field, ZERO_VAR_0_MODE_DIR_OP (bit 10 upwards is ZERO) -/

theorem test_decode_init256 : decode (0b0000000000000000000000#22 ++ 0b00#2 ++ 0b000#3 ++ 0b0#1 ++ 0b0001#4) = .legal .init256 := by
  decide
theorem test_decode_init512 : decode (0b0000000000000000000000#22 ++ 0b01#2 ++ 0b000#3 ++ 0b0#1 ++ 0b0001#4) = .legal .init512 := by
  decide
theorem test_decode_init1024 : decode 0b00000000000000000000001000000001#32 = .legal .init1024 := by decide
theorem test_decode_encb : decode 0b00000000000000000000000000000010#32 = .legal .encb := by decide
theorem test_decode_decb : decode 0b00000000000000000000000000010010#32 = .legal .decb := by decide
theorem test_decode_startEcb : decode 0b00000000000000000000000000000011#32 = .legal .startEcb := by decide
theorem test_decode_startCbc : decode 0b00000000000000000000000000100011#32 = .legal .startCbc := by decide
theorem test_decode_startCfb : decode 0b00000000000000000000000001000011#32 = .legal .startCfb := by decide
theorem test_decode_startOfb : decode 0b00000000000000000000000001100011#32 = .legal .startOfb := by decide
theorem test_decode_startCtr : decode 0b00000000000000000000000010000011#32 = .legal .startCtr := by decide
theorem test_decode_xformE : decode 0b00000000000000000000000000000100#32 = .legal .xformE := by decide
theorem test_decode_xformD : decode 0b00000000000000000000000000010100#32 = .legal .xformD := by decide
theorem test_decode_dispose : decode 0b00000000000000000000000000000101#32 = .legal .dispose := by decide

/-- R98, R99 and their examples: reserved and illegal words. -/
theorem test_decode_no_command :
    decode 0x00000301 = .reservedInit ∧ decode 0x000000A3 = .reservedStart ∧ decode 0x000000C3 = .reservedStart ∧
    decode 0x000000E3 = .reservedStart ∧ decode 0x00000000 = .illegal ∧ decode 0x00000011 = .illegal ∧
    decode 0x00000025 = .illegal ∧ decode 0x00000104 = .illegal ∧ decode 0x000001A3 = .illegal ∧
    decode 0x00000006 = .illegal ∧ decode 0x00000401 = .illegal ∧ decode 0xFFFFFFFF = .illegal := by decide

/-- The host's question on a table word: the decoder answers, and a number of more than 32 bits is no word. -/
theorem test_decodeTableWord :
    decodeTableWord 32 0x83 = some .startCtr ∧ decodeTableWord 32 0xA3 = none ∧ decodeTableWord 40 0x100000001 = none := by
  decide

/-- A word placed by `withFetchWord` is the command the very next step runs. -/
theorem test_withFetchWord_runs :
    leads (step (State.reset.withFetchWord 32 0x5)) (fun t => t.phase == .disposed && t.inputs == []) = true := by decide

/-! One step of each command -/

/-- T8 (its key) with the tweak of T9: byte order, and the parity word. -/
theorem test_init256 :
    leads (exec .init256 (keyed (1 :: List.replicate 31 0)))
      (fun t => t.ks == #v[1, 0, 0, 0, 0x1BD11BDAA9FC1A23, 0, 0, 0, 0, 0, 0, 0, 0, 0, 0, 0, 0] &&
        t.ts == #v[0x798A9BACBDCEDFF0, 0xF102132435465768, 0x8888888888888898]) = true := by decide +kernel

/-- T9: the words 0, 7 and the parity word. -/
theorem test_init512 :
    leads (exec .init512 (keyed ((List.range 64).map fun i => BitVec.ofNat 8 (7 * i * i + 3 * i + 0xA5))))
      (fun t => t.ks[0] == 0x11B36321EDC7AFA5 && t.ks[7] == 0xE97B1BC9854F270D && t.ks[8] == 0x1B111B9AE9BCDA62
        && t.ks[9] == 0 && t.var == .t512) = true := by decide +kernel

/-- T9b: the words 0, 13 and the schedule's structure (R47). -/
theorem test_init1024 :
    leads (exec .init1024 (keyed ((List.range 128).map fun i => BitVec.ofNat 8 (13 * i + 1))))
      (fun t => t.ks[0] == 0x5C4F4235281B0E01 && t.ks[13] == 0xA4978A7D70635649 && t.var == .t1024
        && t.phase == .keyed && schedulesOk t) = true := by decide +kernel

/-- T65: a key length of 31. -/
theorem test_init256_size :
    leads (exec .init256 { State.reset with keyLen := 31, twkLen := 16 })
      (fun t => statusWord t == 0x00000100 && t.errStat == 0x2 && t.errInfo == 0x00012001 && t.outLen == 0) = true := by decide

/-- T2: Threefish-256, pattern inputs. -/
theorem test_encb :
    leads (exec .encb (loaded ((List.range 32).map fun k => BitVec.ofNat 8 (255 - k))))
      (fun t => t.mem.readBytes 0x2000 32 == [0xE0, 0xD0, 0x91, 0xFF, 0x0E, 0xEA, 0x8F, 0xDF, 0xC9, 0x81, 0x92, 0xE6, 0x2E, 0xD8, 0x0A, 0xD5, 0x9D, 0x86,
    0x5D, 0x08, 0x58, 0x8D, 0xF4, 0x76, 0x65, 0x70, 0x56, 0xB5, 0x95, 0x5E, 0x97, 0xDF] && t.outLen == 32) = true := by
  decide +kernel

/-- T2, the other way. -/
theorem test_decb :
    leads (exec .decb (loaded [0xE0, 0xD0, 0x91, 0xFF, 0x0E, 0xEA, 0x8F, 0xDF, 0xC9, 0x81, 0x92, 0xE6, 0x2E, 0xD8, 0x0A, 0xD5, 0x9D, 0x86,
    0x5D, 0x08, 0x58, 0x8D, 0xF4, 0x76, 0x65, 0x70, 0x56, 0xB5, 0x95, 0x5E, 0x97, 0xDF]))
      (fun t => t.mem.readBytes 0x2000 32 == (List.range 32).map (fun k => BitVec.ofNat 8 (255 - k))) = true := by
  decide +kernel

/-- T71 and T72: DATA_LEN 0 and 64. -/
theorem test_block_sizes :
    leads (exec .encb engine) (fun t => statusWord t == 0x00000101 && t.errInfo == 0x00022004) = true ∧
    leads (exec .decb { engine with dataLen := 64 }) (fun t => statusWord t == 0x00000101 && t.errInfo == 0x00122004) = true := by
  decide

/-- START with the IV of T20 to T24: the register, the mode and STATUS. -/
theorem test_start :
    (∀ p ∈ [(Mode.ecb, 0x02), (.cbc, 0x12), (.cfb, 0x22), (.ofb, 0x32), (.ctr, 0x42)],
      leads (exec (Spec.start p.1) { engine with ivLen := 32, mem := Memory.writeBytes [] 0x0200 (pattern 0xA0 32) })
        (fun t => t.reg == (stream .ecb []).reg && statusWord t == BitVec.ofNat 32 p.2) = true) := by decide +kernel

/-- T73 and T74: IV_LEN 16 and 64. -/
theorem test_start_sizes :
    leads (exec .startCtr { engine with ivLen := 16 }) (fun t => t.errInfo == 0x00832003 && t.phase == .keyed) = true ∧
    leads (exec .startEcb { engine with ivLen := 64 }) (fun t => t.errInfo == 0x00032003 && t.errStat == 0x2) = true := by decide

/-- The first block of T20 (ECB) and of T21 (CBC), XFORM.E over P = 00 01 … -/
theorem test_xformE_feedback :
    leads (exec .xformE (stream .ecb (pattern 0 32))) (fun t => t.mem.readBytes 0x2000 32 ==
    [0x6C, 0x36, 0xE9, 0x4C, 0x0A, 0x7F, 0x16, 0xE6, 0xD4, 0xF8, 0xCB, 0x5F, 0xAE, 0xBB, 0x97, 0x6B, 0xCC, 0x04,
    0x95, 0xDE, 0x16, 0x73, 0x30, 0xEA, 0x77, 0x05, 0x1F, 0x7A, 0xB8, 0xFD, 0xD7, 0x67]) = true ∧
    leads (exec .xformE (stream .cbc (pattern 0 32))) (fun t => t.mem.readBytes 0x2000 32 ==
    [0x80, 0x2E, 0x26, 0xE9, 0x1F, 0x7F, 0x50, 0xFF, 0xDB, 0x5E, 0x42, 0x85, 0xCF, 0xBD, 0xD6, 0x27, 0xA1, 0x9A,
    0xA4, 0xB2, 0x80, 0x3A, 0xF4, 0x45, 0x7F, 0xE9, 0xC7, 0xBC, 0xAA, 0xF4, 0x8A, 0xAC] && t.reg != (stream .cbc []).reg) = true := by
  decide +kernel

/-- The first block of T24 (CTR), which OFB and CFB share; and the register after it, IV + 1. -/
theorem test_xformE_keystream :
    leads (exec .xformE (stream .ctr (pattern 0 32))) (fun t => t.mem.readBytes 0x2000 32 ==
    [0x13, 0xA9, 0xC4, 0x0E, 0x26, 0xC7, 0x92, 0xE7, 0x9C, 0x29, 0x54, 0x40, 0x6B, 0xF9, 0x05, 0x37, 0xC2, 0x9E,
    0xA8, 0x93, 0xF5, 0x69, 0x87, 0x0E, 0x63, 0xC0, 0xE3, 0xEB, 0x2B, 0xE6, 0x59, 0x04] && t.reg[3] == 0xC0BEBDBCBBBAB9B8) = true := by
  decide +kernel

/-- The first block of T21, XFORM.D: the plaintext, and the ciphertext block as the register. -/
theorem test_xformD :
    leads (exec .xformD (stream .cbc [0x80, 0x2E, 0x26, 0xE9, 0x1F, 0x7F, 0x50, 0xFF, 0xDB, 0x5E, 0x42, 0x85, 0xCF, 0xBD, 0xD6, 0x27, 0xA1, 0x9A,
    0xA4, 0xB2, 0x80, 0x3A, 0xF4, 0x45, 0x7F, 0xE9, 0xC7, 0xBC, 0xAA, 0xF4, 0x8A, 0xAC]))
      (fun t => t.mem.readBytes 0x2000 32 == pattern 0 32 && t.reg[0] == 0xFF507F1FE9262E80) = true := by decide +kernel

/-- T78 and T79: DATA_LEN 33 and, above DBUF_BYTES, 1056. -/
theorem test_xform_sizes :
    leads (exec .xformE { stream .cbc [] with dataLen := 33 })
      (fun t => statusWord t == 0x00000112 && t.errInfo == 0x00042004) = true ∧
    leads (exec .xformD { stream .cbc [] with dataLen := 1056 })
      (fun t => statusWord t == 0x00000112 && t.errInfo == 0x00142004) = true := by decide +kernel

/-- R240: STATUS is 3, every byte is gone, ERRSTAT stays. -/
theorem test_dispose :
    leads (exec .dispose { stream .ofb (pattern 1 32) with errStat := 0x20 })
      (fun t => statusWord t == 0x3 && secretsScrubbed t && t.errStat == 0x20) = true := by decide +kernel

/-- R188: the counter wraps, and each order has its own least significant end. -/
theorem test_counter :
    incCounter .beFull [0xFF, 0xFF] = [0, 0] ∧ incCounter .beFull [0, 0xFF] = [1, 0] ∧
    incCounter .leFull [0xFF, 0] = [0, 1] := by decide

/-- T90, T94, T94a, T95 and T99: padding and unpadding. -/
theorem test_padding :
    pad .pkcs7 8 (fun _ => 0) [0xAA, 0xAA, 0xAA, 0xAA, 0xAA] = .ok [0xAA, 0xAA, 0xAA, 0xAA, 0xAA, 3, 3, 3] ∧
    unpad .pkcs7 8 [1, 2, 3, 4, 5, 6, 7, 0] = .error .invalidPadding ∧
    unpad .pkcs7 8 [1, 2, 3, 4, 5, 6, 7, 9] = .error .invalidPadding ∧
    unpad .pkcs7 8 [0xAA, 0xAA, 0xAA, 0xAA, 0xAA, 3, 2, 3] = .error .invalidPadding ∧
    unpad .ansiX923 8 [0xAA, 0xAA, 0xAA, 0xAA, 0xAA, 0, 1, 3] = .error .invalidPadding := by decide

/-! Witnesses: for each statement with hypotheses, inputs that meet them all -/

theorem test_witness_StepRunsDecodedCommand :
    (facing (.csrWrite 0x004 0x12)).inputs = .csrWrite 0x004 0x12 :: [] ∧ decode 0x12 = .legal .decb := by decide

/-- The reserved words in each phase: one state for each clause. -/
theorem test_witness_ReservedWordsReportUnsupportedConfiguration :
    (facing (.csrWrite 0x004 0x301)).inputs = [.csrWrite 0x004 0x301] ∧
    ((facing (.csrWrite 0x004 0xA3)).inputs = [.csrWrite 0x004 0xA3] ∧ (facing (.csrWrite 0x004 0xA3)).phase = .created) ∧
    (∃ s : State, s.inputs = [.csrWrite 0x004 0xC3] ∧ s.phase = .disposed) ∧
    (∃ s : State, s.inputs = [.csrWrite 0x004 0xE3] ∧ Spec.engine s) ∧
    ∃ s : State, s.inputs = [.csrWrite 0x004 0xA3] ∧ s.phase = .stream ∧ Spec.engine s :=
  ⟨rfl, ⟨rfl, rfl⟩, ⟨{ facing (.csrWrite 0x004 0xC3) with phase := .disposed }, rfl, rfl⟩,
    ⟨{ engine with inputs := [.csrWrite 0x004 0xE3] }, rfl, .inl rfl⟩,
    { stream .cbc [] with inputs := [.csrWrite 0x004 0xA3] }, rfl, rfl, .inr rfl⟩

theorem test_witness_IllegalWordsReportIllegalCommand : ∀ w ∈ ([0, 0x400, 0xFFFFFFFF] : List Reg32),
    (facing (.csrWrite 0x004 w)).inputs = [.csrWrite 0x004 w] ∧ (∀ i, w ≠ Spec.wordOf i) ∧ w ≠ 0x00000301 ∧
    w ≠ 0x000000A3 ∧ w ≠ 0x000000C3 ∧ w ≠ 0x000000E3 := by
  intro w hw
  simp only [List.mem_cons, List.not_mem_nil, or_false] at hw
  rcases hw with rfl | rfl | rfl <;> exact ⟨rfl, fun i => by cases i <;> decide, by decide⟩

theorem test_witness_TransactionRunsOrIsOutsideInterface :
    (∀ e ∈ [Event.csrRead 0, .csrRead 0x0FC, .csrWrite 0x0FC 1, .bufRead 0x100, .bufWrite 0x2FFF 1, .reset],
      (facing e).inputs = [e] ∧ Spec.inInterface e) ∧
    ∀ e ∈ [Event.csrRead 2, .csrRead 0x100, .bufRead 0x0FF, .bufWrite 0x3000 1, .otherWidth 0 8],
      (facing e).inputs = [e] ∧ ¬ Spec.inInterface e := by
  simp [facing, Spec.inInterface]

theorem test_witness_StepWaitsForTheHost : State.reset.inputs = [] := rfl

theorem test_witness_RegisterReadsReturnTheTable :
    (∀ a ∈ [0x000, 0x004, 0x008, 0x028, 0x02C, 0x0FC], (facing (.csrRead a)).inputs = [.csrRead a]) ∧
    (0x000, 0x54464531) ∈ Spec.registers (facing (.csrRead 0)) ∧ (0x028, 0) ∈ Spec.registers (facing (.csrRead 0x028)) ∧
    (0x02C ≤ 0x0FC ∧ 0x0FC ≤ 0x0FC ∧ 0x0FC % 4 = 0) ∧
    ∀ p ∈ Spec.registers State.reset, p.1 < 0x02C := by decide

theorem test_witness_ErrstatWriteClearsTheBitsWritten :
    (facing (.csrWrite 0x00C 0x7E)).inputs = .csrWrite 0x00C 0x7E :: [] := rfl

theorem test_witness_RegisterWritesStoreOrAreIgnored :
    ∀ a ∈ [0x010, 0x014, 0x018, 0x01C, 0x000, 0x008, 0x020, 0x0FC],
      (facing (.csrWrite a 0xFFFFFFFF)).inputs = .csrWrite a 0xFFFFFFFF :: [] := by decide

theorem test_witness_BufferWritesStoreOneByte :
    (∀ a ∈ [0x100, 0x17F, 0x180, 0x18F, 0x190, 0x200, 0x27F, 0x280, 0x1000, 0x13FF, 0x1400, 0x2000, 0x2FFF],
      (facing (.bufWrite a 1)).mem.wf = true ∧ (facing (.bufWrite a 1)).inputs = .bufWrite a 1 :: [] ∧ 0x100 ≤ a ∧ a ≤ 0x2FFF) ∧
    (∀ a ∈ [0x100, 0x17F, 0x180, 0x18F, 0x200, 0x27F, 0x1000, 0x13FF], Spec.writable (facing (.bufWrite a 1)) a) ∧
    ∀ a ∈ [0x190, 0x1FF, 0x280, 0x0FFF, 0x1400, 0x2000, 0x2FFF], ¬ Spec.writable (facing (.bufWrite a 1)) a := by
  refine ⟨by decide, ?_, ?_⟩ <;>
    simp [Spec.writable, Spec.dbuf, facing, State.reset, State.resetWith, Config.default]

theorem test_witness_BufferReadsShowDoutOnly :
    (∀ a ∈ [0x100, 0x1FFF, 0x2000, 0x23FF, 0x2400, 0x2FFF],
      (facing (.bufRead a)).inputs = .bufRead a :: [] ∧ 0x100 ≤ a ∧ a ≤ 0x2FFF) ∧
    (∀ a ∈ [0x2000, 0x23FF], Spec.inDout (facing (.bufRead a)) a) ∧
    ∀ a ∈ [0x100, 0x1FFF, 0x2400, 0x2FFF], ¬ Spec.inDout (facing (.bufRead a)) a := by
  refine ⟨by decide, ?_, ?_⟩ <;>
    simp [Spec.inDout, Spec.dbuf, facing, State.reset, State.resetWith, Config.default]

/-- Two states that differ in KS, REG and the first byte of KEYBUF. -/
theorem test_witness_HostReadsHideKeyMaterial :
    ∃ s t s' t' : State, ∃ e : Event, ∃ rs rt : List Event, s.inputs = e :: rs ∧ t.inputs = e :: rt ∧
      ((∃ a, e = .csrRead a) ∨ ∃ a, e = .bufRead a) ∧ Spec.looksAlike s t ∧ step s = .next s' ∧ step t = .next t' ∧
      s.ks ≠ t.ks ∧ s.mem ≠ t.mem := by
  refine ⟨facing (.bufRead 0x100), { facing (.bufRead 0x100) with ks := Vector.replicate 17 1, mem := [(0x100, 7)] },
    _, _, .bufRead 0x100, [], [], rfl, rfl, .inr ⟨_, rfl⟩,
    ⟨rfl, rfl, rfl, rfl, rfl, rfl, rfl, rfl, rfl, rfl, rfl, rfl, fun a ha => ?_, rfl⟩, rfl, rfl, by decide, by decide⟩
  have h : 0x100 ≠ a := by have := ha.1; omega
  show Memory.read [] a = Memory.read [(0x100, 7)] a
  rw [Memory.read, Memory.read, if_neg h, Memory.read]

theorem test_witness_Init256BuildsTheSchedules :
    (keyed (pattern 16 32)).keyLen = 32 ∧ (keyed (pattern 16 32)).twkLen = 16 := by simp [keyed, pattern]
theorem test_witness_Init512BuildsTheSchedules :
    (keyed (pattern 16 64)).keyLen = 64 ∧ (keyed (pattern 16 64)).twkLen = 16 := by simp [keyed, pattern]
theorem test_witness_Init1024BuildsTheSchedules :
    (keyed (pattern 16 128)).keyLen = 128 ∧ (keyed (pattern 16 128)).twkLen = 16 := by simp [keyed, pattern]

theorem test_witness_InitReportsWrongLengths :
    ({ State.reset with keyLen := 31 } : State).keyLen.toNat ≠ Spec.bytes .t256 ∧
    ({ State.reset with keyLen := 129 } : State).keyLen.toNat ≠ Spec.bytes .t1024 ∧
    ({ State.reset with keyLen := 64, twkLen := 15 } : State).keyLen.toNat = Spec.bytes .t512 ∧
    ({ State.reset with keyLen := 64, twkLen := 15 } : State).twkLen.toNat ≠ 16 := by decide

theorem test_witness_SubkeyWordsFollowTheSchedule :
    0 < Spec.words .t256 - 3 ∧ 4 < Spec.words .t512 - 3 ∧ 12 < Spec.words .t1024 - 3 := by decide

theorem test_witness_InPlaceRoundsComputeEncryption : ∀ v, (List.replicate (Spec.words v) (1 : Word)).length = Spec.words v :=
  fun v => by cases v <;> rfl

theorem test_witness_DecryptionInvertsEncryption :
    (pattern 0 32).length = Spec.bytes engine.var ∧
    (({ engine with reg := Vector.replicate 16 1 } : State).ks = engine.ks ∧
      ({ engine with reg := Vector.replicate 16 1 } : State).ts = engine.ts ∧
      ({ engine with reg := Vector.replicate 16 1 } : State).var = engine.var) ∧
    ∃ t, exec (Spec.block .encrypt) engine = .next t := ⟨by decide, ⟨rfl, rfl, rfl⟩, _, rfl⟩

theorem test_witness_BlockCommandsWriteOneBlock :
    (loaded (pattern 0 32)).mem.wf = true ∧ Spec.engine (loaded (pattern 0 32)) ∧
    (loaded (pattern 0 32)).dataLen.toNat = Spec.bytes (loaded (pattern 0 32)).var ∧
    Spec.engine (stream .cbc (pattern 0 32)) := ⟨by decide, .inl rfl, by decide, .inr rfl⟩

theorem test_witness_BlockCommandsReportErrors :
    ({ engine with phase := .disposed } : State).phase = .disposed ∧ State.reset.phase = .created ∧ Spec.engine engine ∧
    ({ engine with dataLen := 33 } : State).dataLen.toNat ≠ Spec.bytes engine.var := ⟨rfl, rfl, .inl rfl, by decide⟩

theorem test_witness_StartLoadsTheRegister :
    Spec.engine ({ engine with ivLen := 32 } : State) ∧
    ({ engine with ivLen := 32 } : State).ivLen.toNat = Spec.bytes ({ engine with ivLen := 32 } : State).var :=
  ⟨.inl rfl, by decide⟩

theorem test_witness_StartReportsErrors :
    ({ engine with phase := .disposed } : State).phase = .disposed ∧ State.reset.phase = .created ∧ Spec.engine engine ∧
    ({ engine with ivLen := 31 } : State).ivLen.toNat ≠ Spec.bytes engine.var := ⟨rfl, rfl, .inl rfl, by decide⟩

/-- The sizes next to the legal ones: 0, a block and one byte, one block too many for DIN; and the legal ends 32 and 1024. -/
theorem test_witness_XformReportsErrors :
    ({ engine with phase := .disposed } : State).phase = .disposed ∧ State.reset.phase = .created ∧ engine.phase = .keyed ∧
    (∀ n ∈ [0, 33, 1056], ({ stream .cbc [] with dataLen := BitVec.ofNat 32 n } : State).phase = .stream ∧
      ¬ Spec.xformSize { stream .cbc [] with dataLen := BitVec.ofNat 32 n }) := by
  refine ⟨rfl, rfl, rfl, fun n hn => ⟨rfl, ?_⟩⟩
  simp only [List.mem_cons, List.not_mem_nil, or_false] at hn
  rcases hn with rfl | rfl | rfl <;>
    simp [Spec.xformSize, Spec.dbuf, Spec.bytes, stream, loaded, engine, State.reset, State.resetWith, Config.default]

/-- A stream over an empty memory, with `n` bytes declared. -/
def zeros (n : Nat) : State := { stream .cbc [] with mem := [], dataLen := BitVec.ofNat 32 n }

theorem zeros_size {n : Nat} (h : n = 32 ∨ n = 64 ∨ n = 1024) : Spec.xformSize (zeros n) := by
  rcases h with rfl | rfl | rfl <;>
    simp [Spec.xformSize, Spec.dbuf, Spec.bytes, zeros, stream, loaded, engine, State.reset, State.resetWith, Config.default]

theorem test_witness_XformChainsTheModeRule :
    (zeros 32).mem.wf = true ∧ (zeros 32).phase = .stream ∧ Spec.xformSize (zeros 32) ∧ Spec.xformSize (zeros 1024) :=
  ⟨rfl, rfl, zeros_size (.inl rfl), zeros_size (.inr (.inr rfl))⟩

/-- Two blocks, and each of them alone. -/
theorem test_witness_XformSplitsAtBlockBoundaries :
    ∃ (s a b t ta tb : State) (dir : Dir) (n1 n2 : Nat), s.mem.wf = true ∧ s.phase = .stream ∧
      0 < n1 ∧ 0 < n2 ∧ s.dataLen.toNat = (n1 + n2) * Spec.bytes s.var ∧ s.dataLen.toNat ≤ Spec.dbuf s ∧
      a = { s with dataLen := BitVec.ofNat 32 (n1 * Spec.bytes s.var) } ∧
      exec (Spec.xform dir) s = .next t ∧ exec (Spec.xform dir) a = .next ta ∧
      b = { ta with dataLen := BitVec.ofNat 32 (n2 * Spec.bytes s.var), mem := b.mem } ∧ b.mem.wf = true ∧
      (∀ k, k < n2 * Spec.bytes s.var → b.mem.read (0x1000 + k) = s.mem.read (0x1000 + n1 * Spec.bytes s.var + k)) ∧
      exec (Spec.xform dir) b = .next tb := by
  obtain ⟨t, ht, -⟩ := exec_effect (Spec.xform .encrypt) (zeros 64)
  obtain ⟨ta, hta, -⟩ := exec_effect (Spec.xform .encrypt) { zeros 64 with dataLen := 32 }
  obtain ⟨tb, htb, -⟩ := exec_effect (Spec.xform .encrypt) { ta with dataLen := 32, mem := [] }
  exact ⟨zeros 64, _, { ta with dataLen := 32, mem := [] }, t, ta, tb, .encrypt, 1, 1, rfl, rfl, by decide, by decide,
    by decide, (zeros_size (.inr (.inl rfl))).2.2, rfl, ht, hta, rfl, rfl, fun _ _ => rfl, htb⟩

/-- One block of zeros through CBC and back. -/
theorem test_witness_StreamRoundTripReturnsThePlaintext :
    ∃ (s s1 s2 c c1 c2 : State) (m : Mode), s.mem.wf = true ∧ Spec.engine s ∧ s.ivLen.toNat = Spec.bytes s.var ∧
      Spec.xformSize s ∧ exec (Spec.start m) s = .next s1 ∧ exec .xformE s1 = .next s2 ∧
      c = { s2 with mem := c.mem } ∧ c.mem.wf = true ∧
      (∀ k, k < s.dataLen.toNat → c.mem.read (0x1000 + k) = s2.mem.read (0x2000 + k)) ∧
      (∀ k, k < Spec.bytes s.var → c.mem.read (0x0200 + k) = s.mem.read (0x0200 + k)) ∧
      exec (Spec.start m) c = .next c1 ∧ exec .xformD c1 = .next c2 := by
  obtain ⟨s1, h1, -⟩ := exec_effect (Spec.start .cbc) { zeros 32 with ivLen := 32 }
  obtain ⟨s2, h2, -⟩ := exec_effect .xformE s1
  obtain ⟨m, hm⟩ : ∃ m, m = Memory.writeBytes [] 0x1000 (s2.mem.readBytes 0x2000 32) := ⟨_, rfl⟩
  have hw : m.wf = true := hm ▸ Memory.wf_writeBytes Memory.wf_nil 0x1000 _
  have hd : ∀ k, k < 32 → m.read (0x1000 + k) = s2.mem.read (0x2000 + k) := fun k hk => by
    rw [hm, Memory.read_writeBytes_inside Memory.wf_nil _ _ (by simpa using hk), Memory.readBytes_getElem]
  have hi : ∀ k, k < 32 → m.read (0x0200 + k) = 0 := fun k hk => by
    rw [hm, Memory.read_writeBytes_outside _ _ (by omega), Memory.read_nil]
  clear hm
  obtain ⟨c1, h3, -⟩ := exec_effect (Spec.start .cbc) { s2 with mem := m }
  obtain ⟨c2, h4, -⟩ := exec_effect .xformD c1
  refine ⟨{ zeros 32 with ivLen := 32 }, s1, s2, { s2 with mem := m },
    c1, c2, .cbc, rfl, .inr rfl, by decide, zeros_size (.inl rfl), h1, h2, rfl, hw,
    fun k hk => hd k hk, fun k hk => hi k hk, h3, h4⟩

theorem test_witness_KeystreamModesIgnoreDirectionAndData :
    ∃ s z t tz : State, s.mem.wf = true ∧ z.mem.wf = true ∧ s.phase = .stream ∧ (s.mode = .ofb ∨ s.mode = .ctr) ∧
      Spec.xformSize s ∧ z = { s with mem := z.mem } ∧
      (∀ k, k < s.dataLen.toNat → z.mem.read (0x1000 + k) = 0) ∧ s.mem ≠ z.mem ∧
      exec .xformE s = .next t ∧ exec .xformE z = .next tz := by
  obtain ⟨t, ht, -⟩ := exec_effect .xformE { zeros 32 with mode := .ctr, mem := [(0x1000, 5)] }
  obtain ⟨tz, htz, -⟩ := exec_effect .xformE { zeros 32 with mode := .ctr }
  exact ⟨{ zeros 32 with mode := .ctr, mem := [(0x1000, 5)] }, { zeros 32 with mode := .ctr }, t, tz, rfl, rfl, rfl, .inr rfl,
    zeros_size (.inl rfl), rfl, fun _ _ => rfl, List.cons_ne_nil _ _, ht, htz⟩

/-- An error of the phase table, a completed command, and a command that fails in a phase that allows it. -/
theorem test_witness_PhaseTableHolds :
    (∃ t, exec .encb State.reset = .next t ∧ Spec.phaseError .encb State.reset.phase = some .sequence) ∧
    (∃ t, exec .dispose State.reset = .next t ∧ t.lastErr = none) ∧
    ∃ t, exec .encb engine = .next t ∧ t.lastErr ≠ none := by
  refine ⟨⟨_, rfl, rfl⟩, ⟨_, rfl, rfl⟩, ⟨raiseSize .data 32 (encode .encb) engine, rfl, by decide⟩⟩

theorem test_witness_ResetEventRestoresTheResetState : ({ engine with inputs := [.reset] } : State).inputs = .reset :: [] := rfl

/-- A command that fails by its phase, and one that fails by a size. -/
theorem test_witness_FailedCommandChangesOnlyErrorRegisters :
    (∃ t, (facing (.csrWrite 0x004 0x2)).inputs = .csrWrite 0x004 0x2 :: [] ∧ step (facing (.csrWrite 0x004 0x2)) = .next t) ∧
    (leads (step { engine with ivLen := 31, inputs := [.csrWrite 0x004 0x23] }) fun t =>
      t.lastErr == some .size && t.errInfo == 0x00232003) = true := ⟨⟨_, rfl, rfl⟩, by decide⟩

theorem test_witness_ErrorRegistersDoNotInfluenceCommands : ∃ t, exec .encb engine = .next t := ⟨_, rfl⟩

/-- A command of each kind: one that writes DOUT and completes, one that fails, one that never writes DOUT. -/
theorem test_witness_OutLenCountsTheBytesWritten :
    (∃ t, exec .decb (loaded (pattern 0 32)) = .next t ∧ t.lastErr = none) ∧
    (∃ t, exec .encb engine = .next t ∧ t.lastErr ≠ none) ∧ ∃ t, exec .dispose engine = .next t :=
  ⟨⟨runBlock (decryptBlock (loaded (pattern 0 32))) (loaded (pattern 0 32)), rfl, rfl⟩,
    ⟨raiseSize .data 32 (encode .encb) engine, rfl, by decide⟩, _, rfl⟩

/-- INIT, DISPOSE and reset each change KS somewhere. -/
theorem test_witness_SchedulesChangeOnlyByInitDisposeReset :
    (leads (step { keyed (pattern 16 32) with inputs := [.csrWrite 0x004 0x1] }) fun t => t.ks != (keyed []).ks) = true ∧
    (leads (step { engine with inputs := [.csrWrite 0x004 0x5] }) fun t => t.ks != engine.ks) = true ∧
    (leads (step { engine with inputs := [.reset] }) fun t => t.ts != engine.ts) = true := by decide +kernel

/-- START and reset each change REG somewhere. -/
theorem test_witness_RegisterChangesOnlyByStreamCommands :
    (leads (step { engine with ivLen := 32, mem := [(0x0200, 1)], inputs := [.csrWrite 0x004 0x23] })
      fun t => t.reg != engine.reg) = true ∧
    (leads (step { stream .cbc [] with inputs := [.reset] }) fun t => t.reg != (stream .cbc []).reg) = true := by decide +kernel

/-- A host write, ENCB, DISPOSE and reset each change a byte somewhere. -/
theorem test_witness_MemoryChangesOnlyWhereTheRulesSay :
    (leads (step (facing (.bufWrite 0x18F 7))) fun t => t.mem.read 0x18F != 0) = true ∧
    (leads (step { loaded (pattern 0 32) with inputs := [.csrWrite 0x004 0x2] }) fun t => t.mem.read 0x201F != 0) = true ∧
    (leads (step { loaded (pattern 0 32) with inputs := [.csrWrite 0x004 0x5] }) fun t => t.mem.read 0x101F != 0x1F) = true ∧
    (leads (step { loaded (pattern 0 32) with inputs := [.reset] }) fun t => t.mem.read 0x101F != 0x1F) = true := by
  decide +kernel

theorem test_witness_StepKeepsTheInvariant :
    ({ engine with inputs := [.csrWrite 0x004 0x5] } : State).inv = true ∧
    ∃ t, step { engine with inputs := [.csrWrite 0x004 0x5] } = .next t := ⟨by decide +kernel, _, rfl⟩

theorem test_witness_UnpadUndoesPad : ∀ p ∈ [Padding.pkcs7, .ansiX923, .iso10126], ∀ b ∈ [1, 255],
    (p = .pkcs7 ∨ p = .ansiX923 ∨ p = .iso10126) ∧ 1 ≤ b ∧ b ≤ 255 := by decide

theorem test_witness_Pkcs7UnpadsExactlyUniformPads :
    unpad .pkcs7 255 [9, 1] = .ok [9] ∧ (255 : Nat) ≤ 255 ∧ unpad .pkcs7 8 [] = .error .invalidPadding := by decide

/-- A stream object of Threefish-256. -/
def object (m : Mode) (p : Padding) (dir : Dir) (residual : List Byte) (life : Life) : CipherTransform :=
  { variant := .t256, mode := m, padding := p, dir := dir, residual := residual, life := life }

/-- A whole block is withheld when decrypting with PKCS7, and sent when encrypting; no input, and nothing is withheld. -/
theorem test_witness_StreamUpdateKeepsEveryByte :
    (∃ t', (object .cbc .pkcs7 .decrypt [] .initialized).update (pattern 0 32) = .ok ([], t') ∧
      0 < ([] ++ pattern 0 32).length ∧ ([] ++ pattern 0 32).length % Spec.bytes .t256 = 0 ∧
      t'.residual.length = Spec.bytes .t256) ∧
    (∃ t', (object .cbc .pkcs7 .encrypt [] .transforming).update (pattern 0 33) = .ok (pattern 0 32, t') ∧
      t'.residual = [32]) ∧
    ∃ t', (object .cbc .pkcs7 .decrypt [] .initialized).update [] = .ok ([], t') ∧ t'.residual = [] :=
  ⟨⟨_, rfl, by decide, by decide, by decide⟩, ⟨_, rfl, by decide⟩, _, rfl, rfl⟩

/-- One block, and as many as DIN holds. -/
theorem test_witness_PieceRunsInTheObjectsDirection : ∀ n ∈ [32, 1024],
    (stream .cbc []).mem.wf = true ∧ (stream .cbc []).phase = .stream ∧ 0 < (pattern 0 n).length ∧
    (pattern 0 n).length % Spec.bytes (stream .cbc []).var = 0 ∧ (pattern 0 n).length ≤ Spec.dbuf (stream .cbc []) := by
  intro n hn
  simp only [List.mem_cons, List.not_mem_nil, or_false] at hn
  refine ⟨rfl, rfl, ?_⟩
  rcases hn with rfl | rfl <;>
    simp [pattern, Spec.bytes, Spec.dbuf, stream, loaded, engine, State.reset, State.resetWith, Config.default]

/-- The first block of T21 (CBC) through the dialogue, in the object's direction: encrypting, and back. -/
theorem test_sendPiece :
    (((object .cbc .none .encrypt [] .transforming).sendPiece (pattern 0 32) (stream .cbc [])).2.toOption ==
    some [0x80, 0x2E, 0x26, 0xE9, 0x1F, 0x7F, 0x50, 0xFF, 0xDB, 0x5E, 0x42, 0x85, 0xCF, 0xBD, 0xD6, 0x27, 0xA1, 0x9A,
    0xA4, 0xB2, 0x80, 0x3A, 0xF4, 0x45, 0x7F, 0xE9, 0xC7, 0xBC, 0xAA, 0xF4, 0x8A, 0xAC]) = true ∧
    (((object .cbc .none .decrypt [] .transforming).sendPiece [0x80, 0x2E, 0x26, 0xE9, 0x1F, 0x7F, 0x50, 0xFF, 0xDB, 0x5E, 0x42, 0x85, 0xCF, 0xBD, 0xD6, 0x27, 0xA1, 0x9A,
    0xA4, 0xB2, 0x80, 0x3A, 0xF4, 0x45, 0x7F, 0xE9, 0xC7, 0xBC, 0xAA, 0xF4, 0x8A, 0xAC]
      (stream .cbc [])).2.toOption == some (pattern 0 32)) = true := by decide +kernel

theorem test_witness_StreamObjectsRefuseUseOutsideTheirLife :
    (object .cbc .pkcs7 .encrypt [] .created).life = .created ∧ (object .cbc .pkcs7 .encrypt [] .finalized).life = .finalized ∧
    (object .cbc .pkcs7 .encrypt [] .disposed).life = .disposed := ⟨rfl, rfl, rfl⟩

/-- A finalization that succeeds: without a final segment, and with the last block of T21's first one. -/
theorem test_witness_FinalizationRunsTheFinalSegment :
    (∃ u tail t', (object .cbc .none .encrypt [] .initialized).finalize (fun _ => 0) (stream .cbc []) = (u, .ok (tail, t'))) ∧
    (((object .cbc .none .decrypt [0x80, 0x2E, 0x26, 0xE9, 0x1F, 0x7F, 0x50, 0xFF, 0xDB, 0x5E, 0x42, 0x85, 0xCF, 0xBD, 0xD6, 0x27, 0xA1, 0x9A,
    0xA4, 0xB2, 0x80, 0x3A, 0xF4, 0x45, 0x7F, 0xE9, 0xC7, 0xBC, 0xAA, 0xF4, 0x8A, 0xAC] .transforming).finalize
      (fun _ => 0) (stream .cbc [])).2.toOption.map Prod.fst == some (pattern 0 32)) = true :=
  ⟨⟨_, _, _, rfl⟩, by decide +kernel⟩

/-- Each of the three generates, and GenerateTweak replaces a tweak that was set. -/
theorem test_witness_GeneratedBuffersHaveTheirLength :
    (∃ w', (Wrapper.create .t512 [] []).generateKey (fun _ => 0) = .ok w') ∧
    (∃ w', (Wrapper.create .t1024 [] []).generateIV (fun _ => 254) = .ok w') ∧
    ∃ w', ({ Wrapper.create .t256 [] [] with tweak := some (pattern 1 16) } : Wrapper).generateTweak (fun _ => 7) = .ok w' ∧
      w'.tweak ≠ some (pattern 1 16) := ⟨⟨_, rfl⟩, ⟨_, rfl⟩, _, rfl, by decide⟩

/-- A stream that has come to five bytes in its ResidualBuffer, with Padding None. -/
def fiveLeft : StreamRun where
  tfe := stream .cbc []
  object := object .cbc .none .encrypt (pattern 1 5) .transforming
  result := .ok []

/-- R226, R227: whether the host fails to finalize it or abandons it, it still holds its ResidualBuffer, and disposal overwrites
that. -/
theorem test_stream_exits :
    (∀ ending ∈ [Ending.finalize, .abandon], (fiveLeft.finish ending (fun _ => 0)).object.residual = pattern 1 5) ∧
    (fiveLeft.finish .finalize (fun _ => 0)).result = .error (.size 32) ∧
    (fiveLeft.object.dispose fiveLeft.tfe).2 = object .cbc .none .encrypt [0, 0, 0, 0, 0] .disposed := by decide

/-- R212: a size that is not legal, a change of size, and a use after disposal (log entry 14). -/
theorem test_wrapper :
    (Wrapper.create .t256 [] []).setTweakSize 64 = .error (.size 16) ∧
    (({ Wrapper.create .t256 [] [] with tweak := some (pattern 1 16) } : Wrapper).setTweakSize 128).toOption.map Wrapper.tweak
      = some none ∧
    (Wrapper.create .t256 [] []).dispose.setTweak (pattern 1 16) = .error .disposedState := by decide

end Sys2Proof.Tests
end

section
/-! The rotations of R12 are the library's rotation to the left, so amounts add; the two directions then undo each other. -/

namespace Sys2Proof.Machine

/-- The branch of `rotl` for an amount of 0 only avoids a shift by 64, whose result is 0. -/
theorem rotl_eq_rotateLeft (x : Word) (r : Nat) : rotl x r = x.rotateLeft r := by
  rw [rotl, BitVec.rotateLeft_def]
  split
  next h => simp [h, BitVec.ushiftRight_eq_zero]
  next => rfl

theorem rotl_of_mod_eq_zero (x : Word) {r : Nat} (h : r % 64 = 0) : rotl x r = x := if_pos h

/-- From the most significant bit down, bit n of `rotl x r` is bit (r + n) mod 64 of `x`. -/
theorem getMsbD_rotl (x : Word) (r n : Nat) :
    (rotl x r).getMsbD n = (decide (n < 64) && x.getMsbD ((r + n) % 64)) := by
  rw [rotl_eq_rotateLeft, BitVec.getMsbD_rotateLeft]

theorem rotl_rotl (x : Word) (r t : Nat) : rotl (rotl x r) t = rotl x (r + t) := by
  apply BitVec.eq_of_getMsbD_eq
  intro n hn
  have hmod : (t + n) % 64 < 64 := Nat.mod_lt _ (by decide)
  have hadd : (r + (t + n) % 64) % 64 = (r + t + n) % 64 := by rw [Nat.add_mod_mod, Nat.add_assoc]
  simp only [getMsbD_rotl, hn, hmod, hadd, decide_true, Bool.true_and]

/-- The amount by which `rotr` rotates to the left completes r to a whole turn. -/
theorem add_rotr_amount_mod (r : Nat) : (r + (64 - r % 64) % 64) % 64 = 0 := by omega

@[simp] theorem rotr_rotl (x : Word) (r : Nat) : rotr (rotl x r) r = x := by
  rw [rotr, rotl_rotl, rotl_of_mod_eq_zero _ (add_rotr_amount_mod r)]

@[simp] theorem rotl_rotr (x : Word) (r : Nat) : rotl (rotr x r) r = x := by
  rw [rotr, rotl_rotl, Nat.add_comm, rotl_of_mod_eq_zero _ (add_rotr_amount_mod r)]

/-- Settles O20: rotations to the left add their amounts, and the amounts of `rotl` and `rotr` make a whole turn. -/
theorem rotationsUndoEachOther : Obligations.RotationsUndoEachOther :=
  fun x r => ⟨rfl, rfl, rotr_rotl x r, rotl_rotr x r⟩

end Sys2Proof.Machine
end

section
/-! The table of phase transitions (R29) row by row, and the state after reset (R45). Every command ends in `raiseError`
or in `complete`, so a row of the table needs three facts only: which error a command reports, which phase check lets it
run, and which phase it completes in. -/

namespace Sys2Proof.Machine

/-- The row of the table of R29 for command `i`, as it bears on its next state `t`: the statement of O36 at one command. -/
def FollowsPhaseTable (i : Instr) (s t : State) : Prop :=
  (∀ c, Spec.phaseError i s.phase = some c → t.lastErr = some c) ∧
  (t.lastErr = none → Spec.phaseError i s.phase = none ∧ t.phase = Spec.phaseAfter i s.phase) ∧
  (t.lastErr ≠ none → t.phase = s.phase)

section
variable {i : Instr} {s : State}

/-- A failure leaves the phase; it must report the table's error where there is one. -/
theorem FollowsPhaseTable.ofRaiseError {c : Cause} (h : ∀ d, Spec.phaseError i s.phase = some d → c = d) (e k : Nat)
    (w : Reg32) : FollowsPhaseTable i s (raiseError c e k w s) :=
  ⟨fun d hd => congrArg some (h d hd), nofun, fun _ => rfl⟩

theorem FollowsPhaseTable.ofRaiseCause {c : Cause} (h : Spec.phaseError i s.phase = some c) (w : Reg32) :
    FollowsPhaseTable i s (raiseCause c w s) :=
  .ofRaiseError (fun _ hd => Option.some.inj (h.symm.trans hd)) 0 0 w

/-- A size is checked only where the table has no error. -/
theorem FollowsPhaseTable.ofRaiseSize (h : Spec.phaseError i s.phase = none) (l : LengthName) (e : Nat) (w : Reg32) :
    FollowsPhaseTable i s (raiseSize l e w s) :=
  .ofRaiseError (fun _ hd => absurd (h.symm.trans hd) nofun) e (whatCode l) w

theorem FollowsPhaseTable.ofComplete {u : State} (h : Spec.phaseError i s.phase = none)
    (hu : u.phase = Spec.phaseAfter i s.phase) (x : Reg32) : FollowsPhaseTable i s (complete x u) :=
  ⟨fun _ hd => absurd (h.symm.trans hd) nofun, fun _ => ⟨h, hu⟩, fun hn => absurd rfl hn⟩

end

/-! The model's phase checks are the table's errors, and the phase after each kind of command. -/

@[simp] theorem phaseError_init (v : Variant) (p : Phase) : Spec.phaseError (Spec.init v) p = none := by
  cases v <;> rfl

@[simp] theorem phaseError_block (dir : Dir) (p : Phase) : Spec.phaseError (Spec.block dir) p = needsEngine p := by
  cases dir <;> cases p <;> rfl

@[simp] theorem phaseError_start (m : Mode) (p : Phase) : Spec.phaseError (Spec.start m) p = needsEngine p := by
  cases m <;> cases p <;> rfl

@[simp] theorem phaseError_xform (dir : Dir) (p : Phase) : Spec.phaseError (Spec.xform dir) p = needsStream p := by
  cases dir <;> cases p <;> rfl

@[simp] theorem phaseAfter_init (v : Variant) (p : Phase) : Spec.phaseAfter (Spec.init v) p = .keyed := by
  cases v <;> rfl

@[simp] theorem phaseAfter_block (dir : Dir) (p : Phase) : Spec.phaseAfter (Spec.block dir) p = p := by
  cases dir <;> rfl

@[simp] theorem phaseAfter_start (m : Mode) (p : Phase) : Spec.phaseAfter (Spec.start m) p = .stream := by
  cases m <;> rfl

@[simp] theorem phaseAfter_xform (dir : Dir) (p : Phase) : Spec.phaseAfter (Spec.xform dir) p = .stream := by
  cases dir <;> rfl

/-- An engine exists in KEYED and STREAM (R28). -/
theorem needsEngine_eq_none {p : Phase} (h : p = .keyed ∨ p = .stream) : needsEngine p = none := by
  obtain rfl | rfl := h <;> rfl

theorem needsStream_eq_sequence {p : Phase} (h : p = .created ∨ p = .keyed) : needsStream p = some .sequence := by
  obtain rfl | rfl := h <;> rfl

@[simp] theorem xformBlocks_phase (dir : Dir) (n : Nat) (s : State) : (xformBlocks dir n s).phase = s.phase := by
  rw [xformBlocks_eq]

/-! The rows, one for each kind of command. -/

theorem initEngine_followsPhaseTable (v : Variant) (w : Reg32) (s : State) :
    FollowsPhaseTable (Spec.init v) s (initEngine v w s) := by
  obtain ⟨-, h⟩ | ⟨-, -, h⟩ | ⟨-, -, h⟩ := initEngine_cases v w s <;> rw [h]
  · exact .ofRaiseSize (phaseError_init v _) ..
  · exact .ofRaiseSize (phaseError_init v _) ..
  · exact .ofComplete (phaseError_init v _) (phaseAfter_init v _).symm 0

theorem blockCommand_followsPhaseTable (dir : Dir) (f : List Byte → List Byte) (w : Reg32) (s : State) :
    FollowsPhaseTable (Spec.block dir) s (blockCommand f w s) := by
  obtain ⟨hp, h⟩ | ⟨hp, h⟩ | ⟨hp, -, h⟩ | ⟨hp, -, h⟩ := blockCommand_cases f w s <;> rw [h]
  · exact .ofRaiseCause (by simp [hp, needsEngine]) w
  · exact .ofRaiseCause (by simp [hp, needsEngine]) w
  · exact .ofRaiseSize (by simp [needsEngine_eq_none hp]) ..
  · exact .ofComplete (by simp [needsEngine_eq_none hp]) (by simp) _

theorem startStream_followsPhaseTable (m : Mode) (w : Reg32) (s : State) :
    FollowsPhaseTable (Spec.start m) s (startStream m w s) := by
  obtain ⟨hp, h⟩ | ⟨hp, h⟩ | ⟨hp, -, h⟩ | ⟨hp, -, h⟩ := startStream_cases m w s <;> rw [h]
  · exact .ofRaiseCause (by simp [hp, needsEngine]) w
  · exact .ofRaiseCause (by simp [hp, needsEngine]) w
  · exact .ofRaiseSize (by simp [needsEngine_eq_none hp]) ..
  · exact .ofComplete (by simp [needsEngine_eq_none hp]) (by simp) _

theorem xformCommand_followsPhaseTable (dir : Dir) (w : Reg32) (s : State) :
    FollowsPhaseTable (Spec.xform dir) s (xformCommand dir w s) := by
  obtain ⟨hp, h⟩ | ⟨hp, h⟩ | ⟨hp, -, h⟩ | ⟨hp, -, h⟩ := xformCommand_cases dir w s <;> rw [h]
  · exact .ofRaiseCause (by simp [needsStream_eq_sequence hp]) w
  · exact .ofRaiseCause (by simp [hp, needsStream]) w
  · exact .ofRaiseSize (by simp [hp, needsStream]) ..
  · exact .ofComplete (by simp [hp, needsStream]) (by simp [hp]) _

/-- DISPOSE is allowed in every phase (R242). -/
theorem scrub_followsPhaseTable (s : State) : FollowsPhaseTable .dispose s (scrub s) := .ofComplete rfl rfl 0

theorem exec_followsPhaseTable (i : Instr) (s : State) : ∃ t, exec i s = .next t ∧ FollowsPhaseTable i s t := by
  cases i
  case init256 => exact ⟨_, rfl, initEngine_followsPhaseTable .t256 ..⟩
  case init512 => exact ⟨_, rfl, initEngine_followsPhaseTable .t512 ..⟩
  case init1024 => exact ⟨_, rfl, initEngine_followsPhaseTable .t1024 ..⟩
  case encb => exact ⟨_, rfl, blockCommand_followsPhaseTable .encrypt ..⟩
  case decb => exact ⟨_, rfl, blockCommand_followsPhaseTable .decrypt ..⟩
  case startEcb => exact ⟨_, rfl, startStream_followsPhaseTable .ecb ..⟩
  case startCbc => exact ⟨_, rfl, startStream_followsPhaseTable .cbc ..⟩
  case startCfb => exact ⟨_, rfl, startStream_followsPhaseTable .cfb ..⟩
  case startOfb => exact ⟨_, rfl, startStream_followsPhaseTable .ofb ..⟩
  case startCtr => exact ⟨_, rfl, startStream_followsPhaseTable .ctr ..⟩
  case xformE => exact ⟨_, rfl, xformCommand_followsPhaseTable .encrypt ..⟩
  case xformD => exact ⟨_, rfl, xformCommand_followsPhaseTable .decrypt ..⟩
  case dispose => exact ⟨_, rfl, scrub_followsPhaseTable s⟩

/-- Settles O36: every command follows its row, and it has one next state. -/
theorem phaseTableHolds : Obligations.PhaseTableHolds := by
  intro i s t h
  obtain ⟨u, hu, hrow⟩ := exec_followsPhaseTable i s
  obtain rfl : u = t := Host.Outcome.next.inj (hu.symm.trans h)
  exact hrow

/-- STATUS after reset (R45): every field has the code 0, whatever the parameters. -/
theorem status_resetWith (c : Config) : Spec.status (State.resetWith c) = 0 := by
  simp [Spec.status, State.resetWith]

/-- The same for the STATUS the host reads (R33). -/
theorem statusWord_resetWith (c : Config) : statusWord (State.resetWith c) = 0 := rfl

/-- Every byte after reset (R45): the memory lists none that differs from 0x00. -/
theorem read_mem_resetWith (c : Config) (a : Nat) : (State.resetWith c).mem.read a = 0 := Memory.read_nil a

/-- Settles O37: `State.resetWith` sets each field as R45 says, and STATUS, the bytes and CAP follow from the fields. -/
theorem resetStateIsAllZero : Obligations.ResetStateIsAllZero := by
  refine ⟨rfl, rfl, ?_⟩
  rintro c s rfl
  exact ⟨rfl, rfl, rfl, rfl, status_resetWith c, rfl, rfl, rfl, rfl, rfl, rfl, rfl, rfl, rfl, rfl,
    read_mem_resetWith c, rfl, statusWord_resetWith c, rfl, rfl⟩

end Sys2Proof.Machine
end

section
/-! The decoder read backwards (30_encoding.md): the fields that lead to each of its answers, and so, since a word is its
fields, the words that do (R97, R98, R99). -/

namespace Sys2Proof

/-- The value of a word by its fields (R90, R97). -/
theorem joinFields_toNat (f : CommandFields) : (joinFields f).toNat =
    f.op.toNat + 16 * f.dir.toNat + 32 * f.mode.toNat + 256 * f.var.toNat + 1024 * f.zero.toNat := by
  obtain ⟨op, dir, mode, var, zero⟩ := f
  simp only [joinFields, BitVec.toNat_append, ← Nat.shiftLeft_add_eq_or_of_lt op.isLt,
    ← Nat.shiftLeft_add_eq_or_of_lt dir.isLt, ← Nat.shiftLeft_add_eq_or_of_lt mode.isLt,
    ← Nat.shiftLeft_add_eq_or_of_lt var.isLt]
  simp only [Nat.shiftLeft_eq]
  omega

/-- The five fields cover all 32 bits (R90). -/
theorem joinFields_splitFields (w : Reg32) : joinFields (splitFields w) = w := by
  apply BitVec.eq_of_toNat_eq
  have := w.isLt
  simp only [joinFields_toNat, splitFields, BitVec.extractLsb'_toNat, Nat.shiftRight_eq_div_pow]
  omega

/-- What an answer of the decoder says of the fields it has read: for a command they are those of the table (R97), for a
reserved word those of R98. Of the illegal words, which are all others, it says nothing. -/
def FieldsFit (f : CommandFields) : Decoded → Prop
  | .legal i => f = fieldsOf i
  | .reservedInit => f = { op := 1, dir := 0, mode := 0, var := 3, zero := 0 }
  | .reservedStart =>
    f = { op := 3, dir := 0, mode := 5, var := 0, zero := 0 } ∨
    f = { op := 3, dir := 0, mode := 6, var := 0, zero := 0 } ∨
    f = { op := 3, dir := 0, mode := 7, var := 0, zero := 0 }
  | .illegal => True

/-- INIT by VAR (R93): three variants, and 3 is reserved. -/
theorem fieldsFit_decodeInit (v : BitVec 2) :
    FieldsFit { op := 1, dir := 0, mode := 0, var := v, zero := 0 } (decodeInit v) := by
  obtain ⟨n⟩ := v
  fin_cases n <;> rfl

/-- START by MODE (R94): five modes, and 5 to 7 are reserved. -/
theorem fieldsFit_decodeStart (m : BitVec 3) :
    FieldsFit { op := 3, dir := 0, mode := m, var := 0, zero := 0 } (decodeStart m) := by
  obtain ⟨n⟩ := m
  fin_cases n
  exacts [rfl, rfl, rfl, rfl, rfl, .inl rfl, .inr (.inl rfl), .inr (.inr rfl)]

/-- A check of the decoder only ever turns a word down. -/
theorem FieldsFit.ite_illegal {f : CommandFields} {d : Decoded} {p : Prop} [Decidable p] (h : ¬ p → FieldsFit f d) :
    FieldsFit f (if p then .illegal else d) := by
  split
  · trivial
  · exact h ‹_›

/-- Every answer fits, by the cases of R102. -/
theorem fieldsFit_decodeFields (f : CommandFields) : FieldsFit f (decodeFields f) := by
  obtain ⟨op, dir, mode, var, zero⟩ := f
  refine .ite_illegal fun hzero => ?_
  obtain rfl : zero = 0 := not_not.1 hzero
  split
  next hop =>
    obtain rfl : op = 1 := BitVec.eq_of_toNat_eq hop
    refine .ite_illegal fun h => ?_
    obtain ⟨rfl, rfl⟩ : dir = 0 ∧ mode = 0 := by simpa using h
    exact fieldsFit_decodeInit var
  next hop =>
    obtain rfl : op = 2 := BitVec.eq_of_toNat_eq hop
    refine .ite_illegal fun h => ?_
    obtain ⟨rfl, rfl⟩ : mode = 0 ∧ var = 0 := by simpa using h
    obtain rfl | rfl := BitVec.eq_zero_or_eq_one dir <;> rfl
  next hop =>
    obtain rfl : op = 3 := BitVec.eq_of_toNat_eq hop
    refine .ite_illegal fun h => ?_
    obtain ⟨rfl, rfl⟩ : dir = 0 ∧ var = 0 := by simpa using h
    exact fieldsFit_decodeStart mode
  next hop =>
    obtain rfl : op = 4 := BitVec.eq_of_toNat_eq hop
    refine .ite_illegal fun h => ?_
    obtain ⟨rfl, rfl⟩ : mode = 0 ∧ var = 0 := by simpa using h
    obtain rfl | rfl := BitVec.eq_zero_or_eq_one dir <;> rfl
  next hop =>
    obtain rfl : op = 5 := BitVec.eq_of_toNat_eq hop
    refine .ite_illegal fun h => ?_
    obtain ⟨rfl, rfl, rfl⟩ : dir = 0 ∧ mode = 0 ∧ var = 0 := by simpa using h
    rfl
  next => trivial

/-! Words in place of fields: an answer of the decoder fixes the word. -/

theorem fieldsFit_of_decode {w : Reg32} {d : Decoded} (h : decode w = d) : FieldsFit (splitFields w) d :=
  h ▸ fieldsFit_decodeFields (splitFields w)

theorem eq_joinFields {w : Reg32} {f : CommandFields} (h : splitFields w = f) : w = joinFields f :=
  h ▸ (joinFields_splitFields w).symm

theorem encoding_statement : ∀ i, Laws.Encoding.Statement i
  | .init256 => Laws.Encoding.init256
  | .init512 => Laws.Encoding.init512
  | .init1024 => Laws.Encoding.init1024
  | .encb => Laws.Encoding.encb
  | .decb => Laws.Encoding.decb
  | .startEcb => Laws.Encoding.startEcb
  | .startCbc => Laws.Encoding.startCbc
  | .startCfb => Laws.Encoding.startCfb
  | .startOfb => Laws.Encoding.startOfb
  | .startCtr => Laws.Encoding.startCtr
  | .xformE => Laws.Encoding.xformE
  | .xformD => Laws.Encoding.xformD
  | .dispose => Laws.Encoding.dispose

@[simp] theorem splitFields_encode (i : Instr) : splitFields (encode i) = fieldsOf i := by
  obtain ⟨-, hsplit, -⟩ := encoding_statement i
  exact hsplit

@[simp] theorem decode_encode (i : Instr) : decode (encode i) = .legal i := by
  obtain ⟨-, -, hdecode⟩ := encoding_statement i
  exact hdecode

/-- The decoder reads a command from its own word and from no other (R97). -/
theorem decode_eq_legal_iff {w : Reg32} {i : Instr} : decode w = .legal i ↔ w = encode i := by
  constructor
  · intro h
    exact eq_joinFields (fieldsFit_of_decode h)
  · rintro rfl
    exact decode_encode i

/-- The reserved INIT (R98). -/
theorem decode_eq_reservedInit_iff {w : Reg32} : decode w = .reservedInit ↔ w = 0x00000301 := by
  constructor
  · intro h
    exact eq_joinFields (fieldsFit_of_decode h)
  · rintro rfl
    decide

/-- The three reserved STARTs (R98). -/
theorem decode_eq_reservedStart_iff {w : Reg32} :
    decode w = .reservedStart ↔ w = 0x000000A3 ∨ w = 0x000000C3 ∨ w = 0x000000E3 := by
  constructor
  · intro h
    exact (fieldsFit_of_decode h).imp eq_joinFields (.imp eq_joinFields eq_joinFields)
  · rintro (rfl | rfl | rfl) <;> decide

/-- Every other word is illegal (R99). -/
theorem decode_eq_illegal {w : Reg32} (hlegal : ∀ i, w ≠ encode i) (hinit : w ≠ 0x00000301)
    (hstart : ¬ (w = 0x000000A3 ∨ w = 0x000000C3 ∨ w = 0x000000E3)) : decode w = .illegal := by
  cases h : decode w with
  | legal i => exact absurd (decode_eq_legal_iff.1 h) (hlegal i)
  | reservedInit => exact absurd (decode_eq_reservedInit_iff.1 h) hinit
  | reservedStart => exact absurd (decode_eq_reservedStart_iff.1 h) hstart
  | illegal => rfl

/-! The table of R97, against the model's. -/

theorem encode_eq_wordOf (i : Instr) : encode i = Spec.wordOf i := by cases i <;> rfl

/-- The fields the model gives a command are the columns of the table. -/
theorem fieldsOf_eq_columnsOf (i : Instr) :
    (fieldsOf i).op.toNat = (Spec.columnsOf i).1 ∧ (fieldsOf i).dir.toNat = (Spec.columnsOf i).2.1 ∧
    (fieldsOf i).mode.toNat = (Spec.columnsOf i).2.2.1 ∧ (fieldsOf i).var.toNat = (Spec.columnsOf i).2.2.2 ∧
    (fieldsOf i).zero.toNat = 0 := by
  cases i <;> exact ⟨rfl, rfl, rfl, rfl, rfl⟩

/-- Settles O1: a word is its five fields, so each command has one word; the columns give the fields. -/
theorem decodeLegalIffTableWord : Obligations.DecodeLegalIffTableWord := by
  refine ⟨fun w i => encode_eq_wordOf i ▸ decode_eq_legal_iff, fun i => ?_⟩
  obtain ⟨hop, hdir, hmode, hvar, hzero⟩ := fieldsOf_eq_columnsOf i
  have hvalue := joinFields_toNat (fieldsOf i)
  rw [hop, hdir, hmode, hvar, hzero] at hvalue
  rw [← encode_eq_wordOf, splitFields_encode]
  exact ⟨rfl, hvalue, hop, hdir, hmode, hvar⟩

end Sys2Proof
end

section
/-! The words written to CMD that are no command (R98, R99): the model's `raise` is `Spec.failed`, and each kind of word
ends in it. -/

namespace Sys2Proof.Machine

/-- The bit of ERRSTAT a cause sets (R34, R250). -/
theorem setErrBit_eq (e : Reg32) (c : Cause) : setErrBit e c = e ||| (1#32 <<< Spec.code c) := by cases c <;> rfl

/-- The model's `raise` writes what R262 lists, whenever EXPECT and WHAT fit their fields. -/
theorem raiseError_eq_failed (c : Cause) {e k : Nat} (he : e < 256) (hk : k < 8) (w : Reg32) (s : State) :
    raiseError c e k w s = Spec.failed c e k w s := by
  rw [raiseError, Spec.failed, setErrBit_eq, ← errInfoWord_toNat w he hk, BitVec.ofNat_toNat, BitVec.setWidth_eq]

theorem raiseCause_eq_failed (c : Cause) (w : Reg32) (s : State) : raiseCause c w s = Spec.failed c 0 0 w s :=
  raiseError_eq_failed c (by decide) (by decide) w s

/-- A word written to CMD runs (R32). -/
theorem step_of_command {s : State} {w : Reg32} {rest : List Event} (h : s.inputs = .csrWrite 0x004 w :: rest) :
    step s = runCommand w { s with inputs := rest } := by
  rw [step, h]; rfl

theorem runCommand_of_reservedInit {w : Reg32} (h : decode w = .reservedInit) (s : State) :
    runCommand w s = .next (Spec.failed .unsupportedConfiguration 0 0 w s) := by
  rw [runCommand, h, ← raiseCause_eq_failed]; rfl

theorem runCommand_of_illegal {w : Reg32} (h : decode w = .illegal) (s : State) :
    runCommand w s = .next (Spec.failed .illegalCommand 0 0 w s) := by
  rw [runCommand, h, ← raiseCause_eq_failed]; rfl

/-- A reserved START reports the error of the phase check, and its own only where there is none (R98). -/
theorem runCommand_of_reservedStart {w : Reg32} (h : decode w = .reservedStart) (s : State) :
    runCommand w s = .next (Spec.failed ((needsEngine s.phase).getD .unsupportedConfiguration) 0 0 w s) := by
  rw [runCommand, h, ← raiseCause_eq_failed]
  cases hp : needsEngine s.phase <;> simp [runReservedStart, hp]

/-- Settles O5: the phase decides which error the phase check leaves a reserved START to report. -/
theorem reservedWordsReportUnsupportedConfiguration : Obligations.ReservedWordsReportUnsupportedConfiguration := by
  intro s w rest hin
  rw [step_of_command hin]
  refine ⟨fun hw => runCommand_of_reservedInit (decode_eq_reservedInit_iff.2 hw) _, fun hw => ?_⟩
  rw [runCommand_of_reservedStart (decode_eq_reservedStart_iff.2 hw)]
  refine ⟨fun hp => ?_, fun hp => ?_, fun hp => ?_⟩
  · simp [hp, needsEngine]
  · simp [hp, needsEngine]
  · simp [needsEngine_eq_none hp]

/-- Settles O6: a word of no other kind decodes as illegal, and no phase is looked at. -/
theorem illegalWordsReportIllegalCommand : Obligations.IllegalWordsReportIllegalCommand := by
  intro s w rest hin hlegal hinit hA3 hC3 hE3
  have hdecode : decode w = .illegal :=
    decode_eq_illegal (fun i => encode_eq_wordOf i ▸ hlegal i) hinit (not_or.2 ⟨hA3, not_or.2 ⟨hC3, hE3⟩⟩)
  exact ⟨hdecode, step_of_command hin ▸ runCommand_of_illegal hdecode _⟩

end Sys2Proof.Machine
end

section
/-! What one event does, kept together with the event itself: which of the five kinds a command is of, that a word written
to CMD runs its command or only reports, and what each kind of event serves. -/

namespace Sys2Proof.Machine

/-- A command is INIT, a block command, START, XFORM or DISPOSE (R97), and runs as its kind does. -/
theorem exec_cases {i : Instr} {s t : State} (h : exec i s = .next t) :
    (∃ v, i = Spec.init v ∧ t = initEngine v (encode i) s) ∨
    (∃ dir f, i = Spec.block dir ∧ (f = encryptBlock s ∨ f = decryptBlock s) ∧ t = blockCommand f (encode i) s) ∨
    (∃ m, i = Spec.start m ∧ t = startStream m (encode i) s) ∨
    (∃ dir, i = Spec.xform dir ∧ t = xformCommand dir (encode i) s) ∨
    (i = .dispose ∧ t = scrub s) := by
  cases i <;> cases h
  case init256 => exact .inl ⟨.t256, rfl, rfl⟩
  case init512 => exact .inl ⟨.t512, rfl, rfl⟩
  case init1024 => exact .inl ⟨.t1024, rfl, rfl⟩
  case encb => exact .inr (.inl ⟨.encrypt, _, rfl, .inl rfl, rfl⟩)
  case decb => exact .inr (.inl ⟨.decrypt, _, rfl, .inr rfl, rfl⟩)
  case startEcb => exact .inr (.inr (.inl ⟨.ecb, rfl, rfl⟩))
  case startCbc => exact .inr (.inr (.inl ⟨.cbc, rfl, rfl⟩))
  case startCfb => exact .inr (.inr (.inl ⟨.cfb, rfl, rfl⟩))
  case startOfb => exact .inr (.inr (.inl ⟨.ofb, rfl, rfl⟩))
  case startCtr => exact .inr (.inr (.inl ⟨.ctr, rfl, rfl⟩))
  case xformE => exact .inr (.inr (.inr (.inl ⟨.encrypt, rfl, rfl⟩)))
  case xformD => exact .inr (.inr (.inr (.inl ⟨.decrypt, rfl, rfl⟩)))
  case dispose => exact .inr (.inr (.inr (.inr ⟨rfl, rfl⟩)))

/-- A word written to CMD is the word of a command, which runs, or it only reports an error (R97 to R99). -/
theorem runCommand_cases {w : Reg32} {s t : State} (h : runCommand w s = .next t) :
    (∃ i, w = Spec.wordOf i ∧ exec i s = .next t) ∨ ∃ c, t = raiseCause c w s := by
  cases hw : decode w with
  | legal i =>
    rw [runCommand, hw] at h
    exact .inl ⟨i, encode_eq_wordOf i ▸ decode_eq_legal_iff.1 hw, h⟩
  | reservedInit =>
    rw [runCommand_of_reservedInit hw, ← raiseCause_eq_failed] at h
    exact .inr ⟨_, (Host.Outcome.next.inj h).symm⟩
  | reservedStart =>
    rw [runCommand_of_reservedStart hw, ← raiseCause_eq_failed] at h
    exact .inr ⟨_, (Host.Outcome.next.inj h).symm⟩
  | illegal =>
    rw [runCommand_of_illegal hw, ← raiseCause_eq_failed] at h
    exact .inr ⟨_, (Host.Outcome.next.inj h).symm⟩

/-- Everything an event that is served can do, and which event it was (R60, R290). -/
theorem serve_cases {e : Event} {s t : State} (h : serve e s = .next t) :
    (e = .reset ∧ t = hardReset s) ∨
    (∃ w, e = .csrWrite 0x004 w ∧ runCommand w s = .next t) ∨
    (∃ a v, e = .csrWrite a v ∧ a ≠ 0x004 ∧ t = csrStore a v s) ∨
    (∃ a b, e = .bufWrite a b ∧ t = bufStore a b s) ∨
    ∃ r, t = observe r s := by
  cases e with
  | reset => cases h; exact .inl ⟨rfl, rfl⟩
  | otherWidth a n => cases h
  | csrRead a => simp only [serve] at h; split at h <;> cases h; exact .inr (.inr (.inr (.inr ⟨_, rfl⟩)))
  | bufRead a => simp only [serve] at h; split at h <;> cases h; exact .inr (.inr (.inr (.inr ⟨_, rfl⟩)))
  | bufWrite a b => simp only [serve] at h; split at h <;> cases h; exact .inr (.inr (.inr (.inl ⟨a, b, rfl, rfl⟩)))
  | csrWrite a v =>
    simp only [serve] at h
    split at h
    · split at h
      next ha => subst ha; exact .inr (.inl ⟨v, rfl, h⟩)
      next ha => cases h; exact .inr (.inr (.inl ⟨a, v, rfl, ha, rfl⟩))
    · cases h

end Sys2Proof.Machine
end

section
/-! Who writes KS and TS (R131): INIT where it completes, DISPOSE and reset; every other effect has them in its frame. -/

namespace Sys2Proof.Machine

/-- `t` has the schedules of `s`. -/
def KeepsSchedules (s t : State) : Prop := t.ks = s.ks ∧ t.ts = s.ts

/-- The commands R131 lets write KS and TS, with `t` the next state: INIT if it completed, and DISPOSE. -/
def MayWriteSchedules (i : Instr) (t : State) : Prop := (∃ v, i = Spec.init v ∧ t.lastErr = none) ∨ i = .dispose

section
variable (s : State)

theorem raiseError_keepsSchedules (c : Cause) (e k : Nat) (w : Reg32) : KeepsSchedules s (raiseError c e k w s) :=
  ⟨rfl, rfl⟩

theorem raiseCause_keepsSchedules (c : Cause) (w : Reg32) : KeepsSchedules s (raiseCause c w s) :=
  raiseError_keepsSchedules s c 0 0 w

theorem raiseSize_keepsSchedules (l : LengthName) (e : Nat) (w : Reg32) : KeepsSchedules s (raiseSize l e w s) :=
  raiseError_keepsSchedules s .size e (whatCode l) w

theorem xformBlocks_keepsSchedules (dir : Dir) (n : Nat) : KeepsSchedules s (xformBlocks dir n s) := by
  rw [xformBlocks_eq]
  exact ⟨rfl, rfl⟩

theorem csrStore_keepsSchedules (a : Nat) (v : Reg32) : KeepsSchedules s (csrStore a v s) := by
  unfold csrStore
  split <;> exact ⟨rfl, rfl⟩

theorem bufStore_keepsSchedules (a : Nat) (b : Byte) : KeepsSchedules s (bufStore a b s) := by
  unfold bufStore
  split <;> exact ⟨rfl, rfl⟩

/-- INIT checks its two sizes before it writes anything (R121). -/
theorem initEngine_keepsSchedules_or_completes (v : Variant) (w : Reg32) :
    KeepsSchedules s (initEngine v w s) ∨ (initEngine v w s).lastErr = none := by
  obtain ⟨-, h⟩ | ⟨-, -, h⟩ | ⟨-, -, h⟩ := initEngine_cases v w s <;> rw [h]
  · exact .inl (raiseSize_keepsSchedules ..)
  · exact .inl (raiseSize_keepsSchedules ..)
  · exact .inr rfl

theorem blockCommand_keepsSchedules (f : List Byte → List Byte) (w : Reg32) :
    KeepsSchedules s (blockCommand f w s) := by
  obtain ⟨-, h⟩ | ⟨-, h⟩ | ⟨-, -, h⟩ | ⟨-, -, h⟩ := blockCommand_cases f w s <;> rw [h]
  · exact raiseCause_keepsSchedules ..
  · exact raiseCause_keepsSchedules ..
  · exact raiseSize_keepsSchedules ..
  · exact ⟨rfl, rfl⟩

theorem startStream_keepsSchedules (m : Mode) (w : Reg32) : KeepsSchedules s (startStream m w s) := by
  obtain ⟨-, h⟩ | ⟨-, h⟩ | ⟨-, -, h⟩ | ⟨-, -, h⟩ := startStream_cases m w s <;> rw [h]
  · exact raiseCause_keepsSchedules ..
  · exact raiseCause_keepsSchedules ..
  · exact raiseSize_keepsSchedules ..
  · exact ⟨rfl, rfl⟩

theorem xformCommand_keepsSchedules (dir : Dir) (w : Reg32) : KeepsSchedules s (xformCommand dir w s) := by
  obtain ⟨-, h⟩ | ⟨-, h⟩ | ⟨-, -, h⟩ | ⟨-, -, h⟩ := xformCommand_cases dir w s <;> rw [h]
  · exact raiseCause_keepsSchedules ..
  · exact raiseCause_keepsSchedules ..
  · exact raiseSize_keepsSchedules ..
  · exact xformBlocks_keepsSchedules ..

end

section
variable {s t : State}

theorem exec_schedules {i : Instr} (h : exec i s = .next t) : KeepsSchedules s t ∨ MayWriteSchedules i t := by
  obtain ⟨v, hi, rfl⟩ | ⟨dir, f, -, -, rfl⟩ | ⟨m, -, rfl⟩ | ⟨dir, -, rfl⟩ | ⟨hi, -⟩ := exec_cases h
  · exact (initEngine_keepsSchedules_or_completes s v _).imp_right fun hdone => .inl ⟨v, hi, hdone⟩
  · exact .inl (blockCommand_keepsSchedules ..)
  · exact .inl (startStream_keepsSchedules ..)
  · exact .inl (xformCommand_keepsSchedules ..)
  · exact .inr (.inr hi)

theorem runCommand_schedules {w : Reg32} (h : runCommand w s = .next t) :
    KeepsSchedules s t ∨ ∃ i, w = Spec.wordOf i ∧ MayWriteSchedules i t := by
  obtain ⟨i, hw, hrun⟩ | ⟨c, rfl⟩ := runCommand_cases h
  · exact (exec_schedules hrun).imp_right fun hi => ⟨i, hw, hi⟩
  · exact .inl (raiseCause_keepsSchedules ..)

theorem serve_schedules {e : Event} (h : serve e s = .next t) :
    KeepsSchedules s t ∨ e = .reset ∨ ∃ i, e = .csrWrite 0x004 (Spec.wordOf i) ∧ MayWriteSchedules i t := by
  obtain ⟨he, -⟩ | ⟨w, he, hrun⟩ | ⟨a, v, -, -, rfl⟩ | ⟨a, b, -, rfl⟩ | ⟨r, rfl⟩ := serve_cases h
  · exact .inr (.inl he)
  · obtain hkeep | ⟨i, rfl, hi⟩ := runCommand_schedules hrun
    · exact .inl hkeep
    · exact .inr (.inr ⟨i, he, hi⟩)
  · exact .inl (csrStore_keepsSchedules ..)
  · exact .inl (bufStore_keepsSchedules ..)
  · exact .inl ⟨rfl, rfl⟩

/-- A step that changes neither KS nor TS, or whose event R131 lets change them. -/
theorem step_schedules (h : step s = .next t) :
    KeepsSchedules s t ∨ ∃ e rest, s.inputs = e :: rest ∧
      (e = .reset ∨ ∃ i, e = .csrWrite 0x004 (Spec.wordOf i) ∧ MayWriteSchedules i t) := by
  obtain ⟨-, rfl⟩ | ⟨e, rest, hin, hserve, -⟩ := step_effect h
  · exact .inl ⟨rfl, rfl⟩
  · exact (serve_schedules hserve).imp_right fun he => ⟨e, rest, hin, he⟩

end

/-- Settles O42: a step that changes a schedule does not keep both, so its event is one of those of `step_schedules`. -/
theorem schedulesChangeOnlyByInitDisposeReset : Obligations.SchedulesChangeOnlyByInitDisposeReset := by
  intro s t h hchange
  obtain ⟨hks, hts⟩ | ⟨e, rest, hin, rfl | ⟨i, rfl, ⟨v, rfl, hdone⟩ | rfl⟩⟩ := step_schedules h
  · exact absurd hchange (not_or.2 ⟨not_not.2 hks, not_not.2 hts⟩)
  · exact .inl ⟨rest, hin⟩
  · exact .inr (.inl ⟨v, rest, hin, hdone⟩)
  · exact .inr (.inr ⟨rest, hin⟩)

end Sys2Proof.Machine
end

section
/-! E_K and D_K undo each other (41_block_cipher.md): each layer of a round, Mix, the permutation and the injection, has
its inverse, and the layers of D_K are those inverses in the opposite order. -/

namespace Sys2Proof.Machine

/-! Mix (R141) and Unmix (R142). -/

@[simp] theorem unmix_mix (a b : Word) (r : Nat) : unmix (mix a b r).1 (mix a b r).2 r = (a, b) := by
  have hb : rotr (rotl b r ^^^ (a + b) ^^^ (a + b)) r = b := by
    rw [BitVec.xor_assoc, BitVec.xor_self, BitVec.xor_zero, rotr_rotl]
  simp only [mix, unmix, hb, BitVec.add_sub_cancel]

@[simp] theorem mix_unmix (a b : Word) (r : Nat) : mix (unmix a b r).1 (unmix a b r).2 r = (a, b) := by
  simp only [mix, unmix, rotl_rotr, BitVec.sub_add_cancel]
  rw [BitVec.xor_assoc, BitVec.xor_self, BitVec.xor_zero]

/-- Settles O19: with the same `a + b` exclusive-ored twice, what is left of the second word is a rotation to be undone. -/
theorem unmixInvertsMix : Obligations.UnmixInvertsMix :=
  ⟨fun _ _ _ => rfl, fun _ _ _ => rfl, unmix_mix, mix_unmix, by decide, by decide⟩

/-- The induction along an array that holds one pair of words for each rotation amount. -/
theorem pairs_induction {motive : List Nat → List Word → Prop} (nil : motive [] [])
    (cons : ∀ r rs a b x, motive rs x → motive (r :: rs) (a :: b :: x)) :
    ∀ {rs x}, 2 * rs.length = x.length → motive rs x
  | [], [], _ => nil
  | r :: _, a :: b :: _, h => cons r _ a b _ (pairs_induction nil cons (by simp only [List.length_cons] at h; omega))
  | [], _ :: _, h => by simp at h
  | _ :: _, [], h => by simp at h
  | _ :: _, [_], h => by simp at h

theorem unmixPairs_mixPairs {rs : List Nat} {x : List Word} (h : 2 * rs.length = x.length) :
    unmixPairs rs (mixPairs rs x) = x := by
  refine pairs_induction (motive := fun rs x => unmixPairs rs (mixPairs rs x) = x) rfl (fun r rs a b x ih => ?_) h
  simp only [mixPairs, unmixPairs, unmix_mix, ih]

theorem mixPairs_unmixPairs {rs : List Nat} {x : List Word} (h : 2 * rs.length = x.length) :
    mixPairs rs (unmixPairs rs x) = x := by
  refine pairs_induction (motive := fun rs x => mixPairs rs (unmixPairs rs x) = x) rfl (fun r rs a b x ih => ?_) h
  simp only [mixPairs, unmixPairs, mix_unmix, ih]

/-! The permutations (R144). -/

theorem permute_range (x : List Word) : permute (List.range x.length) x = x :=
  List.ext_getElem (by simp) fun i _ hi => by simp [permute, hi]

/-- Permuting twice is permuting by the table `q` read at the entries of `p`. -/
theorem permute_permute {p q : List Nat} (h : ∀ i ∈ p, i < q.length) (x : List Word) :
    permute p (permute q x) = permute (p.map fun i => q.getD i 0) x := by
  rw [permute, permute, permute, List.map_map]
  refine List.map_congr_left fun i hi => ?_
  simp [h i hi]

theorem permute_invTable_piTable {v : Variant} {x : List Word} (h : x.length = wordCount v) :
    permute (invTable v) (permute (piTable v) x) = x := by
  rw [permute_permute (by cases v <;> decide),
    show (invTable v).map (fun i => (piTable v).getD i 0) = List.range x.length by rw [h]; cases v <;> rfl, permute_range]

theorem permute_piTable_invTable {v : Variant} {x : List Word} (h : x.length = wordCount v) :
    permute (piTable v) (permute (invTable v) x) = x := by
  rw [permute_permute (by cases v <;> decide),
    show (piTable v).map (fun i => (invTable v).getD i 0) = List.range x.length by rw [h]; cases v <;> rfl, permute_range]

/-! One round (R145, R146) and the injection (R148). -/

theorem inverseRound_forwardRound {v : Variant} (d : Nat) {x : List Word} (h : x.length = wordCount v) :
    inverseRound v d (forwardRound v d x) = x := by
  have hrow : 2 * (rotRow v d).length = x.length := by rw [rotRow_length, h]
  rw [inverseRound, forwardRound, permute_invTable_piTable (by rw [mixPairs_length hrow, h]), unmixPairs_mixPairs hrow]

theorem forwardRound_inverseRound {v : Variant} (d : Nat) {y : List Word} (h : y.length = wordCount v) :
    forwardRound v d (inverseRound v d y) = y := by
  rw [inverseRound, forwardRound, mixPairs_unmixPairs (by rw [rotRow_length, permute_length, invTable_length]),
    permute_piTable_invTable h]

theorem eject_inject {x k : List Word} (h : x.length = k.length) : eject (inject x k) k = x :=
  List.ext_getElem (by simp [h]) fun i _ _ => by simp [eject, inject]

theorem inject_eject {x k : List Word} (h : x.length = k.length) : inject (eject x k) k = x :=
  List.ext_getElem (by simp [h]) fun i _ _ => by simp [eject, inject]

/-! The rounds (R150, R152), the word arrays (R151, R152) and the blocks. -/

section
variable {v : Variant} {ks : Vector Word 17} {ts : Vector Word 3}

theorem decryptRounds_encryptRounds (n : Nat) {x : List Word} (h : x.length = wordCount v) :
    decryptRounds v ks ts n (encryptRounds v ks ts n x) = x := by
  induction n with
  | zero => rfl
  | succ d ih =>
    have hx : (encryptRounds v ks ts d x).length = wordCount v := encryptRounds_length v ks ts d h
    by_cases hd : d % 4 = 0
    · rw [encryptRounds, if_pos hd, decryptRounds, if_pos hd, inverseRound_forwardRound d (by simp [hx]),
        eject_inject (by simp [hx]), ih]
    · rw [encryptRounds, if_neg hd, decryptRounds, if_neg hd, inverseRound_forwardRound d hx, ih]

theorem encryptRounds_decryptRounds (n : Nat) {y : List Word} (h : y.length = wordCount v) :
    encryptRounds v ks ts n (decryptRounds v ks ts n y) = y := by
  induction n generalizing y with
  | zero => rfl
  | succ d ih =>
    by_cases hd : d % 4 = 0
    · rw [encryptRounds, if_pos hd, decryptRounds, if_pos hd, ih (by simp), inject_eject (by simp),
        forwardRound_inverseRound d h]
    · rw [encryptRounds, if_neg hd, decryptRounds, if_neg hd, ih (by simp), forwardRound_inverseRound d h]

theorem encryptWords_length {x : List Word} (h : x.length = wordCount v) :
    (encryptWords v ks ts x).length = wordCount v := by
  rw [encryptWords, inject_length, encryptRounds_length v ks ts _ h, subkey_length, min_self]

theorem decryptWords_length {y : List Word} (h : y.length = wordCount v) :
    (decryptWords v ks ts y).length = wordCount v :=
  decryptRounds_length v ks ts _ (by simp [h])

theorem decryptWords_encryptWords {x : List Word} (h : x.length = wordCount v) :
    decryptWords v ks ts (encryptWords v ks ts x) = x := by
  rw [decryptWords, encryptWords, eject_inject (by rw [encryptRounds_length v ks ts _ h, subkey_length]),
    decryptRounds_encryptRounds _ h]

theorem encryptWords_decryptWords {y : List Word} (h : y.length = wordCount v) :
    encryptWords v ks ts (decryptWords v ks ts y) = y := by
  rw [decryptWords, encryptWords, encryptRounds_decryptRounds _ (by simp [h]), inject_eject (by simp [h])]

end

/-- A block is its word array (R13), so what E_K and D_K do to words they do to blocks. -/
theorem wordsOf_bytesOf_of_length {n : Nat} {ws : List Word} (h : ws.length = n) : wordsOf n (bytesOf ws) = ws :=
  h ▸ wordsOf_bytesOf ws

theorem decryptBlock_encryptBlock {s : State} {x : List Byte} (h : x.length = blockBytes s.var) :
    decryptBlock s (encryptBlock s x) = x := by
  rw [decryptBlock, encryptBlock, wordsOf_bytesOf_of_length (encryptWords_length (by simp)),
    decryptWords_encryptWords (by simp), bytesOf_wordsOf _ _ h]

theorem encryptBlock_decryptBlock {s : State} {y : List Byte} (h : y.length = blockBytes s.var) :
    encryptBlock s (decryptBlock s y) = y := by
  rw [decryptBlock, encryptBlock, wordsOf_bytesOf_of_length (decryptWords_length (by simp)),
    encryptWords_decryptWords (by simp), bytesOf_wordsOf _ _ h]

/-- E_K depends on the schedules and the bound variant only. -/
theorem encryptBlock_congr {s u : State} (hks : u.ks = s.ks) (hts : u.ts = s.ts) (hvar : u.var = s.var) (x : List Byte) :
    encryptBlock u x = encryptBlock s x := by
  rw [encryptBlock, encryptBlock, hks, hts, hvar]

/-- D_K depends on the schedules and the bound variant only. -/
theorem decryptBlock_congr {s u : State} (hks : u.ks = s.ks) (hts : u.ts = s.ts) (hvar : u.var = s.var) (y : List Byte) :
    decryptBlock u y = decryptBlock s y := by
  rw [decryptBlock, decryptBlock, hks, hts, hvar]

/-- The block size of R8, in the spec's spelling and the model's. -/
@[simp] theorem bytes_eq_blockBytes (v : Variant) : Spec.bytes v = blockBytes v := by cases v <;> rfl

/-! What ENCB and DECB leave alone (R156). -/

/-- `t` has the engine and the open stream of `s`. -/
def KeepsEngineAndStream (s t : State) : Prop :=
  t.reg = s.reg ∧ t.phase = s.phase ∧ t.mode = s.mode ∧ t.ks = s.ks ∧ t.ts = s.ts ∧ t.var = s.var

theorem blockCommand_keepsEngineAndStream (f : List Byte → List Byte) (w : Reg32) (s : State) :
    KeepsEngineAndStream s (blockCommand f w s) := by
  obtain ⟨-, h⟩ | ⟨-, h⟩ | ⟨-, -, h⟩ | ⟨-, -, h⟩ := blockCommand_cases f w s <;> rw [h] <;>
    exact ⟨rfl, rfl, rfl, rfl, rfl, rfl⟩

theorem exec_block_keepsEngineAndStream {dir : Dir} {s t : State} (h : exec (Spec.block dir) s = .next t) :
    KeepsEngineAndStream s t := by
  cases dir <;> cases h <;> exact blockCommand_keepsEngineAndStream ..

/-- Settles O23: each layer of the rounds is undone, and the blocks are word arrays; a block command has the engine and the
stream in its frame, whether it completes or fails. -/
theorem decryptionInvertsEncryption : Obligations.DecryptionInvertsEncryption := by
  refine ⟨fun s x hx => ?_, fun s u x hks hts hvar => ?_, fun s t dir h => exec_block_keepsEngineAndStream h⟩
  · rw [bytes_eq_blockBytes] at hx
    exact ⟨decryptBlock_encryptBlock hx, encryptBlock_decryptBlock hx⟩
  · exact ⟨encryptBlock_congr hks hts hvar x, decryptBlock_congr hks hts hvar x⟩

end Sys2Proof.Machine
end

section
/-! START (42_mode_transform.md R171, R172): where it completes, and the register it loads, as words and as bytes. -/

namespace Sys2Proof.Machine

@[simp] theorem words_eq_wordCount (v : Variant) : Spec.words v = wordCount v := by cases v <;> rfl

theorem exec_start (m : Mode) (s : State) :
    exec (Spec.start m) s = .next (startStream m (encode (Spec.start m)) s) := by cases m <;> rfl

/-- START completes where an engine exists and IV_LEN is right (R171). -/
theorem exec_start_of_ivLen {s : State} (m : Mode) (hengine : Spec.engine s) (hiv : s.ivLen.toNat = Spec.bytes s.var) :
    exec (Spec.start m) s = .next (openStream m s) := by
  rw [bytes_eq_blockBytes] at hiv
  rw [exec_start, startStream, needsEngine_eq_none hengine]
  exact congrArg _ (if_neg (not_not.2 hiv))

/-- A byte appended is the least significant one. -/
theorem toNat_append_byte {n : Nat} (x : BitVec n) (b : Byte) : (x ++ b).toNat = b.toNat + 256 * x.toNat := by
  rw [BitVec.toNat_append, ← Nat.shiftLeft_add_eq_or_of_lt b.isLt, Nat.shiftLeft_eq]
  omega

/-- Eight bytes read by the engine are one word, the lowest address least significant (R63, R64). -/
theorem toNat_word (m : Memory) (a : Nat) : (Spec.word m a).toNat = memRead m a 8 := by
  rw [memRead_eight, Spec.word]
  refine (toNat_append_byte _ _).trans ?_
  simp only [toNat_append_byte]

theorem bufWord_eq_word (s : State) (b : Buffer) (o : Nat) : bufWord s b o = Spec.word s.mem (bufBase b + o) := by
  rw [bufWord, ← toNat_word, BitVec.ofNat_toNat, BitVec.setWidth_eq]

/-- REG after START, word by word (R172). -/
theorem openStream_reg (m : Mode) (s : State) : (openStream m s).reg
    = Vector.ofFn fun i => if i.val < wordCount s.var then bufWord s .iv (8 * i.val) else 0 := rfl

/-- Settles O27: START completes, and the words it loads are those of IVBUF. -/
theorem startLoadsTheRegister : Obligations.StartLoadsTheRegister := by
  intro s m hengine hiv
  refine ⟨(openStream m s).reg, exec_start_of_ivLen m hengine hiv, fun i => ?_⟩
  have hword : bufWord s .iv (8 * i.val) = Spec.word s.mem (0x0200 + 8 * i.val) := bufWord_eq_word s .iv _
  rw [openStream_reg, Fin.getElem_fin, Vector.getElem_ofFn, words_eq_wordCount, hword]

/-- Part of a byte string read from memory is the string read there. -/
theorem Memory.take_drop_readBytes (m : Memory) {a n o k : Nat} (h : o + k ≤ n) :
    ((m.readBytes a n).drop o).take k = m.readBytes (a + o) k :=
  List.ext_getElem (by simp; omega) fun i _ _ => by simp [Nat.add_assoc]

/-- The byte image of the register after START is the IV (R172, R173). -/
theorem regBytes_openStream (m : Mode) (s : State) :
    regBytes (openStream m s) = s.mem.readBytes 0x0200 (blockBytes s.var) := by
  have hw := wordCount_le s.var
  have hwords : (openStream m s).reg.toList.take (wordCount s.var)
      = wordsOf (wordCount s.var) (s.mem.readBytes 0x0200 (blockBytes s.var)) := by
    refine List.ext_getElem (by simp; omega) fun i h1 h2 => ?_
    have hi : i < wordCount s.var := by simpa using h2
    have hbytes := s.mem.take_drop_readBytes (a := 0x0200) (n := blockBytes s.var) (o := 8 * i) (k := 8)
      (by rw [blockBytes_eq]; omega)
    simp [wordsOf, openStream, hi, bufWord, memRead, bufBase, le64, hbytes]
  rw [regBytes, show (openStream m s).var = s.var from rfl, hwords, bytesOf_wordsOf _ _ (by simp [blockBytes_eq])]

end Sys2Proof.Machine
end

section
/-! The increment of the CTR register (R188): the model goes along its bytes, the rule sums them by position. -/

namespace Sys2Proof.Machine

theorem leBytes_eq_map (n x : Nat) : leBytes n x = (List.range n).map fun k => BitVec.ofNat 8 (x / 256 ^ k) := by
  induction n generalizing x with
  | zero => rfl
  | succ n ih =>
    simp [leBytes, ih, List.range_succ_eq_map, Function.comp_def, Nat.div_div_eq_div_mul, pow_succ, Nat.mul_comm]

/-- A block with its first byte least significant holds the number of R188 (LE_FULL). -/
theorem leNat_eq_counter (bs : List Byte) : leNat bs = Spec.counter .leFull bs := by
  induction bs with
  | nil => rfl
  | cons b bs ih =>
    rw [leNat, ih]
    simp [Spec.counter, List.range_succ_eq_map, Function.comp_def, pow_succ, ← List.sum_map_mul_left,
      Nat.mul_left_comm, Nat.mul_comm _ 256]

/-- The bytes that follow count from the next power of 256 on. -/
theorem leNat_append (xs ys : List Byte) : leNat (xs ++ ys) = leNat xs + 256 ^ xs.length * leNat ys := by
  induction xs with
  | nil => simp [leNat]
  | cons x xs ih => simp only [List.cons_append, leNat, ih, List.length_cons, pow_succ]; ring

/-- A block with its last byte least significant holds the number of R188 (BE_FULL). -/
theorem leNat_reverse_eq_counter (bs : List Byte) : leNat bs.reverse = Spec.counter .beFull bs := by
  induction bs with
  | nil => rfl
  | cons b bs ih =>
    rw [List.reverse_cons, leNat_append, ih, Nat.add_comm, Nat.mul_comm]
    simp [Spec.counter, List.range_succ_eq_map, Function.comp_def, leNat, Nat.sub_sub, Nat.add_comm 1]

/-- The n low bytes of a number, taken modulo 256^n and byte by byte modulo 256 as in the rule. -/
theorem leBytes_eq_map_mod (n x : Nat) :
    leBytes n x = (List.range n).map fun k => BitVec.ofNat 8 (x % 2 ^ (8 * n) / 256 ^ k % 256) := by
  have hbyte (y : Nat) : BitVec.ofNat 8 (y % 256) = BitVec.ofNat 8 y := BitVec.eq_of_toNat_eq (Nat.mod_mod y 256)
  simp only [hbyte, pow_mul]
  rw [← leBytes_eq_map, show (2 ^ 8 : Nat) = 256 from rfl, leBytes_mod]

/-- The model's increment is the rule's (R188), for either order. -/
theorem incCounter_eq_inc (o : CtrOrder) (rb : List Byte) : incCounter o rb = Spec.inc o rb := by
  cases o with
  | leFull => rw [incCounter, leNat_eq_counter, leBytes_eq_map_mod]; rfl
  | beFull =>
    rw [incCounter, leNat_reverse_eq_counter, leBytes_eq_map_mod]
    refine List.ext_getElem (by simp [Spec.inc]) fun k h1 h2 => ?_
    simp [Spec.inc]

end Sys2Proof.Machine
end

section
/-! The rule of the bound mode (R180 to R189), and its chain over blocks (R176). -/

namespace Sys2Proof.Machine

/-- The model's table of the modes is the rule's; only the increment is written in another way. -/
theorem modeStep_eq_modeRule (s : State) (dir : Dir) (x rb : List Byte) :
    modeStep s.cfg.ctrOrder (encryptBlock s) (decryptBlock s) s.mode dir x rb = Spec.modeRule s dir x rb := by
  unfold Spec.modeRule
  cases s.mode
  case ctr => rw [← incCounter_eq_inc]; cases dir <;> rfl
  all_goals cases dir <;> rfl

/-- The rule of the bound mode depends on the engine, the mode and CTR_ORDER only. -/
theorem modeRule_congr {s u : State} (hcfg : u.cfg = s.cfg) (hvar : u.var = s.var) (hmode : u.mode = s.mode)
    (hks : u.ks = s.ks) (hts : u.ts = s.ts) (dir : Dir) : Spec.modeRule u dir = Spec.modeRule s dir := by
  funext x rb
  simp only [← modeStep_eq_modeRule, hcfg, hmode, funext (encryptBlock_congr hks hts hvar),
    funext (decryptBlock_congr hks hts hvar)]

/-- One block of the rule gives a whole block and a whole register. -/
theorem modeRule_length (s : State) (dir : Dir) {x rb : List Byte} (hx : x.length = blockBytes s.var)
    (hr : rb.length = blockBytes s.var) : (Spec.modeRule s dir x rb).1.length = blockBytes s.var ∧
      (Spec.modeRule s dir x rb).2.length = blockBytes s.var := by
  rw [← modeStep_eq_modeRule]
  exact modeStep_length (encryptBlock_length s) (decryptBlock_length s) s.mode dir hx hr

section
variable {rule : List Byte → List Byte → List Byte × List Byte}

theorem chain_append (xs ys : List (List Byte)) (rb : List Byte) : Spec.chain rule (xs ++ ys) rb
    = ((Spec.chain rule xs rb).1 ++ (Spec.chain rule ys (Spec.chain rule xs rb).2).1,
        (Spec.chain rule ys (Spec.chain rule xs rb).2).2) := by
  induction xs generalizing rb with
  | nil => rfl
  | cons x xs ih => simp only [List.cons_append, Spec.chain, ih, List.append_assoc]

/-- A chain of whole blocks gives as many whole blocks, and a whole register. -/
theorem chain_length {n : Nat}
    (hrule : ∀ x rb, x.length = n → rb.length = n → (rule x rb).1.length = n ∧ (rule x rb).2.length = n)
    {xs : List (List Byte)} (hxs : ∀ x ∈ xs, x.length = n) {rb : List Byte} (hrb : rb.length = n) :
    (Spec.chain rule xs rb).1.length = xs.length * n ∧ (Spec.chain rule xs rb).2.length = n := by
  induction xs generalizing rb with
  | nil => exact ⟨(Nat.zero_mul n).symm, hrb⟩
  | cons x xs ih =>
    obtain ⟨hx, hxs⟩ := List.forall_mem_cons.1 hxs
    obtain ⟨hout, hreg⟩ := hrule x rb hx hrb
    obtain ⟨hrest, hlast⟩ := ih hxs hreg
    exact ⟨by rw [Spec.chain, List.length_append, hout, hrest, List.length_cons, Nat.succ_mul, Nat.add_comm], hlast⟩

end

/-- The chain over the first n blocks of DIN, from the present register (R176). -/
def streamChain (dir : Dir) (n : Nat) (s : State) : List Byte × List Byte :=
  Spec.chain (Spec.modeRule s dir) (Spec.inputBlocks s n) (regBytes s)

theorem register_eq_regBytes (s : State) : Spec.register s = regBytes s := by
  rw [Spec.register, words_eq_wordCount, regBytes]

theorem inputBlocks_eq (s : State) (n : Nat) : Spec.inputBlocks s n
    = (List.range n).map fun i => bufBytes s .din (i * blockBytes s.var) (blockBytes s.var) := by
  simp only [Spec.inputBlocks, bytes_eq_blockBytes]; rfl

theorem inputBlocks_block_length {s : State} {n : Nat} {x : List Byte} (h : x ∈ Spec.inputBlocks s n) :
    x.length = blockBytes s.var := by
  rw [inputBlocks_eq] at h
  obtain ⟨i, -, rfl⟩ := List.mem_map.1 h
  exact bufBytes_length ..

theorem streamChain_length (dir : Dir) (n : Nat) (s : State) :
    (streamChain dir n s).1.length = n * blockBytes s.var ∧ (streamChain dir n s).2.length = blockBytes s.var := by
  have hcount : (Spec.inputBlocks s n).length = n := by simp [Spec.inputBlocks]
  have h := chain_length (fun _ _ => modeRule_length s dir) (fun _ => inputBlocks_block_length (n := n))
    (regBytes_length s)
  rwa [hcount] at h

/-- One more block sees the register the chain so far left (R176). -/
theorem streamChain_succ (dir : Dir) (n : Nat) (s : State) {r : List Byte × List Byte}
    (hr : r
      = Spec.modeRule s dir (bufBytes s .din (n * blockBytes s.var) (blockBytes s.var)) (streamChain dir n s).2) :
    streamChain dir (n + 1) s = ((streamChain dir n s).1 ++ r.1, r.2) := by
  rw [hr, streamChain, inputBlocks_eq, List.range_succ, List.map_append, chain_append, ← inputBlocks_eq]
  simp [Spec.chain, streamChain]

end Sys2Proof.Machine
end

section
/-! XFORM (R175 to R178): where it completes, and that its block loop is the chain of the bound mode's rule. -/

namespace Sys2Proof.Machine

theorem boundStep_eq_modeRule (dir : Dir) (s : State) (x : List Byte) :
    boundStep dir s x = Spec.modeRule s dir x (regBytes s) := modeStep_eq_modeRule s dir x (regBytes s)

/-- The block loop leaves the rule of the bound mode as it was. -/
theorem modeRule_xformBlocks (dir d : Dir) (n : Nat) (s : State) :
    Spec.modeRule (xformBlocks dir n s) d = Spec.modeRule s d := by
  rw [xformBlocks_eq]
  exact modeRule_congr rfl rfl rfl rfl rfl d

@[simp] theorem xformBlocks_var (dir : Dir) (n : Nat) (s : State) : (xformBlocks dir n s).var = s.var := by
  rw [xformBlocks_eq]

/-- The loop of R176 is the chain of the rule: DOUT is filled in order, and DIN, which lies below it, stays. -/
theorem xformBlocks_eq_streamChain (dir : Dir) (s : State) {n : Nat} (hn : n * blockBytes s.var ≤ 4096) :
    (xformBlocks dir n s).mem = s.mem.writeBytes 0x2000 (streamChain dir n s).1 ∧
      regBytes (xformBlocks dir n s) = (streamChain dir n s).2 := by
  induction n with
  | zero => exact ⟨rfl, rfl⟩
  | succ n ih =>
    rw [Nat.succ_mul] at hn
    obtain ⟨hmem, hreg⟩ := ih (by omega)
    have hlen := (streamChain_length dir n s).1
    have hdin : bufBytes (xformBlocks dir n s) .din (n * blockBytes s.var) (blockBytes s.var)
        = bufBytes s .din (n * blockBytes s.var) (blockBytes s.var) := by
      rw [bufBytes, hmem, Memory.readBytes_writeBytes_outside _ _ (.inl (by simp only [bufBase]; omega)), bufBytes]
    have hstep := boundStep_eq_modeRule dir (xformBlocks dir n s)
      (bufBytes s .din (n * blockBytes s.var) (blockBytes s.var))
    rw [modeRule_xformBlocks, hreg] at hstep
    rw [xformBlocks, xformBlock_mem, xformBlock_regBytes, xformBlocks_var, hdin, hmem, streamChain_succ dir n s hstep,
      Memory.writeBytes_append, hlen]
    exact ⟨rfl, rfl⟩

/-- The words of REG above a block stay (R173). -/
theorem xformBlocks_reg_above (dir : Dir) (n : Nat) (s : State) {i : Fin 16} (hi : wordCount s.var ≤ i.val) :
    (xformBlocks dir n s).reg[i] = s.reg[i] := by
  induction n with
  | zero => rfl
  | succ n ih =>
    rw [xformBlocks, xformBlock, putReg_reg, Fin.getElem_fin, Vector.getElem_ofFn, putBuf_var, xformBlocks_var,
      if_neg (Nat.not_lt.2 hi)]
    exact ih

theorem exec_xform (dir : Dir) (s : State) :
    exec (Spec.xform dir) s = .next (xformCommand dir (encode (Spec.xform dir)) s) := by cases dir <;> rfl

theorem xformSize_iff (s : State) : Spec.xformSize s ↔ xformSizeOk s = true := by
  rw [xformSizeOk_iff, Spec.xformSize, bytes_eq_blockBytes]
  rfl

/-- XFORM completes where a stream is open and DATA_LEN is right (R175). -/
theorem exec_xform_of_xformSize {s : State} (dir : Dir) (hphase : s.phase = .stream) (hsize : Spec.xformSize s) :
    exec (Spec.xform dir) s = .next (runXform dir s) := by
  rw [exec_xform, xformCommand, hphase]
  exact congrArg _ (if_pos ((xformSize_iff s).1 hsize))

/-- The number of blocks of an XFORM. -/
def dataBlocks (s : State) : Nat := s.dataLen.toNat / blockBytes s.var

theorem dataBlocks_mul {s : State} (hsize : Spec.xformSize s) : dataBlocks s * blockBytes s.var = s.dataLen.toNat :=
  Nat.div_mul_cancel (Nat.dvd_of_mod_eq_zero ((xformSizeOk_iff s).1 ((xformSize_iff s).1 hsize)).2.1)

theorem dataLen_le {s : State} (hsize : Spec.xformSize s) : s.dataLen.toNat ≤ 4096 :=
  hsize.2.2.trans (dbufBytes_bounds s.cfg).2

theorem runXform_mem {s : State} (dir : Dir) (hsize : Spec.xformSize s) :
    (runXform dir s).mem = s.mem.writeBytes 0x2000 (streamChain dir (dataBlocks s) s).1 :=
  (xformBlocks_eq_streamChain dir s ((dataBlocks_mul hsize).trans_le (dataLen_le hsize))).1

theorem regBytes_runXform {s : State} (dir : Dir) (hsize : Spec.xformSize s) :
    regBytes (runXform dir s) = (streamChain dir (dataBlocks s) s).2 :=
  (xformBlocks_eq_streamChain dir s ((dataBlocks_mul hsize).trans_le (dataLen_le hsize))).2

theorem streamChain_dataBlocks_length {s : State} (dir : Dir) (hsize : Spec.xformSize s) :
    (streamChain dir (dataBlocks s) s).1.length = s.dataLen.toNat := by
  rw [(streamChain_length dir _ s).1, dataBlocks_mul hsize]

/-- XFORM writes memory, REG, OUT_LEN and LASTERR only (R176). -/
theorem runXform_eq (dir : Dir) (s : State) : runXform dir s
    = { s with mem := (runXform dir s).mem, reg := (runXform dir s).reg, outLen := s.dataLen, lastErr := none } := by
  rw [runXform, xformBlocks_eq]
  rfl

/-- A byte string stored at the base of DOUT is what R77 says DOUT holds. -/
theorem doutHolds_writeBytes {m : Memory} (hm : m.wf = true) (bs : List Byte) :
    Spec.doutHolds m (m.writeBytes 0x2000 bs) bs := by
  refine ⟨fun k hk => ?_, fun a ha => ?_⟩
  · rw [Memory.read_writeBytes_inside hm _ _ hk, List.getD_eq_getElem _ _ hk]
  · exact Memory.read_writeBytes_outside m bs (by omega)

/-- Settles O31: the block loop is the chain, and XFORM writes nothing but its outputs, REG, OUT_LEN and LASTERR. -/
theorem xformChainsTheModeRule : Obligations.XformChainsTheModeRule := by
  intro s dir hm hphase hsize
  have hchain : Spec.chain (Spec.modeRule s dir) (Spec.inputBlocks s (s.dataLen.toNat / Spec.bytes s.var))
      (Spec.register s) = streamChain dir (dataBlocks s) s := by
    rw [register_eq_regBytes, bytes_eq_blockBytes, streamChain, dataBlocks]
  rw [hchain, words_eq_wordCount]
  refine ⟨(runXform dir s).mem, (runXform dir s).reg, ?_, ?_, streamChain_dataBlocks_length dir hsize, ?_,
    fun i hi => xformBlocks_reg_above dir _ s hi⟩
  · rw [exec_xform_of_xformSize dir hphase hsize, ← runXform_eq]
  · rw [runXform_mem dir hsize]
    exact doutHolds_writeBytes hm _
  · rw [← regBytes_runXform dir hsize, regBytes, runXform_eq]

end Sys2Proof.Machine
end

section
/-! The round trip of R195: one block, a chain of blocks, an XFORM, and at last the whole stream. -/

namespace Sys2Proof.Machine

@[simp] theorem xor_length (x y : List Byte) : (Spec.xor x y).length = min x.length y.length := xorBytes_length x y

theorem xor_cancel {x y : List Byte} (h : x.length = y.length) : Spec.xor (Spec.xor x y) y = x := xorBytes_cancel h

/-- Decrypting the output of one block from the same register gives the block back and the same next register. -/
theorem modeRule_decrypt_encrypt (s : State) {x rb : List Byte} (hx : x.length = blockBytes s.var)
    (hrb : rb.length = blockBytes s.var) : Spec.modeRule s .decrypt (Spec.modeRule s .encrypt x rb).1 rb
      = (x, (Spec.modeRule s .encrypt x rb).2) := by
  have hpad : Spec.xor (Spec.xor x (encryptBlock s rb)) (encryptBlock s rb) = x := xor_cancel (by simp [hx])
  cases hmode : s.mode <;> simp only [Spec.modeRule, hmode, hpad]
  case ecb => rw [decryptBlock_encryptBlock hx]
  case cbc =>
    rw [decryptBlock_encryptBlock (show (Spec.xor x rb).length = _ by simp [hx, hrb]), xor_cancel (by rw [hx, hrb])]

/-! A byte string cut into blocks. -/

theorem blockBytes_pos (v : Variant) : 0 < blockBytes v := Nat.mul_pos (by decide) (wordCount_pos v)

/-- A whole block in front is the first block. -/
theorem blocksOf_append {n : Nat} (hn : 0 < n) {x : List Byte} (hx : x.length = n) (bs : List Byte) :
    Spec.blocksOf n (x ++ bs) = x :: Spec.blocksOf n bs := by
  rw [Spec.blocksOf, List.length_append, hx, Nat.add_div_left _ hn, List.range_succ_eq_map, List.map_cons, List.map_map,
    Nat.zero_mul, List.drop_zero, List.take_left' hx]
  refine congrArg (x :: ·) (List.map_congr_left fun i _ => ?_)
  rw [Function.comp, Nat.succ_mul, Nat.add_comm, ← List.drop_drop, List.drop_left' hx]

/-- Cutting what is n whole blocks joined gives the blocks. -/
theorem blocksOf_flatten {n : Nat} (hn : 0 < n) {xs : List (List Byte)} (hxs : ∀ x ∈ xs, x.length = n) :
    Spec.blocksOf n xs.flatten = xs := by
  induction xs with
  | nil => simp [Spec.blocksOf]
  | cons x xs ih =>
    obtain ⟨hx, hxs⟩ := List.forall_mem_cons.1 hxs
    rw [List.flatten_cons, blocksOf_append hn hx, ih hxs]

theorem Memory.readBytes_add (m : Memory) (a n k : Nat) :
    m.readBytes a (n + k) = m.readBytes a n ++ m.readBytes (a + n) k := by
  simp [Memory.readBytes, List.range_add, Nat.add_assoc]

/-- The input blocks of XFORM, joined, are what DIN holds. -/
theorem flatten_inputBlocks (s : State) (n : Nat) :
    (Spec.inputBlocks s n).flatten = s.mem.readBytes 0x1000 (n * blockBytes s.var) := by
  induction n with
  | zero => rw [Nat.zero_mul]; rfl
  | succ n ih =>
    rw [Nat.succ_mul, Memory.readBytes_add, ← ih, inputBlocks_eq, inputBlocks_eq, List.range_succ, List.map_append,
      List.flatten_append]
    exact congrArg _ (List.append_nil _)

theorem inputBlocks_eq_blocksOf (s : State) (n : Nat) :
    Spec.inputBlocks s n = Spec.blocksOf (blockBytes s.var) (s.mem.readBytes 0x1000 (n * blockBytes s.var)) := by
  rw [← flatten_inputBlocks, blocksOf_flatten (blockBytes_pos _) fun _ => inputBlocks_block_length]

/-- Decrypting a chain from the register it began with gives the blocks back and the same last register. -/
theorem chain_decrypt_encrypt (s : State) {xs : List (List Byte)} (hxs : ∀ x ∈ xs, x.length = blockBytes s.var)
    {rb : List Byte} (hrb : rb.length = blockBytes s.var) :
    Spec.chain (Spec.modeRule s .decrypt)
        (Spec.blocksOf (blockBytes s.var) (Spec.chain (Spec.modeRule s .encrypt) xs rb).1) rb
      = (xs.flatten, (Spec.chain (Spec.modeRule s .encrypt) xs rb).2) := by
  induction xs generalizing rb with
  | nil => simp [Spec.chain, Spec.blocksOf]
  | cons x xs ih =>
    obtain ⟨hx, hxs⟩ := List.forall_mem_cons.1 hxs
    obtain ⟨hout, hreg⟩ := modeRule_length s .encrypt hx hrb
    rw [Spec.chain, blocksOf_append (blockBytes_pos _) hout, Spec.chain, modeRule_decrypt_encrypt s hx hrb, ih hxs hreg,
      List.flatten_cons]

/-- The same for the blocks of DIN: `c` has the rule and the register of `s`, and its DIN holds what `s` encrypts to. -/
theorem streamChain_decrypt_encrypt {s c : State} {n : Nat}
    (hrule : Spec.modeRule c .decrypt = Spec.modeRule s .decrypt) (hvar : c.var = s.var)
    (hreg : regBytes c = regBytes s)
    (hdin : c.mem.readBytes 0x1000 (n * blockBytes s.var) = (streamChain .encrypt n s).1) :
    (streamChain .decrypt n c).1 = s.mem.readBytes 0x1000 (n * blockBytes s.var) := by
  rw [streamChain, hrule, hreg, inputBlocks_eq_blocksOf, hvar, hdin, streamChain,
    chain_decrypt_encrypt s (fun _ => inputBlocks_block_length) (regBytes_length s), flatten_inputBlocks]

/-- The bytes of DOUT after XFORM are the outputs of the chain (R176). -/
theorem readBytes_runXform {s : State} (dir : Dir) (hm : s.mem.wf = true) (hsize : Spec.xformSize s) :
    (runXform dir s).mem.readBytes 0x2000 s.dataLen.toNat = (streamChain dir (dataBlocks s) s).1 := by
  rw [runXform_mem dir hsize, ← streamChain_dataBlocks_length dir hsize, Memory.readBytes_writeBytes_same hm]

/-- Memories that give the same byte string read alike there. -/
theorem Memory.read_eq_of_readBytes_eq {m m' : Memory} {a a' n k : Nat} (h : m.readBytes a n = m'.readBytes a' n)
    (hk : k < n) : m.read (a + k) = m'.read (a' + k) := by
  have hget := congrArg (fun bs => bs.getD k 0) h
  simpa [hk] using hget

/-- `t` has the parameters and the engine of `s`, and its lengths of IV and data. -/
def SameEngine (s t : State) : Prop :=
  t.cfg = s.cfg ∧ t.var = s.var ∧ t.ks = s.ks ∧ t.ts = s.ts ∧ t.ivLen = s.ivLen ∧ t.dataLen = s.dataLen

theorem sameEngine_runXform (dir : Dir) (s : State) : SameEngine s (runXform dir s) := by
  rw [runXform_eq]
  exact ⟨rfl, rfl, rfl, rfl, rfl, rfl⟩

theorem SameEngine.xformSize {s c : State} (h : SameEngine s c) (hsize : Spec.xformSize s) : Spec.xformSize c := by
  obtain ⟨hcfg, hvar, -, -, -, hdata⟩ := h
  rwa [xformSize_iff, xformSizeOk, hcfg, hvar, hdata, ← xformSizeOk, ← xformSize_iff]

theorem SameEngine.dataBlocks {s c : State} (h : SameEngine s c) : dataBlocks c = dataBlocks s := by
  obtain ⟨-, hvar, -, -, -, hdata⟩ := h
  rw [Machine.dataBlocks, hvar, hdata, Machine.dataBlocks]

/-- XFORM.D undoes XFORM.E: `c` has the engine, the mode and the register of `s`, and its DIN holds what XFORM.E left in
DOUT. -/
theorem runXform_decrypt_encrypt {s c : State} (hm : s.mem.wf = true) (hcm : c.mem.wf = true) (hsize : Spec.xformSize s)
    (hsame : SameEngine s c) (hmode : c.mode = s.mode) (hreg : regBytes c = regBytes s)
    (hdin : c.mem.readBytes 0x1000 s.dataLen.toNat = (runXform .encrypt s).mem.readBytes 0x2000 s.dataLen.toNat) :
    (runXform .decrypt c).mem.readBytes 0x2000 s.dataLen.toNat = s.mem.readBytes 0x1000 s.dataLen.toNat := by
  have ⟨hcfg, hvar, hks, hts, _, hdata⟩ := hsame
  have hplain := readBytes_runXform .decrypt hcm (hsame.xformSize hsize)
  rw [hdata, hsame.dataBlocks] at hplain
  rw [readBytes_runXform .encrypt hm hsize, ← dataBlocks_mul hsize] at hdin
  rw [hplain, ← dataBlocks_mul hsize]
  exact streamChain_decrypt_encrypt (modeRule_congr hcfg hvar hmode hks hts .decrypt) hvar hreg hdin

theorem eq_openStream {s t : State} {m : Mode} (h : exec (Spec.start m) s = .next t) (hengine : Spec.engine s)
    (hiv : s.ivLen.toNat = Spec.bytes s.var) : openStream m s = t :=
  Host.Outcome.next.inj ((exec_start_of_ivLen m hengine hiv).symm.trans h)

theorem eq_runXform {s t : State} {dir : Dir} (h : exec (Spec.xform dir) s = .next t) (hphase : s.phase = .stream)
    (hsize : Spec.xformSize s) : runXform dir s = t :=
  Host.Outcome.next.inj ((exec_xform_of_xformSize dir hphase hsize).symm.trans h)

/-- Settles O33: both STARTs load the same register, and XFORM.D undoes XFORM.E from the same register. -/
theorem streamRoundTripReturnsThePlaintext : Obligations.StreamRoundTripReturnsThePlaintext := by
  intro s s1 s2 c c1 c2 m hm hengine hiv hsize h1 h2 hc hcm hdin hivbuf h3 h4 k hk
  obtain rfl := eq_openStream h1 hengine hiv
  obtain rfl := eq_runXform (dir := .encrypt) h2 rfl hsize
  have hsame : SameEngine s c := by rw [hc]; exact sameEngine_runXform .encrypt (openStream m s)
  have hphase : c.phase = .stream := by rw [hc]; exact xformBlocks_phase .encrypt _ (openStream m s)
  have ⟨_, hvar, _, _, hivLen, _⟩ := hsame
  obtain rfl := eq_openStream h3 (.inr hphase) (by rw [hivLen, hvar, hiv])
  obtain rfl := eq_runXform (dir := .decrypt) h4 rfl (hsame.xformSize hsize)
  rw [bytes_eq_blockBytes] at hivbuf
  have hreg : regBytes (openStream m c) = regBytes (openStream m s) := by
    rw [regBytes_openStream, regBytes_openStream, hvar, Memory.readBytes_congr hivbuf]
  have hplain := runXform_decrypt_encrypt (s := openStream m s) (c := openStream m c) hm hcm hsize hsame rfl hreg
    (Memory.readBytes_congr hdin)
  exact Memory.read_eq_of_readBytes_eq hplain hk

end Sys2Proof.Machine
end

section
/-! A command completes and leaves ERRSTAT and ERRINFO, or fails in `Spec.failed` (R262, R263). Every failing command
ends in `raiseSize` or `raiseCause`, so there is one rule for each of the two, and then the case of each kind of word; a
completed command has ERRSTAT and ERRINFO in its frame. -/

namespace Sys2Proof.Machine

/-- What O39 says of the word `w`, run in `s`, with `t` the next state. -/
def CompletesOrFails (w : Reg32) (s t : State) : Prop :=
  (t.lastErr = none ∧ t.errStat = s.errStat ∧ t.errInfo = s.errInfo) ∨
  ∃ (c : Cause) (expect what : Nat), c ≠ .invalidPadding ∧ expect < 256 ∧ what < 8 ∧
    Spec.errorDetail s w c expect what ∧ t = Spec.failed c expect what w s

theorem blockBytes_lt (v : Variant) : blockBytes v < 256 := by cases v <;> decide

theorem whatCode_lt (l : LengthName) : whatCode l < 8 := by cases l <;> decide

section
variable {w : Reg32} {s : State}

/-- Every cause but SizeError comes with EXPECT and WHAT 0 (R252, R253, R255, R256). -/
theorem CompletesOrFails.ofRaiseCause {c : Cause} (hpad : c ≠ .invalidPadding) (hsize : c ≠ .size) :
    CompletesOrFails w s (raiseCause c w s) :=
  .inr ⟨c, 0, 0, hpad, by decide, by decide, ⟨fun _ => ⟨rfl, rfl⟩, fun h => absurd h hsize⟩, raiseCause_eq_failed c w s⟩

/-- SizeError names a length register and a size that fit ERRINFO (R41, R251). -/
theorem CompletesOrFails.ofRaiseSize {l : LengthName} {e : Nat} (he : e < 256)
    (hdetail : Spec.errorDetail s w .size e (whatCode l)) : CompletesOrFails w s (raiseSize l e w s) :=
  .inr ⟨.size, e, whatCode l, by decide, he, whatCode_lt l, hdetail, raiseError_eq_failed .size he (whatCode_lt l) w s⟩

/-! The commands, one lemma for each kind: each reports the size it requires (R121, R153, R171, R175). -/

theorem initEngine_completesOrFails {v : Variant} (hw : w = Spec.wordOf (Spec.init v)) :
    CompletesOrFails w s (initEngine v w s) := by
  obtain ⟨hkey, h⟩ | ⟨-, htwk, h⟩ | ⟨-, -, h⟩ := initEngine_cases v w s <;> rw [h]
  · exact .ofRaiseSize (blockBytes_lt v)
      ⟨absurd rfl, fun _ => .inl ⟨v, hw, (bytes_eq_blockBytes v).symm, rfl, hkey⟩⟩
  · exact .ofRaiseSize (by decide) ⟨absurd rfl, fun _ => .inr (.inl ⟨v, hw, rfl, rfl, htwk⟩)⟩
  · exact .inl ⟨rfl, rfl, rfl⟩

theorem startStream_completesOrFails {m : Mode} (hw : w = Spec.wordOf (Spec.start m)) :
    CompletesOrFails w s (startStream m w s) := by
  obtain ⟨-, h⟩ | ⟨-, h⟩ | ⟨-, hiv, h⟩ | ⟨-, -, h⟩ := startStream_cases m w s <;> rw [h]
  · exact .ofRaiseCause (by decide) (by decide)
  · exact .ofRaiseCause (by decide) (by decide)
  · exact .ofRaiseSize (blockBytes_lt s.var)
      ⟨absurd rfl, fun _ => .inr (.inr (.inl ⟨m, hw, (bytes_eq_blockBytes s.var).symm, rfl, hiv⟩))⟩
  · exact .inl ⟨rfl, rfl, rfl⟩

theorem blockCommand_completesOrFails {dir : Dir} (f : List Byte → List Byte) (hw : w = Spec.wordOf (Spec.block dir)) :
    CompletesOrFails w s (blockCommand f w s) := by
  obtain ⟨-, h⟩ | ⟨-, h⟩ | ⟨-, hdata, h⟩ | ⟨-, -, h⟩ := blockCommand_cases f w s <;> rw [h]
  · exact .ofRaiseCause (by decide) (by decide)
  · exact .ofRaiseCause (by decide) (by decide)
  · exact .ofRaiseSize (blockBytes_lt s.var)
      ⟨absurd rfl, fun _ => .inr (.inr (.inr (.inl ⟨dir, hw, (bytes_eq_blockBytes s.var).symm, rfl, hdata⟩)))⟩
  · exact .inl ⟨rfl, rfl, rfl⟩

/-- A completed XFORM has ERRSTAT and ERRINFO in its frame, by `runXform_eq`. -/
theorem xformCommand_completesOrFails {dir : Dir} (hw : w = Spec.wordOf (Spec.xform dir)) :
    CompletesOrFails w s (xformCommand dir w s) := by
  obtain ⟨-, h⟩ | ⟨-, h⟩ | ⟨-, hdata, h⟩ | ⟨-, -, h⟩ := xformCommand_cases dir w s <;> rw [h]
  · exact .ofRaiseCause (by decide) (by decide)
  · exact .ofRaiseCause (by decide) (by decide)
  · have hwrong : ¬ (0 < s.dataLen.toNat ∧ s.dataLen.toNat % blockBytes s.var = 0 ∧ s.dataLen.toNat ≤ Spec.dbuf s) :=
      fun hright => Bool.false_ne_true (hdata.symm.trans ((xformSizeOk_iff s).2 hright))
    exact .ofRaiseSize (blockBytes_lt s.var)
      ⟨absurd rfl, fun _ => .inr (.inr (.inr (.inr ⟨dir, hw, (bytes_eq_blockBytes s.var).symm, rfl, hwrong⟩)))⟩
  · rw [runXform_eq]
    exact .inl ⟨rfl, rfl, rfl⟩

end

section
variable {s t : State}

theorem exec_completesOrFails {i : Instr} (h : exec i s = .next t) : CompletesOrFails (encode i) s t := by
  have hw := encode_eq_wordOf i
  obtain ⟨v, rfl, rfl⟩ | ⟨dir, f, rfl, -, rfl⟩ | ⟨m, rfl, rfl⟩ | ⟨dir, rfl, rfl⟩ | ⟨-, rfl⟩ := exec_cases h
  · exact initEngine_completesOrFails hw
  · exact blockCommand_completesOrFails f hw
  · exact startStream_completesOrFails hw
  · exact xformCommand_completesOrFails hw
  · exact .inl ⟨rfl, rfl, rfl⟩

/-- A reserved START reports the phase or the configuration, never a size or a padding (R98). -/
theorem reservedStart_cause (p : Phase) : (needsEngine p).getD .unsupportedConfiguration ≠ .invalidPadding ∧
    (needsEngine p).getD .unsupportedConfiguration ≠ .size := by
  cases p <;> decide

theorem runCommand_completesOrFails {w : Reg32} (h : runCommand w s = .next t) : CompletesOrFails w s t := by
  cases hw : decode w with
  | legal i =>
    obtain rfl := decode_eq_legal_iff.1 hw
    rw [runCommand, hw] at h
    exact exec_completesOrFails h
  | reservedInit =>
    rw [runCommand_of_reservedInit hw, ← raiseCause_eq_failed] at h
    obtain rfl := Host.Outcome.next.inj h
    exact .ofRaiseCause (by decide) (by decide)
  | reservedStart =>
    rw [runCommand_of_reservedStart hw, ← raiseCause_eq_failed] at h
    obtain rfl := Host.Outcome.next.inj h
    exact (reservedStart_cause s.phase).elim .ofRaiseCause
  | illegal =>
    rw [runCommand_of_illegal hw, ← raiseCause_eq_failed] at h
    obtain rfl := Host.Outcome.next.inj h
    exact .ofRaiseCause (by decide) (by decide)

end

/-- Settles O39: the word runs in the state without its event, whose registers are those of `s`. -/
theorem failedCommandChangesOnlyErrorRegisters : Obligations.FailedCommandChangesOnlyErrorRegisters := by
  intro s t w rest hin h
  rw [step_of_command hin] at h
  exact runCommand_completesOrFails h

end Sys2Proof.Machine
end

section
/-! The invariant of TFE's state (10_state.md): it holds after reset, and every event that is served keeps it. Each
update of the state touches a few of its ten parts; the others pass over unchanged. -/

namespace Sys2Proof.Machine

/-- The parts of `State.inv`, by name. -/
structure Invariant (s : State) : Prop where
  canonical : s.mem.wf = true
  inBuffers : memoryInBuffers s = true
  errStat : errStatOk s = true
  errInfo : errInfoOk s = true
  lastErr : lastErrOk s = true
  var : varOk s = true
  mode : modeOk s = true
  schedules : schedulesOk s = true
  reg : regOk s = true
  outLen : outLenOk s = true

theorem inv_iff (s : State) : s.inv = true ↔ Invariant s := by
  simp only [State.inv, Bool.and_eq_true, and_assoc]
  exact ⟨fun ⟨h1, h2, h3, h4, h5, h6, h7, h8, h9, h10⟩ => ⟨h1, h2, h3, h4, h5, h6, h7, h8, h9, h10⟩,
    fun ⟨h1, h2, h3, h4, h5, h6, h7, h8, h9, h10⟩ => ⟨h1, h2, h3, h4, h5, h6, h7, h8, h9, h10⟩⟩

/-! Memory inside the buffers (R61). -/

theorem memoryInBuffers_iff (s : State) : memoryInBuffers s = true ↔
    ∀ c ∈ s.mem, hostWritable s.cfg c.1 = true ∨ inBuffer s.cfg .dout c.1 = true := by
  simp [memoryInBuffers]

/-- Bytes stored at the base of DOUT, no more than it holds, stay inside it. -/
theorem memoryInBuffers_writeBytes {s t : State} {bs : List Byte} (hcfg : t.cfg = s.cfg)
    (hmem : t.mem = s.mem.writeBytes 0x2000 bs) (hbs : bs.length ≤ dbufBytes s.cfg) (h : memoryInBuffers s = true) :
    memoryInBuffers t = true := by
  rw [memoryInBuffers_iff] at h ⊢
  intro c hc
  rw [hmem] at hc
  rw [hcfg]
  obtain hold | hnew := Memory.mem_writeBytes hc
  · exact h c hold
  · exact .inr ((inDout_iff _ _).2 (by omega))

theorem memoryInBuffers_bufStore (a : Nat) (b : Byte) {s : State} (h : memoryInBuffers s = true) :
    memoryInBuffers (bufStore a b s) = true := by
  unfold bufStore
  split
  next hwritable =>
    rw [memoryInBuffers_iff] at h ⊢
    intro c hc
    obtain hold | ⟨rfl, -⟩ := Memory.mem_write hc
    · exact h c hold
    · exact .inl hwritable
  next => exact h

/-! The reserved bits of ERRSTAT and ERRINFO (R34, R41). -/

theorem errStatOk_iff (s : State) : errStatOk s = true ↔ s.errStat &&& ~~~errStatMask = 0 := by
  simp [errStatOk]

/-- The cause bits but the host's lie inside the mask of ERRSTAT. -/
theorem setErrBit_and_not_mask {e : Reg32} {c : Cause} (hc : c ≠ .invalidPadding) :
    setErrBit e c &&& ~~~errStatMask = e &&& ~~~errStatMask := by
  have hbit : BitVec.ofNat 32 (2 ^ causeCode c) &&& ~~~errStatMask = 0#32 := by
    cases c
    case invalidPadding => exact absurd rfl hc
    all_goals rfl
  rw [setErrBit, BitVec.and_comm, BitVec.and_or_distrib_left, BitVec.and_comm _ (BitVec.ofNat 32 _), hbit,
    BitVec.or_zero, BitVec.and_comm]

theorem clearErrBits_and_not_mask {e v : Reg32} (h : e &&& ~~~errStatMask = 0) :
    clearErrBits e v &&& ~~~errStatMask = 0 := by
  rw [clearErrBits, BitVec.and_assoc, BitVec.and_comm (~~~v), ← BitVec.and_assoc, h]
  exact BitVec.zero_and

/-- ERRINFO is put together with 00000 in its bits 7 to 3 (R262). -/
theorem errInfoOk_errInfoWord (w : Reg32) (e k : Nat) : (errInfoWord w e k).extractLsb' 3 5 = 0 := by
  unfold errInfoWord
  refine BitVec.eq_of_getLsbD_eq fun i hi => ?_
  rw [BitVec.getLsbD_extractLsb']
  erw [BitVec.getLsbD_append, BitVec.getLsbD_append]
  have hlow : ¬ 3 + i < 3 := by omega
  simp [hlow, hi]

/-! Zero words (R21, R23). -/

theorem zeroFrom_iff {n : Nat} (k : Nat) (v : Vector Word n) :
    zeroFrom k v.toList = true ↔ ∀ i : Fin n, k ≤ i.val → v[i] = 0 := by
  simp only [zeroFrom, List.all_eq_true, beq_iff_eq, List.mem_drop_iff_getElem]
  constructor
  · intro h i hi
    exact h _ ⟨i.val - k, by simp; omega, by simp [Nat.add_sub_cancel' hi]⟩
  · rintro h _ ⟨j, hj, rfl⟩
    simpa using h ⟨k + j, by simp at hj; omega⟩ (by simp)

theorem zeroFrom_replicate (n k : Nat) : zeroFrom k (Vector.replicate n (0 : Word)).toList = true :=
  (zeroFrom_iff k _).2 fun i _ => by simp

/-! INIT's schedules (R21, R22, R123, R124). -/

theorem foldl_xor_eq (p : Word) (ws : List Word) :
    ws.foldl (fun p w => p ^^^ w) p = p ^^^ ws.foldl (fun p w => p ^^^ w) 0 := by
  rw [← List.foldl_assoc (op := fun p w : Word => p ^^^ w)]
  exact congrArg (ws.foldl _) BitVec.xor_zero.symm

@[simp] theorem keyWords_length (v : Variant) (s : State) : (keyWords v s).length = wordCount v := by simp [keyWords]

/-- The exclusive or of all key words and the parity word is C240 (R47). -/
theorem foldl_xor_parity (k : List Word) : (k ++ [parityWord k]).foldl (fun p w => p ^^^ w) 0 = c240 := by
  rw [List.foldl_append, List.foldl_cons, List.foldl_nil, parityWord, foldl_xor_eq c240, BitVec.xor_comm,
    BitVec.xor_assoc, BitVec.xor_self, BitVec.xor_zero]

theorem take_keySchedule (v : Variant) (s : State) : (keySchedule v s).toList.take (wordCount v + 1)
    = keyWords v s ++ [parityWord (keyWords v s)] := by
  have hw := wordCount_le v
  refine List.ext_getElem (by simp; omega) fun i _ hi => ?_
  simp [keySchedule, List.getElem?_eq_getElem hi]

theorem zeroFrom_keySchedule (v : Variant) (s : State) :
    zeroFrom (wordCount v + 1) (keySchedule v s).toList = true := by
  refine (zeroFrom_iff _ _).2 fun i hi => ?_
  rw [keySchedule, Fin.getElem_fin, Vector.getElem_ofFn, List.getD_eq_default _ _ (by simpa using hi)]

theorem schedulesOk_bindEngine (v : Variant) (s : State) : schedulesOk (bindEngine v s) = true := by
  have hphase : (bindEngine v s).phase = .keyed := rfl
  have hks : (bindEngine v s).ks = keySchedule v s := rfl
  have hvar : (bindEngine v s).var = v := rfl
  have hts : (bindEngine v s).ts[2] = (bindEngine v s).ts[0] ^^^ (bindEngine v s).ts[1] := rfl
  rw [schedulesOk, hphase, hks, hvar, take_keySchedule, foldl_xor_parity, zeroFrom_keySchedule, hts]
  simp

/-! What each effect keeps. -/

section
variable {s : State}

theorem Invariant.raiseError (h : Invariant s) {c : Cause} (hc : c ≠ .invalidPadding) (e k : Nat) (w : Reg32) :
    Invariant (raiseError c e k w s) :=
  { h with
    errStat := (errStatOk_iff _).2 ((setErrBit_and_not_mask hc).trans ((errStatOk_iff s).1 h.errStat))
    errInfo := by simp [errInfoOk, errInfoOk_errInfoWord]
    lastErr := by simp [lastErrOk, hc]
    outLen := by simp [outLenOk] }

theorem Invariant.bindEngine (h : Invariant s) (v : Variant) : Invariant (bindEngine v s) :=
  { h with
    lastErr := rfl
    var := rfl
    mode := rfl
    schedules := schedulesOk_bindEngine v s
    reg := zeroFrom_replicate 16 0
    outLen := by simp [outLenOk, Machine.bindEngine] }

theorem blockBytes_le (v : Variant) : blockBytes v ≤ 128 := by cases v <;> decide

theorem Invariant.runBlock (h : Invariant s) {f : List Byte → List Byte} (hf : ∀ x, (f x).length = blockBytes s.var) :
    Invariant (runBlock f s) := by
  have hblock : blockBytes s.var ≤ dbufBytes s.cfg := (blockBytes_le _).trans (dbufBytes_bounds _).1
  have hle := blockBytes_le s.var
  exact { h with
    canonical := Memory.wf_writeBytes h.canonical _ _
    inBuffers := memoryInBuffers_writeBytes (s := s) rfl rfl ((hf _).trans_le hblock) h.inBuffers
    lastErr := rfl
    outLen := by
      simp only [outLenOk, Machine.runBlock, complete_outLen, complete_cfg, putBuf_cfg, BitVec.toNat_ofNat,
        decide_eq_true_eq]
      omega }

theorem regOk_of_stream (hp : s.phase = .stream) (h : ∀ i : Fin 16, wordCount s.var ≤ i.val → s.reg[i] = 0) :
    regOk s = true := by
  simp only [regOk, hp]
  exact (zeroFrom_iff _ _).2 h

/-- An open stream has an engine, so what START and XFORM need of the phase is one of two. -/
theorem schedulesOk_congr {t : State} (hs : s.phase = .keyed ∨ s.phase = .stream) (ht : t.phase = .stream)
    (hvar : t.var = s.var) (hks : t.ks = s.ks) (hts : t.ts = s.ts) (h : schedulesOk s = true) :
    schedulesOk t = true := by
  obtain hs | hs := hs <;> simpa [schedulesOk, hs, ht, hvar, hks, hts] using h

theorem Invariant.openStream (h : Invariant s) (m : Mode) (hp : s.phase = .keyed ∨ s.phase = .stream) :
    Invariant (openStream m s) :=
  { h with
    lastErr := rfl
    var := rfl
    mode := rfl
    schedules := schedulesOk_congr hp rfl rfl rfl rfl h.schedules
    reg := regOk_of_stream rfl fun i hi => by
      rw [openStream_reg, Fin.getElem_fin, Vector.getElem_ofFn]
      exact if_neg (Nat.not_lt.2 hi)
    outLen := by simp [outLenOk, Machine.openStream] }

theorem Invariant.runXform (h : Invariant s) (dir : Dir) (hp : s.phase = .stream) (hsize : xformSizeOk s = true) :
    Invariant (runXform dir s) := by
  have hspec := (xformSize_iff s).2 hsize
  obtain ⟨-, -, hdata⟩ := (xformSizeOk_iff s).1 hsize
  have hmem := runXform_mem dir hspec
  have hreg (i : Fin 16) (hi : wordCount s.var ≤ i.val) : (Machine.runXform dir s).reg[i] = 0 := by
    have hs := h.reg
    simp only [regOk, hp] at hs
    exact (xformBlocks_reg_above dir _ s hi).trans ((zeroFrom_iff _ _).1 hs i hi)
  have hbuffers := memoryInBuffers_writeBytes (t := Machine.runXform dir s) (by rw [runXform_eq]) hmem
    ((streamChain_dataBlocks_length dir hspec).trans_le hdata) h.inBuffers
  have hwf : (Machine.runXform dir s).mem.wf = true := hmem ▸ Memory.wf_writeBytes h.canonical _ _
  rw [runXform_eq] at hbuffers ⊢
  exact { h with
    canonical := hwf
    inBuffers := hbuffers
    lastErr := rfl
    reg := regOk_of_stream hp hreg
    outLen := by simpa [outLenOk] using hdata }

/-- With no engine and no secret left there is nothing to keep but the reserved bits (R240, R241). -/
theorem Invariant.scrub (h : Invariant s) : Invariant (scrub s) :=
  { h with
    canonical := rfl
    inBuffers := rfl
    lastErr := rfl
    var := rfl
    mode := rfl
    schedules := rfl
    reg := rfl
    outLen := by simp [outLenOk, Machine.scrub] }

theorem invariant_hardReset (s : State) : Invariant (hardReset s) where
  canonical := rfl
  inBuffers := rfl
  errStat := by simp [errStatOk]
  errInfo := by simp [errInfoOk]
  lastErr := rfl
  var := rfl
  mode := rfl
  schedules := rfl
  reg := rfl
  outLen := by simp [outLenOk]

theorem Invariant.observe (h : Invariant s) (r : ReadValue) : Invariant (observe r s) := { h with }

theorem Invariant.csrStore (h : Invariant s) (a : Nat) (v : Reg32) : Invariant (csrStore a v s) := by
  have hclear := clearErrBits_and_not_mask (v := v) ((errStatOk_iff s).1 h.errStat)
  unfold Machine.csrStore
  split
  case h_1 => exact { h with errStat := (errStatOk_iff _).2 hclear }
  all_goals exact { h with }

theorem Invariant.bufStore (h : Invariant s) (a : Nat) (b : Byte) : Invariant (bufStore a b s) := by
  have hbuffers := memoryInBuffers_bufStore a b h.inBuffers
  unfold Machine.bufStore at hbuffers ⊢
  split
  next hwritable =>
    rw [if_pos hwritable] at hbuffers
    exact { h with canonical := Memory.wf_write h.canonical a b, inBuffers := hbuffers }
  next => exact h

theorem Invariant.command {t : State} (h : Invariant s) (he : CommandEffect s t) : Invariant t := by
  cases he with
  | failed c e k w hc => exact h.raiseError hc e k w
  | bound v _ _ => exact h.bindEngine v
  | block f hf _ _ =>
    refine h.runBlock ?_
    obtain rfl | rfl := hf
    · exact encryptBlock_length s
    · exact decryptBlock_length s
  | opened m hp _ => exact h.openStream m hp
  | transformed dir hp hsize => exact h.runXform dir hp hsize
  | scrubbed => exact h.scrub

theorem Invariant.event {t : State} (h : Invariant s) (he : EventEffect s t) : Invariant t := by
  cases he with
  | read r => exact h.observe r
  | register a v => exact h.csrStore a v
  | byte a b => exact h.bufStore a b
  | command _ he => exact h.command he
  | reset => exact invariant_hardReset s

/-- The events still to come are no part of the invariant. -/
theorem Invariant.takeEvent (h : Invariant s) (rest : List Event) : Invariant { s with inputs := rest } := { h with }

end

/-- Settles O46: a step waits or serves one event, and the effect of every event keeps the ten parts. -/
theorem stepKeepsTheInvariant : Obligations.StepKeepsTheInvariant := by
  intro s t hs hstep
  rw [inv_iff] at hs ⊢
  obtain ⟨-, rfl⟩ | ⟨e, rest, -, -, heffect⟩ := step_effect hstep
  · exact hs
  · exact (hs.takeEvent rest).event heffect

theorem inv_resetWith (c : Config) : (State.resetWith c).inv = true :=
  (inv_iff _).2 (invariant_hardReset (State.resetWith c))

/-- Settles O45: reset with any parameters leads to what the reset event leads to. -/
theorem invariantHoldsAtReset : Obligations.InvariantHoldsAtReset :=
  ⟨inv_resetWith Config.default, inv_resetWith⟩

end Sys2Proof.Machine
end

section
/-! The seven checks of WellFormed are exactly those of the decoder (30_encoding.md R90 to R99). -/

namespace Sys2Proof

theorem wellFormed_iff (f : CommandFields) : f.wellFormed = true ↔
    f.zero = 0 ∧ (1 ≤ f.op.toNat ∧ f.op.toNat ≤ 5) ∧ (f.dir = 0 ∨ f.op = 2 ∨ f.op = 4) ∧ (f.mode = 0 ∨ f.op = 3) ∧
      (f.var = 0 ∨ f.op = 1) ∧ f.var ≠ 3 ∧ f.mode.toNat ≤ 4 := by
  simp [CommandFields.wellFormed, CommandFields.zeroIsZero, CommandFields.opExists, CommandFields.dirAllowed,
    CommandFields.modeAllowed, CommandFields.varAllowed, CommandFields.varExists, CommandFields.modeExists, and_assoc,
    or_assoc]

/-- INIT by a variant that exists (R93). -/
theorem decodeInit_legal {v : BitVec 2} (h : v ≠ 3) : ∃ i, decodeInit v = .legal i := by
  obtain ⟨n⟩ := v
  fin_cases n
  exacts [⟨_, rfl⟩, ⟨_, rfl⟩, ⟨_, rfl⟩, absurd rfl h]

/-- START by a mode that exists (R94). -/
theorem decodeStart_legal {m : BitVec 3} (h : m.toNat ≤ 4) : ∃ i, decodeStart m = .legal i := by
  rw [decodeStart]
  generalize m.toNat = n at h
  interval_cases n <;> exact ⟨_, rfl⟩

/-- Well-formed fields are those of a command, operation by operation (R92). -/
theorem decodeFields_legal {f : CommandFields} (h : f.wellFormed = true) : ∃ i, decodeFields f = .legal i := by
  obtain ⟨hzero, ⟨hlow, hhigh⟩, hdir, hmode, hvar, hvar3, hmode4⟩ := (wellFormed_iff f).1 h
  obtain ⟨op, dir, mode, var, zero⟩ := f
  dsimp only at hzero hlow hhigh hdir hmode hvar hvar3 hmode4
  subst hzero
  obtain rfl | rfl | rfl | rfl | rfl : op = 1 ∨ op = 2 ∨ op = 3 ∨ op = 4 ∨ op = 5 := by
    simp only [← BitVec.toNat_inj]
    change op.toNat = 1 ∨ op.toNat = 2 ∨ op.toNat = 3 ∨ op.toNat = 4 ∨ op.toNat = 5
    omega
  case inl =>
    obtain ⟨rfl, rfl⟩ : dir = 0 ∧ mode = 0 := by simpa using And.intro hdir hmode
    exact decodeInit_legal hvar3
  case inr.inl =>
    obtain ⟨rfl, rfl⟩ : mode = 0 ∧ var = 0 := by simpa using And.intro hmode hvar
    obtain rfl | rfl := BitVec.eq_zero_or_eq_one dir <;> exact ⟨_, rfl⟩
  case inr.inr.inl =>
    obtain ⟨rfl, rfl⟩ : dir = 0 ∧ var = 0 := by simpa using And.intro hdir hvar
    exact decodeStart_legal hmode4
  case inr.inr.inr.inl =>
    obtain ⟨rfl, rfl⟩ : mode = 0 ∧ var = 0 := by simpa using And.intro hmode hvar
    obtain rfl | rfl := BitVec.eq_zero_or_eq_one dir <;> exact ⟨_, rfl⟩
  case inr.inr.inr.inr =>
    obtain ⟨rfl, rfl, rfl⟩ : dir = 0 ∧ mode = 0 ∧ var = 0 := by simpa using And.intro hdir (And.intro hmode hvar)
    exact ⟨_, rfl⟩

/-- Settles O2: a command's word splits into its well-formed fields, and well-formed fields decode to a command. -/
theorem wordLegalIffFieldsWellFormed : Obligations.WordLegalIffFieldsWellFormed := by
  refine fun w => ⟨fun ⟨i, hi⟩ => ?_, decodeFields_legal⟩
  obtain rfl := decode_eq_legal_iff.1 hi
  obtain ⟨hfields, -, -⟩ := encoding_statement i
  rwa [splitFields_encode]

/-- Settles O3: each word's fields, read off its bits, lead the decoder to its answer. -/
theorem decodeOfWrittenWords : Obligations.DecodeOfWrittenWords := by
  refine ⟨?_, ?_, ?_, ?_, ?_, ?_, ?_, ?_⟩ <;> decide

end Sys2Proof
end

section
/-! The host port (20_memory.md R60 to R67): what each kind of transaction serves, and so what the step does that takes
it from the events. -/

namespace Sys2Proof.Machine

/-! The ranges of the four transactions (R60). -/

theorem csrOffset_iff (a : Nat) : csrOffset a = true ↔ a % 4 = 0 ∧ a ≤ 0x0FC := by simp [csrOffset]

theorem bufAddress_iff (a : Nat) : bufAddress a = true ↔ 0x100 ≤ a ∧ a ≤ 0x2FFF := by simp [bufAddress]

theorem inInterface_iff (e : Event) : e.inInterface = true ↔ Spec.inInterface e := by
  cases e with
  | csrRead a => exact csrOffset_iff a
  | csrWrite a v => exact csrOffset_iff a
  | bufRead a => exact bufAddress_iff a
  | bufWrite a b => exact bufAddress_iff a
  | otherWidth a n => exact iff_of_false Bool.false_ne_true id
  | reset => exact iff_of_true rfl trivial

/-- Outside the interface nothing is served. -/
theorem serve_of_not_inInterface {e : Event} (h : ¬ e.inInterface = true) (s : State) :
    serve e s = .refused .outsideInterface := by
  cases e with
  | csrRead a => exact if_neg h
  | csrWrite a v => exact if_neg h
  | bufRead a => exact if_neg h
  | bufWrite a b => exact if_neg h
  | otherWidth a n => rfl
  | reset => exact absurd rfl h

/-- Inside it nothing is refused. -/
theorem serve_of_inInterface {e : Event} (h : e.inInterface = true) (s : State) : ∃ t, serve e s = .next t := by
  cases e with
  | csrRead a => exact ⟨_, if_pos h⟩
  | csrWrite a v =>
    by_cases hc : a = cmdOffset
    · obtain ⟨t, ht, -⟩ := runCommand_effect v s
      exact ⟨t, (if_pos h).trans ((if_pos hc).trans ht)⟩
    · exact ⟨_, (if_pos h).trans (if_neg hc)⟩
  | bufRead a => exact ⟨_, if_pos h⟩
  | bufWrite a b => exact ⟨_, if_pos h⟩
  | otherWidth a n => cases h
  | reset => exact ⟨_, rfl⟩

section
variable {s : State} {rest : List Event}

theorem step_of_event {e : Event} (h : s.inputs = e :: rest) : step s = serve e { s with inputs := rest } := by
  rw [step, h]

theorem step_of_csrRead {a : Nat} (h : s.inputs = .csrRead a :: rest) (ha : csrOffset a = true) :
    step s = .next { s with inputs := rest, trace := s.trace ++ [.csr (csrValue s a)] } :=
  (step_of_event h).trans (if_pos ha)

theorem step_of_csrWrite {a : Nat} {v : Reg32} (h : s.inputs = .csrWrite a v :: rest) (ha : csrOffset a = true)
    (hc : a ≠ cmdOffset) : step s = .next (csrStore a v { s with inputs := rest }) :=
  (step_of_event h).trans ((if_pos ha).trans (if_neg hc))

theorem step_of_bufRead {a : Nat} (h : s.inputs = .bufRead a :: rest) (ha : bufAddress a = true) :
    step s = .next { s with inputs := rest, trace := s.trace ++ [.byte (bufValue s a)] } :=
  (step_of_event h).trans (if_pos ha)

theorem step_of_bufWrite {a : Nat} {b : Byte} (h : s.inputs = .bufWrite a b :: rest) (ha : bufAddress a = true) :
    step s = .next (bufStore a b { s with inputs := rest }) :=
  (step_of_event h).trans (if_pos ha)

end

/-- Settles O7: the interface of R60 is what `serve` accepts. -/
theorem transactionRunsOrIsOutsideInterface : Obligations.TransactionRunsOrIsOutsideInterface := by
  intro s e rest hin
  rw [step_of_event hin, ← inInterface_iff]
  exact ⟨fun h => serve_of_inInterface h _, fun h => serve_of_not_inInterface h _⟩

/-- Settles O8: no event, no change. -/
theorem stepWaitsForTheHost : Obligations.StepWaitsForTheHost := by
  intro s hin
  rw [step, hin]

/-- Settles O4: a word written to CMD runs, and the decoder says which command it is. -/
theorem stepRunsDecodedCommand : Obligations.StepRunsDecodedCommand := by
  intro s w i rest hin hdecode
  rw [step_of_command hin, runCommand, hdecode]

/-- Settles O38: the reset event is served as `hardReset`. -/
theorem resetEventRestoresTheResetState : Obligations.ResetEventRestoresTheResetState :=
  fun _ _ hin => step_of_event hin

/-! Registers (10_state.md R30 to R41). -/

/-- STATUS as the host reads it is STATUS field by field (R33). -/
theorem statusWord_eq_status (s : State) : statusWord s = Spec.status s := by
  simp only [statusWord, Spec.status]
  obtain _ | c := s.lastErr
  · cases s.phase <;> cases s.var <;> cases s.mode <;> rfl
  · cases s.phase <;> cases s.var <;> cases s.mode <;> cases c <;> rfl

/-- Each row of the register list: a register offset, and the value read there. -/
theorem csrValue_of_mem_registers {s : State} {a : Nat} {v : Reg32} (h : (a, v) ∈ Spec.registers s) :
    csrOffset a = true ∧ csrValue s a = v := by
  rw [Spec.registers, ← statusWord_eq_status] at h
  simp only [List.mem_cons, List.not_mem_nil, or_false, Prod.mk.injEq] at h
  obtain h | h | h | h | h | h | h | h | h | h | h := h <;> obtain ⟨rfl, rfl⟩ := h <;> exact ⟨rfl, rfl⟩

/-- The registers from 0x02C on are reserved (R66). -/
theorem csrValue_reserved (s : State) {a : Nat} (h : 0x02C ≤ a) : csrValue s a = 0 := by
  unfold csrValue
  split
  case h_11 => rfl
  all_goals omega

theorem csrStore_ignored (s : State) (v : Reg32) {a : Nat} (h : a = 0x000 ∨ a = 0x008 ∨ 0x020 ≤ a) :
    csrStore a v s = s := by
  unfold csrStore
  split
  case h_6 => rfl
  all_goals omega

/-- Settles O9: a read records the register's value. -/
theorem registerReadsReturnTheTable : Obligations.RegisterReadsReturnTheTable := by
  refine fun s a rest hin => ⟨fun v hrow => ?_, fun ⟨hlow, hhigh, halign⟩ => ?_⟩
  · obtain ⟨hoffset, hvalue⟩ := csrValue_of_mem_registers hrow
    rw [step_of_csrRead hin hoffset, hvalue]
  · rw [step_of_csrRead hin ((csrOffset_iff a).2 ⟨halign, hhigh⟩), csrValue_reserved s hlow]

/-- Settles O10: the new value is the old one without the bits written as one. -/
theorem errstatWriteClearsTheBitsWritten : Obligations.ErrstatWriteClearsTheBitsWritten := by
  refine fun s v rest hin => ⟨clearErrBits s.errStat v, step_of_csrWrite hin rfl (by decide), fun c => ?_⟩
  by_cases hc : c < 32
  · simp [clearErrBits, hc]
  · simp [BitVec.getLsbD_of_ge _ _ (Nat.not_lt.1 hc)]

/-- Settles O11: the four length registers, then the offsets that are ignored. -/
theorem registerWritesStoreOrAreIgnored : Obligations.RegisterWritesStoreOrAreIgnored := by
  intro s a v rest hin
  refine ⟨?_, ?_, ?_, ?_, fun h => ?_⟩
  · rintro rfl; exact step_of_csrWrite hin rfl (by decide)
  · rintro rfl; exact step_of_csrWrite hin rfl (by decide)
  · rintro rfl; exact step_of_csrWrite hin rfl (by decide)
  · rintro rfl; exact step_of_csrWrite hin rfl (by decide)
  · have hoffset : csrOffset a = true := (csrOffset_iff a).2 (by omega)
    have hcmd : a ≠ cmdOffset := by rw [cmdOffset]; omega
    rw [step_of_csrWrite hin hoffset hcmd, csrStore_ignored _ v (by omega)]

/-! Buffers (10_state.md R26, 20_memory.md R61, R66). -/

theorem writable_iff (s : State) (a : Nat) : Spec.writable s a ↔ hostWritable s.cfg a = true := by
  have hdbuf : Spec.dbuf s = dbufBytes s.cfg := rfl
  have := dbufBytes_bounds s.cfg
  rw [hostWritable_iff, Spec.writable, hdbuf]
  omega

theorem inDout_spec_iff (s : State) (a : Nat) : Spec.inDout s a ↔ inBuffer s.cfg .dout a = true := by
  have hdbuf : Spec.dbuf s = dbufBytes s.cfg := rfl
  have := dbufBytes_bounds s.cfg
  rw [inDout_iff, Spec.inDout, hdbuf]
  omega

/-- Settles O12: the byte is stored in a writable buffer, and memory is left alone elsewhere. -/
theorem bufferWritesStoreOneByte : Obligations.BufferWritesStoreOneByte := by
  intro s a b rest hm hin hlow hhigh
  rw [step_of_bufWrite hin ((bufAddress_iff a).2 ⟨hlow, hhigh⟩), writable_iff]
  by_cases hw : hostWritable s.cfg a = true
  · refine ⟨s.mem.write a b, by simp [bufStore, hw], Memory.wf_write hm a b, fun _ => ?_, fun hn => absurd hw hn⟩
    exact ⟨Memory.read_write_same hm a b, fun x hx => Memory.read_write_other s.mem b hx⟩
  · exact ⟨s.mem, by simp [bufStore, hw], hm, fun hy => absurd hy hw, fun _ => rfl⟩

/-- Settles O13: only DOUT shows its bytes. -/
theorem bufferReadsShowDoutOnly : Obligations.BufferReadsShowDoutOnly := by
  intro s a rest hin hlow hhigh
  rw [step_of_bufRead hin ((bufAddress_iff a).2 ⟨hlow, hhigh⟩), inDout_spec_iff]
  exact ⟨fun h => by rw [bufValue, if_pos h], fun h => by rw [bufValue, if_neg h]⟩

/-! What a host read can tell apart (R44, R270). -/

/-- The value of a register depends on nothing hidden. -/
theorem csrValue_of_looksAlike {s t : State} (h : Spec.looksAlike s t) (a : Nat) : csrValue s a = csrValue t a := by
  obtain ⟨hcfg, hphase, hvar, hmode, hlast, hstat, hkey, htwk, hiv, hdata, hout, hinfo, -, -⟩ := h
  simp only [csrValue, statusWord, hcfg, hphase, hvar, hmode, hlast, hstat, hkey, htwk, hiv, hdata, hout, hinfo]

/-- Nor does the byte a buffer read returns. -/
theorem bufValue_of_looksAlike {s t : State} (h : Spec.looksAlike s t) (a : Nat) : bufValue s a = bufValue t a := by
  obtain ⟨hcfg, -, -, -, -, -, -, -, -, -, -, -, hdout, -⟩ := h
  rw [bufValue, bufValue, ← hcfg]
  split
  next hin => exact hdout a ((inDout_spec_iff s a).2 hin)
  next => rfl

/-- The same value recorded in both states, and they still look alike. -/
theorem looksAlike_record {s t : State} (h : Spec.looksAlike s t) (r : ReadValue) (rs rt : List Event) :
    Spec.looksAlike { s with inputs := rs, trace := s.trace ++ [r] }
      { t with inputs := rt, trace := t.trace ++ [r] } := by
  obtain ⟨hcfg, hphase, hvar, hmode, hlast, hstat, hkey, htwk, hiv, hdata, hout, hinfo, hdout, htrace⟩ := h
  exact ⟨hcfg, hphase, hvar, hmode, hlast, hstat, hkey, htwk, hiv, hdata, hout, hinfo, hdout, by rw [htrace]⟩

/-- A host read that is served leads two states that look alike to the same record. -/
theorem looksAlike_read {s t s' t' : State} {e : Event} {rs rt : List Event} (hs : s.inputs = e :: rs)
    (ht : t.inputs = e :: rt) (he : (∃ a, e = .csrRead a) ∨ ∃ a, e = .bufRead a) (h : Spec.looksAlike s t)
    (hs' : step s = .next s') (ht' : step t = .next t') : Spec.looksAlike s' t' := by
  have hserved : e.inInterface = true := by
    by_contra hout
    rw [step_of_event hs, serve_of_not_inInterface hout] at hs'
    cases hs'
  obtain ⟨a, rfl⟩ | ⟨a, rfl⟩ := he
  · rw [step_of_csrRead hs hserved] at hs'
    rw [step_of_csrRead ht hserved, ← csrValue_of_looksAlike h] at ht'
    cases hs'; cases ht'
    exact looksAlike_record h ..
  · rw [step_of_bufRead hs hserved] at hs'
    rw [step_of_bufRead ht hserved, ← bufValue_of_looksAlike h] at ht'
    cases hs'; cases ht'
    exact looksAlike_record h ..

/-- Settles O14: the record of reads is one of the things in which the states stay alike. -/
theorem hostReadsHideKeyMaterial : Obligations.HostReadsHideKeyMaterial := by
  intro s t s' t' e rs rt hs ht he h hs' ht'
  have halike := looksAlike_read hs ht he h hs' ht'
  have ⟨_, _, _, _, _, _, _, _, _, _, _, _, _, htrace⟩ := halike
  exact ⟨htrace, halike⟩

end Sys2Proof.Machine
end

section
/-! INIT (40_key_tweak_expansion.md R120 to R129): where it completes or reports, and its schedules word by word. -/

namespace Sys2Proof.Machine

theorem exec_init (v : Variant) (s : State) :
    exec (Spec.init v) s = .next (initEngine v (encode (Spec.init v)) s) := by cases v <;> rfl

/-- A wrong length is a failure with the name and the size of that length (R251). -/
theorem raiseSize_eq_failed (l : LengthName) {e : Nat} (he : e < 256) (w : Reg32) (s : State) :
    raiseSize l e w s = Spec.failed .size e (whatCode l) w s :=
  raiseError_eq_failed .size he (whatCode_lt l) w s

/-- Settles O18: the key is checked before the tweak. -/
theorem initReportsWrongLengths : Obligations.InitReportsWrongLengths := by
  intro s v
  rw [bytes_eq_blockBytes, exec_init, encode_eq_wordOf]
  refine ⟨fun hkey => ?_, fun hkey htwk => ?_⟩
  · rw [initEngine, if_pos hkey, raiseSize_eq_failed .key (blockBytes_lt v)]
    rfl
  · rw [initEngine, if_neg (not_not.2 hkey), if_pos (show s.twkLen.toNat ≠ tweakBytes from htwk),
      raiseSize_eq_failed .twk (by decide)]
    rfl

theorem exec_init_of_lengths {s : State} {v : Variant} (hkey : s.keyLen.toNat = blockBytes v)
    (htwk : s.twkLen.toNat = tweakBytes) : exec (Spec.init v) s = .next (bindEngine v s) := by
  rw [exec_init, initEngine, if_neg (not_not.2 hkey), if_neg (not_not.2 htwk)]

theorem bufWord_key (s : State) (i : Nat) : bufWord s .key (8 * i) = Spec.key s i := bufWord_eq_word s .key _

theorem bufWord_twk (s : State) (i : Nat) : bufWord s .twk (8 * i) = Spec.tweak s i := bufWord_eq_word s .twk _

/-- The key words are those of KEYBUF (R122). -/
theorem keyWords_eq (v : Variant) (s : State) : keyWords v s = (List.range (wordCount v)).map (Spec.key s) :=
  List.map_congr_left fun i _ => bufWord_key s i

/-- The tweak words are those of TWKBUF (R122, R124). -/
theorem tweakSchedule_eq (s : State) :
    tweakSchedule s = #v[Spec.tweak s 0, Spec.tweak s 1, Spec.tweak s 0 ^^^ Spec.tweak s 1] := by
  rw [← bufWord_twk, ← bufWord_twk]
  rfl

/-- The schedule is the key words, their parity word and zeros up to the seventeenth (R123). -/
theorem keySchedule_toList (v : Variant) (s : State) : (keySchedule v s).toList
    = keyWords v s ++ [parityWord (keyWords v s)] ++ List.replicate (16 - wordCount v) 0 := by
  have hw := wordCount_le v
  refine List.ext_getElem (by simp; omega) fun i _ _ => ?_
  simp only [keySchedule, Vector.getElem_toList, Vector.getElem_ofFn]
  rw [List.getElem_append]
  split
  next hi => rw [List.getD_eq_getElem _ _ hi]
  next hi => rw [List.getD_eq_default _ _ (Nat.not_lt.1 hi), List.getElem_replicate]

/-- The schedule written out as seventeen words. -/
theorem keySchedule_eq {v : Variant} {s : State} {ks : Vector Word 17}
    (h : ks.toList = (List.range (wordCount v)).map (Spec.key s)
      ++ [parityWord ((List.range (wordCount v)).map (Spec.key s))] ++ List.replicate (16 - wordCount v) 0) :
    keySchedule v s = ks :=
  Vector.toList_inj.1 (by rw [keySchedule_toList, keyWords_eq, h])

/-- What INIT leaves, the schedules given. -/
theorem bindEngine_eq {v : Variant} {s : State} {ks : Vector Word 17} (h : keySchedule v s = ks) :
    bindEngine v s = { s with
      ks := ks
      ts := #v[Spec.tweak s 0, Spec.tweak s 1, Spec.tweak s 0 ^^^ Spec.tweak s 1]
      reg := #v[0, 0, 0, 0, 0, 0, 0, 0, 0, 0, 0, 0, 0, 0, 0, 0]
      phase := .keyed, var := v, mode := .ecb, lastErr := none, outLen := 0 } := by
  rw [bindEngine, h, tweakSchedule_eq]
  rfl

/-! The words written out are the range of key words, and the folded parity word is the sum the rule writes. -/

/-- Settles O15: the lengths are right, so INIT.256 binds the engine with the schedules of four key words. -/
theorem init256BuildsTheSchedules : Obligations.Init256BuildsTheSchedules := by
  intro s hkey htwk
  rw [← bindEngine_eq (v := .t256)]
  · exact exec_init_of_lengths (v := .t256) (by rw [hkey]; rfl) (by rw [htwk]; rfl)
  · exact keySchedule_eq rfl

/-- Settles O16: the same with eight key words. -/
theorem init512BuildsTheSchedules : Obligations.Init512BuildsTheSchedules := by
  intro s hkey htwk
  rw [← bindEngine_eq (v := .t512)]
  · exact exec_init_of_lengths (v := .t512) (by rw [hkey]; rfl) (by rw [htwk]; rfl)
  · exact keySchedule_eq rfl

/-- Settles O17: the same with sixteen key words. -/
theorem init1024BuildsTheSchedules : Obligations.Init1024BuildsTheSchedules := by
  intro s hkey htwk
  rw [← bindEngine_eq (v := .t1024)]
  · exact exec_init_of_lengths (v := .t1024) (by rw [hkey]; rfl) (by rw [htwk]; rfl)
  · exact keySchedule_eq rfl

end Sys2Proof.Machine
end

section
/-! Subkeys (41_block_cipher.md R147), and the unrolled view of the rounds (R149, R150). The rounds of the model permute
the array after each Mix; the in-place rounds leave the words where they are and mix other pairs. After d rounds the
model's array is the in-place one, read in the order of the pairs that round d mixes. -/

namespace Sys2Proof.Machine

/-! The words of a subkey. -/

section
variable (v : Variant) (ks : Vector Word 17) (ts : Vector Word 3) (s : Nat)

theorem subkey_getD {i : Nat} (hi : i < wordCount v) : (subkey v ks ts s).getD i 0
    = ks.toList.getD ((s + i) % (wordCount v + 1)) 0 + subkeyExtra v ts s i := by
  rw [List.getD_eq_getElem _ _ (by simpa using hi)]
  simp only [subkey, List.getElem_map, List.getElem_range]

theorem subkeyExtra_low {i : Nat} (hi : i < wordCount v - 3) : subkeyExtra v ts s i = 0 := by
  rw [subkeyExtra, if_neg (by omega), if_neg (by omega), if_neg (by omega)]

theorem subkeyExtra_first {i : Nat} (hi : i + 3 = wordCount v) : subkeyExtra v ts s i = ts.toList.getD (s % 3) 0 :=
  if_pos hi

theorem subkeyExtra_second {i : Nat} (hi : i + 2 = wordCount v) :
    subkeyExtra v ts s i = ts.toList.getD ((s + 1) % 3) 0 := by
  rw [subkeyExtra, if_neg (by omega), if_pos hi]

theorem subkeyExtra_counter {i : Nat} (hi : i + 1 = wordCount v) : subkeyExtra v ts s i = BitVec.ofNat 64 s := by
  rw [subkeyExtra, if_neg (by omega), if_neg (by omega), if_pos hi]

end

/-- Settles O21: a schedule word at every place, and by the place what is added to it. -/
theorem subkeyWordsFollowTheSchedule : Obligations.SubkeyWordsFollowTheSchedule := by
  refine ⟨fun v ks ts s => ?_, fun ks ts s => ?_⟩
  · have hw : 4 ≤ wordCount v := by cases v <;> decide
    rw [words_eq_wordCount]
    refine ⟨subkey_length v ks ts s, fun i hi => ?_, ?_, ?_, ?_⟩
    · rw [subkey_getD _ _ _ _ (by omega), subkeyExtra_low _ _ _ hi]
      exact BitVec.add_zero _
    · rw [subkey_getD _ _ _ _ (by omega), subkeyExtra_first _ _ _ (by omega)]
    · rw [subkey_getD _ _ _ _ (by omega), subkeyExtra_second _ _ _ (by omega)]
    · rw [subkey_getD _ _ _ _ (by omega), subkeyExtra_counter _ _ _ (by omega)]
  · simp [subkey, wordCount, subkeyExtra, List.range_succ_eq_map]

/-! Mixing pairs in place. -/

/-- The words that pairs name, in the order of the pairs. -/
def pairWords (p : List (Nat × Nat)) : List Nat := p.flatMap fun q => [q.1, q.2]

@[simp] theorem pairWords_cons (a b : Nat) (p : List (Nat × Nat)) :
    pairWords ((a, b) :: p) = a :: b :: pairWords p := rfl

@[simp] theorem mixAt_length (u : List Word) (q : (Nat × Nat) × Nat) : (Spec.mixAt u q).length = u.length := by
  simp [Spec.mixAt]

@[simp] theorem foldl_mixAt_length (qs : List ((Nat × Nat) × Nat)) (u : List Word) :
    (qs.foldl Spec.mixAt u).length = u.length := by
  induction qs generalizing u with
  | nil => rfl
  | cons q qs ih => rw [List.foldl_cons, ih, mixAt_length]

section
variable {u : List Word} {a b : Nat} (r : Nat)

theorem mixAt_getD_first (hab : a ≠ b) (ha : a < u.length) :
    (Spec.mixAt u ((a, b), r)).getD a 0 = (mix (u.getD a 0) (u.getD b 0) r).1 := by
  simp [Spec.mixAt, hab.symm, ha]

theorem mixAt_getD_second (hb : b < u.length) :
    (Spec.mixAt u ((a, b), r)).getD b 0 = (mix (u.getD a 0) (u.getD b 0) r).2 := by
  simp [Spec.mixAt, hb]

theorem mixAt_getD_other {i : Nat} (hia : i ≠ a) (hib : i ≠ b) :
    (Spec.mixAt u ((a, b), r)).getD i 0 = u.getD i 0 := by
  simp [Spec.mixAt, hia.symm, hib.symm]

end

/-- Mixing pairs leaves every other word. -/
theorem foldl_mixAt_getD_other {p : List (Nat × Nat)} {i : Nat} (hi : i ∉ pairWords p) (rs : List Nat) (u : List Word) :
    ((p.zip rs).foldl Spec.mixAt u).getD i 0 = u.getD i 0 := by
  induction p generalizing rs u with
  | nil => rfl
  | cons q p ih =>
    obtain ⟨a, b⟩ := q
    simp only [pairWords_cons, List.mem_cons, not_or] at hi
    obtain ⟨hia, hib, hi⟩ := hi
    cases rs with
    | nil => rfl
    | cons r rs => rw [List.zip_cons_cons, List.foldl_cons, ih hi, mixAt_getD_other r hia hib]

theorem permute_congr {p : List Nat} {x y : List Word} (h : ∀ i ∈ p, x.getD i 0 = y.getD i 0) :
    permute p x = permute p y := List.map_congr_left h

theorem permute_cons_cons (a b : Nat) (p : List Nat) (x : List Word) :
    permute (a :: b :: p) x = x.getD a 0 :: x.getD b 0 :: permute p x := rfl

/-- Mixing pairs in place, then reading the words in the order of the pairs, is reading them so and then mixing
neighbours. -/
theorem permute_foldl_mixAt {p : List (Nat × Nat)} {rs : List Nat} {u : List Word} (hrs : p.length = rs.length)
    (hdistinct : (pairWords p).Nodup) (hbound : ∀ i ∈ pairWords p, i < u.length) :
    permute (pairWords p) ((p.zip rs).foldl Spec.mixAt u) = mixPairs rs (permute (pairWords p) u) := by
  induction p generalizing rs u with
  | nil => obtain rfl := List.length_eq_zero_iff.1 hrs.symm; rfl
  | cons q p ih =>
    obtain ⟨a, b⟩ := q
    obtain _ | ⟨r, rs⟩ := rs
    · simp at hrs
    simp only [pairWords_cons, List.nodup_cons, List.mem_cons, not_or] at hdistinct
    simp only [pairWords_cons, List.forall_mem_cons] at hbound
    obtain ⟨⟨hab, ha⟩, hb, hdistinct⟩ := hdistinct
    obtain ⟨halen, hblen, hbound⟩ := hbound
    have hrest : permute (pairWords p) (Spec.mixAt u ((a, b), r)) = permute (pairWords p) u :=
      permute_congr fun i hi => mixAt_getD_other r (fun h => ha (h ▸ hi)) (fun h => hb (h ▸ hi))
    rw [List.zip_cons_cons, List.foldl_cons, pairWords_cons, permute_cons_cons, permute_cons_cons, mixPairs,
      foldl_mixAt_getD_other ha, foldl_mixAt_getD_other hb, mixAt_getD_first r hab halen, mixAt_getD_second r hblen,
      ih (by simpa using hrs) hdistinct (by simpa only [mixAt_length] using hbound), hrest]

/-! The tables of both forms (R143, R144, R149). -/

/-- The order in which round k of a group meets the words. -/
def roundOrder (v : Variant) (k : Nat) : List Nat := pairWords (Spec.pairs v k)

theorem rot_eq_rotRow (v : Variant) (d : Nat) : Spec.rot v (d % 8) = rotRow v d := by
  have h : d % 8 < 8 := Nat.mod_lt _ (by decide)
  rw [rotRow]
  generalize d % 8 = k at h
  cases v <;> interval_cases k <;> rfl

section
variable (v : Variant)

theorem roundOrder_zero : roundOrder v 0 = List.range (wordCount v) := by cases v <;> rfl

/-- The permutation after a round leads from its pairs to those of the next one. -/
theorem map_piTable_roundOrder {k : Nat} (hk : k < 4) :
    (piTable v).map (fun i => (roundOrder v k).getD i 0) = roundOrder v ((k + 1) % 4) := by
  cases v <;> interval_cases k <;> rfl

theorem roundOrder_nodup {k : Nat} (hk : k < 4) : (roundOrder v k).Nodup := by
  cases v <;> interval_cases k <;> decide

theorem roundOrder_lt {k : Nat} (hk : k < 4) : ∀ i ∈ roundOrder v k, i < wordCount v := by
  cases v <;> interval_cases k <;> decide

theorem roundOrder_length {k : Nat} (hk : k < 4) : (roundOrder v k).length = wordCount v := by
  cases v <;> interval_cases k <;> rfl

theorem piTable_lt : ∀ i ∈ piTable v, i < wordCount v := by cases v <;> decide

theorem pairs_length {k : Nat} (hk : k < 4) : 2 * (Spec.pairs v k).length = wordCount v := by
  cases v <;> interval_cases k <;> rfl

end

/-! The rounds, one by one and by groups. -/

@[simp] theorem inPlaceRound_length (v : Variant) (d : Nat) (u : List Word) :
    (Spec.inPlaceRound v d u).length = u.length := foldl_mixAt_length _ u

/-- One round: the array in the order of its own pairs becomes the mixed array in the order of the next round's. -/
theorem forwardRound_permute {v : Variant} (d : Nat) {u : List Word} (hu : u.length = wordCount v) :
    forwardRound v d (permute (roundOrder v (d % 4)) u)
      = permute (roundOrder v ((d % 4 + 1) % 4)) (Spec.inPlaceRound v d u) := by
  have hk : d % 4 < 4 := Nat.mod_lt _ (by decide)
  have hlength : (Spec.pairs v (d % 4)).length = (rotRow v d).length := by
    have := pairs_length v hk
    have := rotRow_length v d
    omega
  have hmix := permute_foldl_mixAt hlength (roundOrder_nodup v hk) (hu ▸ roundOrder_lt v hk)
  rw [forwardRound, roundOrder, ← hmix, Spec.inPlaceRound, rot_eq_rotRow, ← map_piTable_roundOrder v hk]
  exact permute_permute (roundOrder_length v hk ▸ piTable_lt v) _

/-- Four rounds bring the order of the words back to the identity (R150). -/
theorem forwardRounds_group {v : Variant} (g : Nat) {u : List Word} (hu : u.length = wordCount v) :
    forwardRound v (4 * g + 3) (forwardRound v (4 * g + 2) (forwardRound v (4 * g + 1) (forwardRound v (4 * g) u)))
      = Spec.inPlaceRound v (4 * g + 3) (Spec.inPlaceRound v (4 * g + 2) (Spec.inPlaceRound v (4 * g + 1)
          (Spec.inPlaceRound v (4 * g) u))) := by
  have hround (k : Nat) (hk : k < 4) {w : List Word} (hw : w.length = wordCount v) :
      forwardRound v (4 * g + k) (permute (roundOrder v k) w)
        = permute (roundOrder v ((k + 1) % 4)) (Spec.inPlaceRound v (4 * g + k) w) := by
    have h := forwardRound_permute (4 * g + k) hw
    rwa [show (4 * g + k) % 4 = k by omega] at h
  have hidentity (w : List Word) (hw : w.length = wordCount v) : permute (roundOrder v 0) w = w := by
    rw [roundOrder_zero, ← hw, permute_range]
  have h0 := hround 0 (by decide) hu
  rw [hidentity u hu] at h0
  rw [show forwardRound v (4 * g) u = permute (roundOrder v 1) (Spec.inPlaceRound v (4 * g) u) from h0,
    hround 1 (by decide) (by simp [hu]), hround 2 (by decide) (by simp [hu]), hround 3 (by decide) (by simp [hu])]
  exact hidentity _ (by simp [hu])

section
variable (v : Variant) (ks : Vector Word 17) (ts : Vector Word 3)

/-- A group of the model: the subkey, then four rounds. -/
theorem encryptRounds_group (g : Nat) (x : List Word) : encryptRounds v ks ts (4 * (g + 1)) x
    = forwardRound v (4 * g + 3) (forwardRound v (4 * g + 2) (forwardRound v (4 * g + 1) (forwardRound v (4 * g)
        (inject (encryptRounds v ks ts (4 * g) x) (subkey v ks ts g))))) := by
  rw [show 4 * (g + 1) = 4 * g + 3 + 1 by omega, encryptRounds, if_neg (by omega), encryptRounds, if_neg (by omega),
    encryptRounds, if_neg (by omega), encryptRounds, if_pos (by omega), Nat.mul_div_cancel_left g (by decide)]

theorem encryptRounds_eq_inPlaceGroups (g : Nat) {x : List Word} (hx : x.length = wordCount v) :
    encryptRounds v ks ts (4 * g) x = Spec.inPlaceGroups v ks ts g x := by
  induction g with
  | zero => rfl
  | succ g ih =>
    have hlength := encryptRounds_length v ks ts (4 * g) hx
    rw [encryptRounds_group, forwardRounds_group g (by simp [hlength]), ih]
    rfl

end

theorem roundCount_eq (v : Variant) : roundCount v = 4 * Spec.groups v := by cases v <;> rfl

/-- Settles O22: the rounds are whole groups, and both forms end with the same injection. -/
theorem inPlaceRoundsComputeEncryption : Obligations.InPlaceRoundsComputeEncryption := by
  intro v ks ts x hx
  rw [words_eq_wordCount] at hx
  rw [encryptWords, roundCount_eq, encryptRounds_eq_inPlaceGroups v ks ts _ hx, Nat.mul_div_cancel_left _ (by decide)]
  rfl

/-- Settles O26: the three blocks, run through the rounds. -/
theorem knownAnswersOfTheVariants : Obligations.KnownAnswersOfTheVariants := by
  refine ⟨?_, ?_, ?_⟩ <;> decide +kernel

end Sys2Proof.Machine
end

section
/-! ENCB and DECB (R153 to R155), the errors of START and XFORM (R171, R175), and DISPOSE (R240). -/

namespace Sys2Proof.Machine

/-- E_K or D_K, by the direction of the block command (R154, R155). -/
def blockFunction (dir : Dir) (s : State) : List Byte → List Byte :=
  match dir with
  | .encrypt => encryptBlock s
  | .decrypt => decryptBlock s

theorem exec_block (dir : Dir) (s : State) :
    exec (Spec.block dir) s = .next (blockCommand (blockFunction dir s) (encode (Spec.block dir)) s) := by
  cases dir <;> rfl

/-- Settles O24: a completed block command stores one block at the base of DOUT. -/
theorem blockCommandsWriteOneBlock : Obligations.BlockCommandsWriteOneBlock := by
  intro s dir hm hengine hdata
  rw [bytes_eq_blockBytes] at hdata ⊢
  refine ⟨s.mem.writeBytes 0x2000 (blockFunction dir s (s.mem.readBytes 0x1000 (blockBytes s.var))), ?_, ?_,
    encryptBlock_length .., decryptBlock_length ..⟩
  · rw [exec_block, blockCommand, needsEngine_eq_none hengine]
    exact congrArg _ (if_neg (not_not.2 hdata))
  · cases dir <;> exact doutHolds_writeBytes hm _

section
variable (f : List Byte → List Byte) (w : Reg32) {s : State}

/-! A failing command reports the error of its phase check or the size it requires. -/

theorem blockCommand_of_phaseError {c : Cause} (h : needsEngine s.phase = some c) :
    blockCommand f w s = Spec.failed c 0 0 w s := by
  rw [blockCommand, h, ← raiseCause_eq_failed]

theorem startStream_of_phaseError (m : Mode) {c : Cause} (h : needsEngine s.phase = some c) :
    startStream m w s = Spec.failed c 0 0 w s := by
  rw [startStream, h, ← raiseCause_eq_failed]

theorem xformCommand_of_phaseError (dir : Dir) {c : Cause} (h : needsStream s.phase = some c) :
    xformCommand dir w s = Spec.failed c 0 0 w s := by
  rw [xformCommand, h, ← raiseCause_eq_failed]

theorem blockCommand_of_dataLen_ne (hengine : Spec.engine s) (h : s.dataLen.toNat ≠ blockBytes s.var) :
    blockCommand f w s = Spec.failed .size (blockBytes s.var) 4 w s := by
  rw [blockCommand, needsEngine_eq_none hengine]
  exact (if_pos h).trans (raiseSize_eq_failed .data (blockBytes_lt _) w s)

theorem startStream_of_ivLen_ne (m : Mode) (hengine : Spec.engine s) (h : s.ivLen.toNat ≠ blockBytes s.var) :
    startStream m w s = Spec.failed .size (blockBytes s.var) 3 w s := by
  rw [startStream, needsEngine_eq_none hengine]
  exact (if_pos h).trans (raiseSize_eq_failed .iv (blockBytes_lt _) w s)

theorem xformCommand_of_not_xformSize (dir : Dir) (hphase : s.phase = .stream) (h : ¬ Spec.xformSize s) :
    xformCommand dir w s = Spec.failed .size (blockBytes s.var) 4 w s := by
  rw [xformSize_iff] at h
  rw [xformCommand, hphase]
  exact (if_neg h).trans (raiseSize_eq_failed .data (blockBytes_lt _) w s)

end

/-- Settles O25: the phase is checked before the size. -/
theorem blockCommandsReportErrors : Obligations.BlockCommandsReportErrors := by
  intro s dir
  rw [exec_block, encode_eq_wordOf, bytes_eq_blockBytes]
  refine ⟨fun hp => ?_, fun hp => ?_, fun hengine hdata => ?_⟩
  · exact congrArg _ (blockCommand_of_phaseError _ _ (hp ▸ rfl))
  · exact congrArg _ (blockCommand_of_phaseError _ _ (hp ▸ rfl))
  · exact congrArg _ (blockCommand_of_dataLen_ne _ _ hengine hdata)

/-- Settles O28: the phase is checked before the size. -/
theorem startReportsErrors : Obligations.StartReportsErrors := by
  intro s m
  rw [exec_start, encode_eq_wordOf, bytes_eq_blockBytes]
  refine ⟨fun hp => ?_, fun hp => ?_, fun hengine hiv => ?_⟩
  · exact congrArg _ (startStream_of_phaseError _ _ (hp ▸ rfl))
  · exact congrArg _ (startStream_of_phaseError _ _ (hp ▸ rfl))
  · exact congrArg _ (startStream_of_ivLen_ne _ _ hengine hiv)

/-- Settles O29: the phase is checked before the size. -/
theorem xformReportsErrors : Obligations.XformReportsErrors := by
  intro s dir
  rw [exec_xform, encode_eq_wordOf, bytes_eq_blockBytes]
  refine ⟨fun hp => ?_, fun hp => ?_, fun hp hsize => ?_⟩
  · exact congrArg _ (xformCommand_of_phaseError _ _ (hp ▸ rfl))
  · exact congrArg _ (xformCommand_of_phaseError _ _ (needsStream_eq_sequence hp))
  · exact congrArg _ (xformCommand_of_not_xformSize _ _ hp hsize)

/-- Settles O30: the increment of the CTR register is the rule's. -/
theorem counterBlockIncrementsByOne : Obligations.CounterBlockIncrementsByOne := incCounter_eq_inc

/-- Settles O35: DISPOSE is `scrub`, whose zero words the statement writes out. -/
theorem disposeZeroesEverySecret : Obligations.DisposeZeroesEverySecret :=
  fun _ => ⟨rfl, Memory.read_nil⟩

end Sys2Proof.Machine
end

section
/-! Splitting an XFORM (R179), and the modes that only add a keystream (R196). -/

namespace Sys2Proof.Machine

/-- REG is its byte image below the block and its words above it (R173). -/
theorem reg_eq_of_regBytes {s t : State} (hvar : t.var = s.var) (hbytes : regBytes t = regBytes s)
    (habove : ∀ i : Fin 16, wordCount s.var ≤ i.val → t.reg[i] = s.reg[i]) : t.reg = s.reg := by
  have hw := wordCount_le s.var
  have hwords (u : State) (hu : u.var = s.var) :
      u.reg.toList.take (wordCount s.var) = wordsOf (wordCount s.var) (regBytes u) := by
    rw [regBytes, hu, wordsOf_bytesOf_of_length (by simp; omega)]
  have htake : t.reg.toList.take (wordCount s.var) = s.reg.toList.take (wordCount s.var) := by
    rw [hwords t hvar, hwords s rfl, hbytes]
  refine Vector.ext fun i hi => ?_
  by_cases hlow : i < wordCount s.var
  · simpa [List.getElem?_take, hlow, hi] using congrArg (·[i]?) htake
  · exact habove ⟨i, hi⟩ (Nat.not_lt.1 hlow)

@[simp] theorem runXform_var (dir : Dir) (s : State) : (runXform dir s).var = s.var := by rw [runXform_eq]

/-- XFORM leaves the words of REG above the block. -/
theorem runXform_reg_above (dir : Dir) (s : State) {i : Fin 16} (hi : wordCount s.var ≤ i.val) :
    (runXform dir s).reg[i] = s.reg[i] := xformBlocks_reg_above dir _ s hi

/-! Two pieces of one stream. -/

/-- `t` has the parameters, the engine and the bound mode of `s`. -/
structure SameStream (s t : State) : Prop where
  cfg : t.cfg = s.cfg
  phase : t.phase = s.phase
  var : t.var = s.var
  mode : t.mode = s.mode
  ks : t.ks = s.ks
  ts : t.ts = s.ts

theorem SameStream.trans {s t u : State} (h : SameStream s t) (h' : SameStream t u) : SameStream s u where
  cfg := h'.cfg.trans h.cfg
  phase := h'.phase.trans h.phase
  var := h'.var.trans h.var
  mode := h'.mode.trans h.mode
  ks := h'.ks.trans h.ks
  ts := h'.ts.trans h.ts

theorem sameStream_runXform (dir : Dir) (s : State) : SameStream s (runXform dir s) := by
  rw [runXform_eq]
  exact ⟨rfl, rfl, rfl, rfl, rfl, rfl⟩

theorem SameStream.modeRule {s t : State} (h : SameStream s t) (dir : Dir) :
    Spec.modeRule t dir = Spec.modeRule s dir := modeRule_congr h.cfg h.var h.mode h.ks h.ts dir

theorem SameStream.regBytes {s t : State} (h : SameStream s t) (hreg : t.reg = s.reg) : regBytes t = regBytes s := by
  rw [Machine.regBytes, hreg, h.var, Machine.regBytes]

/-- The chain depends on the stream, the register and DIN only. -/
theorem SameStream.streamChain {s t : State} (h : SameStream s t) (hreg : t.reg = s.reg) (hmem : t.mem = s.mem)
    (dir : Dir) (n : Nat) : streamChain dir n t = streamChain dir n s := by
  rw [Machine.streamChain, h.modeRule, h.regBytes hreg, inputBlocks_eq_blocksOf, h.var, hmem,
    ← inputBlocks_eq_blocksOf, Machine.streamChain]

theorem block_end_le {i n : Nat} (k : Nat) (h : i < n) : i * k + k ≤ n * k := by
  rw [← Nat.succ_mul]
  exact Nat.mul_le_mul_right k h

/-- The chain over n1 + n2 blocks is the chain over the first n1, continued in a state with the same rule, the register
reached, and the other n2 blocks at the start of DIN. -/
theorem streamChain_add {s b : State} {dir : Dir} {n1 n2 : Nat} (hsame : SameStream s b)
    (hreg : regBytes b = (streamChain dir n1 s).2)
    (hdin : ∀ k, k < n2 * blockBytes s.var →
      b.mem.read (0x1000 + k) = s.mem.read (0x1000 + n1 * blockBytes s.var + k)) :
    streamChain dir (n1 + n2) s
      = ((streamChain dir n1 s).1 ++ (streamChain dir n2 b).1, (streamChain dir n2 b).2) := by
  have hblocks : Spec.inputBlocks s (n1 + n2) = Spec.inputBlocks s n1 ++ Spec.inputBlocks b n2 := by
    rw [Spec.inputBlocks, Spec.inputBlocks, Spec.inputBlocks, List.range_add, List.map_append, List.map_map, hsame.var,
      bytes_eq_blockBytes]
    refine congrArg _ (List.map_congr_left fun i hi => Memory.readBytes_congr fun k hk => ?_)
    have hi := block_end_le (blockBytes s.var) (List.mem_range.1 hi)
    rw [Nat.add_mul, ← Nat.add_assoc, Nat.add_assoc _ (i * _), Nat.add_assoc _ (i * _), hdin _ (by omega)]
  rw [streamChain, hblocks, chain_append, ← streamChain, ← hreg, ← hsame.modeRule]
  rfl

/-- A byte string read in two parts. -/
theorem Memory.readBytes_parts {m : Memory} {a n k : Nat} {xs ys : List Byte} (h : m.readBytes a (n + k) = xs ++ ys)
    (hn : xs.length = n) : m.readBytes a n = xs ∧ m.readBytes (a + n) k = ys := by
  rw [Memory.readBytes_add] at h
  exact List.append_inj h (by simp [hn])

theorem toNat_dataLen {n : Nat} (h : n ≤ 4096) : (BitVec.ofNat 32 n).toNat = n := by
  rw [BitVec.toNat_ofNat]
  omega

/-- Whole blocks, at least one of them and no more than DIN holds, are a size XFORM accepts. -/
theorem xformSize_of_blocks {s : State} {n : Nat} (hn : 0 < n) (hdata : s.dataLen.toNat = n * blockBytes s.var)
    (hle : s.dataLen.toNat ≤ dbufBytes s.cfg) : Spec.xformSize s := by
  rw [xformSize_iff, xformSizeOk_iff]
  exact ⟨hdata ▸ Nat.mul_pos hn (blockBytes_pos _), hdata ▸ Nat.mul_mod_left .., hle⟩

theorem dataBlocks_of_blocks {s : State} {n : Nat} (hdata : s.dataLen.toNat = n * blockBytes s.var) :
    dataBlocks s = n := by
  rw [dataBlocks, hdata, Nat.mul_div_cancel _ (blockBytes_pos _)]

/-- Two XFORMs, `a` over the first n1 blocks of `s` and `b` over the other n2 from where `a` ends, against one over
all. -/
theorem runXform_split {s a b : State} {dir : Dir} {n1 n2 : Nat} (hm : s.mem.wf = true) (hbm : b.mem.wf = true)
    (hsa : SameStream s a) (hab : SameStream (runXform dir a) b) (hrega : a.reg = s.reg) (hmema : a.mem = s.mem)
    (hregb : b.reg = (runXform dir a).reg) (hsize : Spec.xformSize s) (hsizea : Spec.xformSize a)
    (hsizeb : Spec.xformSize b) (hdata : s.dataLen.toNat = (n1 + n2) * blockBytes s.var)
    (hdataa : a.dataLen.toNat = n1 * blockBytes s.var) (hdatab : b.dataLen.toNat = n2 * blockBytes s.var)
    (hdin : ∀ k, k < n2 * blockBytes s.var →
      b.mem.read (0x1000 + k) = s.mem.read (0x1000 + n1 * blockBytes s.var + k)) :
    (runXform dir s).reg = (runXform dir b).reg ∧
    (runXform dir s).mem.readBytes 0x2000 (n1 * blockBytes s.var)
      = (runXform dir a).mem.readBytes 0x2000 (n1 * blockBytes s.var) ∧
    (runXform dir s).mem.readBytes (0x2000 + n1 * blockBytes s.var) (n2 * blockBytes s.var)
      = (runXform dir b).mem.readBytes 0x2000 (n2 * blockBytes s.var) := by
  have hsb : SameStream s b := hsa.trans ((sameStream_runXform dir a).trans hab)
  have hchaina := hsa.streamChain hrega hmema dir n1
  have houta := readBytes_runXform dir (hmema ▸ hm) hsizea
  rw [dataBlocks_of_blocks (hsa.var ▸ hdataa), hchaina, hdataa] at houta
  have houtb := readBytes_runXform dir hbm hsizeb
  rw [dataBlocks_of_blocks (hsb.var ▸ hdatab), hdatab] at houtb
  have hreg : regBytes b = (streamChain dir n1 s).2 := by
    rw [hab.regBytes hregb, regBytes_runXform dir hsizea, dataBlocks_of_blocks (hsa.var ▸ hdataa), hchaina]
  have hchain := streamChain_add hsb hreg hdin
  have hout := readBytes_runXform dir hm hsize
  rw [dataBlocks_of_blocks hdata, hchain, hdata, Nat.add_mul] at hout
  obtain ⟨hfirst, hsecond⟩ := Memory.readBytes_parts hout (streamChain_length dir n1 s).1
  refine ⟨reg_eq_of_regBytes (by simp [hsb.var]) ?_ fun i hi => ?_, hfirst.trans houta.symm, hsecond.trans houtb.symm⟩
  · rw [regBytes_runXform dir hsize, dataBlocks_of_blocks hdata, hchain, regBytes_runXform dir hsizeb,
      dataBlocks_of_blocks (hsb.var ▸ hdatab)]
  · rw [runXform_var, hsb.var] at hi
    rw [runXform_reg_above dir s hi, runXform_reg_above dir b (hsb.var ▸ hi), hregb,
      runXform_reg_above dir a (hsa.var ▸ hi), hrega]

/-- Settles O32: the chain of the long XFORM is the first one's, continued by the second one's. -/
theorem xformSplitsAtBlockBoundaries : Obligations.XformSplitsAtBlockBoundaries := by
  intro s a b t ta tb dir n1 n2 hm hphase hn1 hn2 hdata hle ha ht hta hb hbm hdin htb
  simp only [bytes_eq_blockBytes] at hdata ha hb hdin ⊢
  have hsize := xformSize_of_blocks (n := n1 + n2) (by omega) hdata hle
  have htotal : n1 * blockBytes s.var + n2 * blockBytes s.var = s.dataLen.toNat := by rw [hdata, Nat.add_mul]
  have hmax := dataLen_le hsize
  have hsa : SameStream s a := by rw [ha]; exact ⟨rfl, rfl, rfl, rfl, rfl, rfl⟩
  have hab : SameStream ta b := by rw [hb]; exact ⟨rfl, rfl, rfl, rfl, rfl, rfl⟩
  have hdataa : a.dataLen.toNat = n1 * blockBytes s.var := by rw [ha]; exact toNat_dataLen (by omega)
  have hdatab : b.dataLen.toNat = n2 * blockBytes s.var := by rw [hb]; exact toNat_dataLen (by omega)
  change s.dataLen.toNat ≤ dbufBytes s.cfg at hle
  have hsizea : Spec.xformSize a := xformSize_of_blocks hn1 (hsa.var ▸ hdataa) (by rw [hsa.cfg]; omega)
  obtain rfl := eq_runXform ht hphase hsize
  obtain rfl := eq_runXform hta (hsa.phase.trans hphase) hsizea
  have hsb : SameStream s b := hsa.trans ((sameStream_runXform dir a).trans hab)
  have hsizeb : Spec.xformSize b := xformSize_of_blocks hn2 (hsb.var ▸ hdatab) (by rw [hsb.cfg]; omega)
  obtain rfl := eq_runXform htb (hsb.phase.trans hphase) hsizeb
  obtain ⟨hreg, hfirst, hsecond⟩ := runXform_split hm hbm hsa hab (by rw [ha]) (by rw [ha]) (by rw [hb]) hsize hsizea
    hsizeb hdata hdataa hdatab hdin
  exact ⟨hreg, fun k hk => Memory.read_eq_of_readBytes_eq hfirst hk,
    fun k hk => Memory.read_eq_of_readBytes_eq hsecond hk⟩

/-! Keystream modes. -/

/-- OFB and CTR (R184 to R189). -/
def Keystream (s : State) : Prop := s.mode = .ofb ∨ s.mode = .ctr

/-- In a keystream mode a block is added to what E_K makes of the register, in both directions. -/
theorem modeRule_keystream {s : State} (h : Keystream s) (dir : Dir) (x rb : List Byte) :
    Spec.modeRule s dir x rb = (Spec.xor x (encryptBlock s rb), (Spec.modeRule s .encrypt [] rb).2) := by
  obtain h | h := h <;> simp only [Spec.modeRule, h]

theorem boundStep_decrypt {s : State} (h : Keystream s) (x : List Byte) :
    boundStep .decrypt s x = boundStep .encrypt s x := by
  rw [boundStep_eq_modeRule, boundStep_eq_modeRule, modeRule_keystream h, ← modeRule_keystream h]

theorem xformBlocks_decrypt {s : State} (h : Keystream s) (n : Nat) :
    xformBlocks .decrypt n s = xformBlocks .encrypt n s := by
  induction n with
  | zero => rfl
  | succ n ih =>
    have hkeep : Keystream (xformBlocks .encrypt n s) := by rw [xformBlocks_eq]; exact h
    rw [xformBlocks, ih, xformBlock, boundStep_decrypt hkeep, xformBlocks, xformBlock]

theorem runXform_decrypt {s : State} (h : Keystream s) : runXform .decrypt s = runXform .encrypt s := by
  rw [runXform, xformBlocks_decrypt h, runXform]

theorem xor_append {x y : List Byte} (xs ys : List Byte) (h : x.length = y.length) :
    Spec.xor (x ++ xs) (y ++ ys) = Spec.xor x y ++ Spec.xor xs ys := List.zipWith_append h

theorem xor_comm (x y : List Byte) : Spec.xor x y = Spec.xor y x := xorBytes_comm x y

theorem replicate_zero_xor {n : Nat} {x : List Byte} (h : x.length = n) : Spec.xor (List.replicate n 0) x = x :=
  List.ext_getElem (by simp [h]) fun i _ _ => by simp [Spec.xor]

/-- The chain of a keystream rule over zero blocks is the keystream: the register is that over any blocks, and the
output over any blocks, added to them, is the keystream. -/
theorem chain_keystream {rule : List Byte → List Byte → List Byte × List Byte} {e next : List Byte → List Byte}
    {n : Nat} (hrule : ∀ x rb, rule x rb = (Spec.xor x (e rb), next rb)) (he : ∀ rb, (e rb).length = n)
    {xs : List (List Byte)} (hxs : ∀ x ∈ xs, x.length = n) (rb : List Byte) :
    Spec.chain rule (xs.map fun _ => List.replicate n 0) rb
      = (Spec.xor (Spec.chain rule xs rb).1 xs.flatten, (Spec.chain rule xs rb).2) := by
  induction xs generalizing rb with
  | nil => rfl
  | cons x xs ih =>
    obtain ⟨hx, hxs⟩ := List.forall_mem_cons.1 hxs
    have hpad : Spec.xor (Spec.xor x (e rb)) x = e rb := by
      rw [xor_comm x, xor_cancel (by rw [he, hx])]
    rw [List.map_cons, Spec.chain, Spec.chain, hrule, hrule, replicate_zero_xor (he rb), ih hxs, List.flatten_cons,
      xor_append _ _ (by simp [he, hx]), hpad]

/-- The same for XFORM: `z` is the stream of `s` over zero bytes. -/
theorem streamChain_zero {s z : State} (h : Keystream s) {n : Nat} (hsame : SameStream s z) (hreg : z.reg = s.reg)
    (hzero : ∀ k, k < n * blockBytes s.var → z.mem.read (0x1000 + k) = 0) :
    streamChain .encrypt n z = (Spec.xor (streamChain .encrypt n s).1 (s.mem.readBytes 0x1000 (n * blockBytes s.var)),
      (streamChain .encrypt n s).2) := by
  have hblocks : Spec.inputBlocks z n = (Spec.inputBlocks s n).map fun _ => List.replicate (blockBytes s.var) 0 := by
    rw [Spec.inputBlocks, Spec.inputBlocks, List.map_map, hsame.var, bytes_eq_blockBytes]
    refine List.map_congr_left fun i hi => List.ext_getElem (by simp) fun k hk _ => ?_
    have hi := block_end_le (blockBytes s.var) (List.mem_range.1 hi)
    rw [Memory.readBytes_length] at hk
    rw [Memory.readBytes_getElem, Nat.add_assoc, hzero _ (by omega)]
    exact (List.getElem_replicate _).symm
  rw [streamChain, hsame.modeRule, hsame.regBytes hreg, hblocks,
    chain_keystream (modeRule_keystream h .encrypt) (encryptBlock_length s) (fun _ => inputBlocks_block_length),
    flatten_inputBlocks, streamChain]

/-- Byte strings read from memory, added byte by byte. -/
theorem Memory.read_xor_of_readBytes {m m' m'' : Memory} {a a' a'' n k : Nat}
    (h : m''.readBytes a'' n = Spec.xor (m.readBytes a n) (m'.readBytes a' n)) (hk : k < n) :
    m.read (a + k) ^^^ m'.read (a' + k) = m''.read (a'' + k) := by
  simpa [Spec.xor, hk] using (congrArg (·[k]?) h).symm

/-- Settles O34: the rule of a keystream mode looks at neither the direction nor, for the register, the data. -/
theorem keystreamModesIgnoreDirectionAndData : Obligations.KeystreamModesIgnoreDirectionAndData := by
  intro s z t tz hm hzm hphase hmode hsize hz hzero ht htz
  have hsame : SameStream s z := by rw [hz]; exact ⟨rfl, rfl, rfl, rfl, rfl, rfl⟩
  have hreg : z.reg = s.reg := by rw [hz]
  have hdata : z.dataLen = s.dataLen := by rw [hz]
  have hzsize : Spec.xformSize z := by rw [hz]; exact hsize
  have hblocks : dataBlocks z = dataBlocks s := by rw [dataBlocks, hsame.var, hdata, dataBlocks]
  have hchain : streamChain .encrypt (dataBlocks z) z
      = (Spec.xor (streamChain .encrypt (dataBlocks s) s).1 (s.mem.readBytes 0x1000 s.dataLen.toNat),
        (streamChain .encrypt (dataBlocks s) s).2) := by
    rw [hblocks]
    rw [← dataBlocks_mul hsize] at hzero ⊢
    exact streamChain_zero hmode hsame hreg hzero
  obtain rfl := eq_runXform (dir := .encrypt) ht hphase hsize
  obtain rfl := eq_runXform (dir := .encrypt) htz (hsame.phase.trans hphase) hzsize
  refine ⟨?_, reg_eq_of_regBytes (by simp [hsame.var]) ?_ fun i hi => ?_, fun k hk => ?_⟩
  · exact runXform_decrypt hmode ▸ exec_xform_of_xformSize .decrypt hphase hsize
  · rw [regBytes_runXform .encrypt hzsize, hchain, regBytes_runXform .encrypt hsize]
  · rw [runXform_var] at hi
    rw [runXform_reg_above .encrypt s (hsame.var ▸ hi), runXform_reg_above .encrypt z hi, hreg]
  · refine Memory.read_xor_of_readBytes ?_ hk
    have hout := readBytes_runXform .encrypt hzm hzsize
    rw [hchain, hdata] at hout
    rw [hout, readBytes_runXform .encrypt hm hsize]

end Sys2Proof.Machine
end

section
/-! What a command does not read: LASTERR, ERRSTAT, ERRINFO and OUT_LEN (60_exceptions.md R264). -/

namespace Sys2Proof.Machine

/-- The state with other values in its four error registers. -/
def withErrors (le : Option Cause) (es ei ol : Reg32) (s : State) : State :=
  { s with lastErr := le, errStat := es, errInfo := ei, outLen := ol }

/-- `t` is `u` but for ERRSTAT and ERRINFO. -/
def AgreeButErrors (t u : State) : Prop := t = { u with errStat := t.errStat, errInfo := t.errInfo }

/-- A check both states pass or both fail. -/
theorem AgreeButErrors.ite {p : Prop} [Decidable p] {a b c d : State} (h : AgreeButErrors a c)
    (h' : AgreeButErrors b d) :
    AgreeButErrors (if p then a else b) (if p then c else d) := by
  split
  · exact h
  · exact h'

section
variable (le : Option Cause) (es ei ol : Reg32) (s : State)

@[simp] theorem withErrors_phase : (withErrors le es ei ol s).phase = s.phase := rfl

/-! In a failing command and in a completing one alike, every field but ERRSTAT and ERRINFO is set or copied. -/

theorem initEngine_agree (v : Variant) (w : Reg32) :
    AgreeButErrors (initEngine v w s) (initEngine v w (withErrors le es ei ol s)) :=
  .ite (p := s.keyLen.toNat ≠ blockBytes v) rfl (.ite (p := s.twkLen.toNat ≠ tweakBytes) rfl rfl)

theorem blockCommand_agree (f : List Byte → List Byte) (w : Reg32) :
    AgreeButErrors (blockCommand f w s) (blockCommand f w (withErrors le es ei ol s)) := by
  rw [blockCommand, blockCommand, withErrors_phase]
  cases needsEngine s.phase with
  | some c => exact rfl
  | none => exact .ite (p := s.dataLen.toNat ≠ blockBytes s.var) rfl rfl

theorem startStream_agree (m : Mode) (w : Reg32) :
    AgreeButErrors (startStream m w s) (startStream m w (withErrors le es ei ol s)) := by
  rw [startStream, startStream, withErrors_phase]
  cases needsEngine s.phase with
  | some c => exact rfl
  | none => exact .ite (p := s.ivLen.toNat ≠ blockBytes s.var) rfl rfl

/-- The block loop carries the error registers along unread. -/
theorem xformBlocks_withErrors (dir : Dir) (n : Nat) :
    xformBlocks dir n (withErrors le es ei ol s) = withErrors le es ei ol (xformBlocks dir n s) := by
  induction n with
  | zero => rfl
  | succ n ih => rw [xformBlocks, ih]; rfl

theorem runXform_withErrors (dir : Dir) : runXform dir (withErrors le es ei ol s) = complete s.dataLen
    (withErrors le es ei ol (xformBlocks dir (s.dataLen.toNat / blockBytes s.var) s)) :=
  congrArg (complete s.dataLen) (xformBlocks_withErrors ..)

theorem runXform_agree (dir : Dir) : AgreeButErrors (runXform dir s) (runXform dir (withErrors le es ei ol s)) := by
  rw [runXform_withErrors]
  rfl

theorem xformCommand_agree (dir : Dir) (w : Reg32) :
    AgreeButErrors (xformCommand dir w s) (xformCommand dir w (withErrors le es ei ol s)) := by
  rw [xformCommand, xformCommand, withErrors_phase]
  cases needsStream s.phase with
  | some c => exact rfl
  | none => exact .ite (p := xformSizeOk s = true) (runXform_agree le es ei ol s dir) rfl

theorem exec_agree (i : Instr) : ∃ t u, exec i s = .next t ∧ exec i (withErrors le es ei ol s) = .next u ∧
    AgreeButErrors t u := by
  cases i
  case init256 => exact ⟨_, _, rfl, rfl, initEngine_agree ..⟩
  case init512 => exact ⟨_, _, rfl, rfl, initEngine_agree ..⟩
  case init1024 => exact ⟨_, _, rfl, rfl, initEngine_agree ..⟩
  case encb => exact ⟨_, _, rfl, rfl, blockCommand_agree ..⟩
  case decb => exact ⟨_, _, rfl, rfl, blockCommand_agree ..⟩
  case startEcb => exact ⟨_, _, rfl, rfl, startStream_agree ..⟩
  case startCbc => exact ⟨_, _, rfl, rfl, startStream_agree ..⟩
  case startCfb => exact ⟨_, _, rfl, rfl, startStream_agree ..⟩
  case startOfb => exact ⟨_, _, rfl, rfl, startStream_agree ..⟩
  case startCtr => exact ⟨_, _, rfl, rfl, startStream_agree ..⟩
  case xformE => exact ⟨_, _, rfl, rfl, xformCommand_agree ..⟩
  case xformD => exact ⟨_, _, rfl, rfl, xformCommand_agree ..⟩
  case dispose => exact ⟨_, _, rfl, rfl, rfl⟩

end

/-- Settles O40: no check and no effect reads an error register. -/
theorem errorRegistersDoNotInfluenceCommands : Obligations.ErrorRegistersDoNotInfluenceCommands := by
  intro i s t le es ei ol h
  obtain ⟨t', u, ht, hu, hagree⟩ := exec_agree le es ei ol s i
  obtain rfl : t' = t := Host.Outcome.next.inj (ht.symm.trans h)
  exact ⟨u, hu, hagree⟩

end Sys2Proof.Machine
end

section
/-! What a command writes: OUT_LEN (10_state.md R39), REG (R23) and memory (20_memory.md R76, R77). -/

namespace Sys2Proof.Machine

/-- The commands that write DOUT (R77). -/
def WritesDout (i : Instr) : Prop := i = .encb ∨ i = .decb ∨ i = .xformE ∨ i = .xformD

theorem not_writesDout_init (v : Variant) : ¬ WritesDout (Spec.init v) := by cases v <;> simp [WritesDout, Spec.init]

theorem not_writesDout_start (m : Mode) : ¬ WritesDout (Spec.start m) := by cases m <;> simp [WritesDout, Spec.start]

theorem not_writesDout_dispose : ¬ WritesDout .dispose := by simp [WritesDout]

theorem writesDout_block (dir : Dir) : WritesDout (Spec.block dir) := by cases dir <;> simp [WritesDout, Spec.block]

theorem writesDout_xform (dir : Dir) : WritesDout (Spec.xform dir) := by cases dir <;> simp [WritesDout, Spec.xform]

/-- A command failed, with an effect of `raiseError` alone, or `done` holds of it. -/
def FailedOr (s t : State) (done : Prop) : Prop := (∃ c e k w, t = raiseError c e k w s) ∨ done

section
variable (w : Reg32) (s : State)

theorem initEngine_failedOr (v : Variant) : FailedOr s (initEngine v w s) (initEngine v w s = bindEngine v s) := by
  obtain ⟨-, h⟩ | ⟨-, -, h⟩ | ⟨-, -, h⟩ := initEngine_cases v w s
  · exact .inl ⟨_, _, _, _, h⟩
  · exact .inl ⟨_, _, _, _, h⟩
  · exact .inr h

theorem blockCommand_failedOr (f : List Byte → List Byte) : FailedOr s (blockCommand f w s)
    (s.dataLen.toNat = blockBytes s.var ∧ blockCommand f w s = runBlock f s) := by
  obtain ⟨-, h⟩ | ⟨-, h⟩ | ⟨-, -, h⟩ | ⟨-, hdata, h⟩ := blockCommand_cases f w s
  · exact .inl ⟨_, _, _, _, h⟩
  · exact .inl ⟨_, _, _, _, h⟩
  · exact .inl ⟨_, _, _, _, h⟩
  · exact .inr ⟨hdata, h⟩

theorem startStream_failedOr (m : Mode) : FailedOr s (startStream m w s) (startStream m w s = openStream m s) := by
  obtain ⟨-, h⟩ | ⟨-, h⟩ | ⟨-, -, h⟩ | ⟨-, -, h⟩ := startStream_cases m w s
  · exact .inl ⟨_, _, _, _, h⟩
  · exact .inl ⟨_, _, _, _, h⟩
  · exact .inl ⟨_, _, _, _, h⟩
  · exact .inr h

theorem xformCommand_failedOr (dir : Dir) : FailedOr s (xformCommand dir w s)
    (Spec.xformSize s ∧ xformCommand dir w s = runXform dir s) := by
  obtain ⟨-, h⟩ | ⟨-, h⟩ | ⟨-, -, h⟩ | ⟨-, hsize, h⟩ := xformCommand_cases dir w s
  · exact .inl ⟨_, _, _, _, h⟩
  · exact .inl ⟨_, _, _, _, h⟩
  · exact .inl ⟨_, _, _, _, h⟩
  · exact .inr ⟨(xformSize_iff s).2 hsize, h⟩

end

/-- What a command that completes writes of OUT_LEN, REG and memory, by its kind. -/
inductive Completed (i : Instr) (s t : State) : Prop
  /-- INIT and START write REG but no byte. -/
  | loads (hdout : ¬ WritesDout i) (hout : t.outLen = 0) (hmem : t.mem = s.mem)
  /-- DISPOSE writes both. -/
  | zeroizes (hi : i = .dispose) (hout : t.outLen = 0)
  /-- ENCB, DECB and XFORM store DATA_LEN bytes at the base of DOUT; the first two leave REG. -/
  | stores (hdout : WritesDout i) (hout : t.outLen = s.dataLen)
      (hreg : i = .encb ∨ i = .decb → t.reg = s.reg) (bs : List Byte) (hbs : bs.length = t.outLen.toNat)
      (hmem : t.mem = s.mem.writeBytes 0x2000 bs)

theorem completed_runBlock {s : State} {dir : Dir} {f : List Byte → List Byte}
    (hf : ∀ x, (f x).length = blockBytes s.var) (hdata : s.dataLen.toNat = blockBytes s.var) :
    Completed (Spec.block dir) s (runBlock f s) := by
  have hout : (runBlock f s).outLen = s.dataLen := by
    rw [runBlock, complete_outLen, ← hdata, BitVec.ofNat_toNat, BitVec.setWidth_eq]
  exact .stores (writesDout_block dir) hout (fun _ => rfl) _ (by rw [hf, hout, hdata]) rfl

theorem completed_runXform {s : State} (dir : Dir) (hsize : Spec.xformSize s) :
    Completed (Spec.xform dir) s (runXform dir s) := by
  have hout : (runXform dir s).outLen = s.dataLen := by rw [runXform_eq]
  refine .stores (writesDout_xform dir) hout (fun h => ?_) _ ?_ (runXform_mem dir hsize)
  · cases dir <;> simp [Spec.xform] at h
  · rw [streamChain_dataBlocks_length dir hsize, hout]

/-- Every command fails, with an effect of `raiseError` alone, or completes as its kind does. -/
theorem exec_completed {i : Instr} {s t : State} (h : exec i s = .next t) :
    FailedOr s t (t.lastErr = none ∧ Completed i s t) := by
  obtain ⟨v, rfl, rfl⟩ | ⟨dir, f, rfl, hf, rfl⟩ | ⟨m, rfl, rfl⟩ | ⟨dir, rfl, rfl⟩ | ⟨rfl, rfl⟩ := exec_cases h
  · refine (initEngine_failedOr (encode (Spec.init v)) s v).imp_right fun hdone => ?_
    rw [hdone]
    exact ⟨rfl, .loads (not_writesDout_init v) rfl rfl⟩
  · refine (blockCommand_failedOr (encode (Spec.block dir)) s f).imp_right fun ⟨hdata, hdone⟩ => ?_
    rw [hdone]
    refine ⟨rfl, completed_runBlock ?_ hdata⟩
    obtain rfl | rfl := hf
    · exact encryptBlock_length s
    · exact decryptBlock_length s
  · refine (startStream_failedOr (encode (Spec.start m)) s m).imp_right fun hdone => ?_
    rw [hdone]
    exact ⟨rfl, .loads (not_writesDout_start m) rfl rfl⟩
  · refine (xformCommand_failedOr (encode (Spec.xform dir)) s dir).imp_right fun ⟨hsize, hdone⟩ => ?_
    rw [hdone]
    exact ⟨rfl, completed_runXform dir hsize⟩
  · exact .inr ⟨rfl, .zeroizes rfl rfl⟩

/-- Settles O41: OUT_LEN is 0 after a failure, and by its kind after a command that completes. -/
theorem outLenCountsTheBytesWritten : Obligations.OutLenCountsTheBytesWritten := by
  intro i s t h
  change (t.lastErr = none → WritesDout i → t.outLen = s.dataLen) ∧ (t.lastErr ≠ none ∨ ¬ WritesDout i → t.outLen = 0)
  obtain ⟨c, e, k, w, rfl⟩ | ⟨hdone, hout⟩ := exec_completed h
  · exact ⟨nofun, fun _ => rfl⟩
  · cases hout with
    | loads hdout hout _ => exact ⟨fun _ hi => absurd hi hdout, fun _ => hout⟩
    | zeroizes hi hout => exact ⟨fun _ hd => absurd (hi ▸ hd) not_writesDout_dispose, fun _ => hout⟩
    | stores hdout hout _ _ _ _ => exact ⟨fun _ _ => hout, fun hn => absurd hn (by simp [hdone, hdout])⟩

/-! One step: the event that changes REG or a byte. -/

/-- The kinds of event a step can serve, for a field that only a command, a host write to a buffer or reset may change:
otherwise it is that of the state before. -/
theorem step_changes {α : Type} {get : State → α} (hraise : ∀ c e k w s, get (raiseError c e k w s) = get s)
    (hstore : ∀ a v s, get (csrStore a v s) = get s) (hobserve : ∀ r s, get (observe r s) = get s)
    (htake : ∀ s rest, get { s with inputs := rest } = get s) {s t : State} (h : step s = .next t)
    (hne : get t ≠ get s) :
    (∃ rest, s.inputs = .reset :: rest) ∨
    (∃ a b rest, s.inputs = .bufWrite a b :: rest ∧ t = bufStore a b { s with inputs := rest }) ∨
    ∃ i rest, s.inputs = .csrWrite 0x004 (Spec.wordOf i) :: rest ∧ t.lastErr = none ∧
      Completed i { s with inputs := rest } t := by
  obtain ⟨-, rfl⟩ | ⟨e, rest, hin, hserve, -⟩ := step_effect h
  · exact absurd rfl hne
  obtain ⟨rfl, -⟩ | ⟨w, rfl, hrun⟩ | ⟨a, v, -, -, rfl⟩ | ⟨a, b, rfl, ht⟩ | ⟨r, rfl⟩ := serve_cases hserve
  · exact .inl ⟨rest, hin⟩
  · obtain ⟨i, rfl, hexec⟩ | ⟨c, rfl⟩ := runCommand_cases hrun
    · obtain ⟨c, e, k, w, rfl⟩ | ⟨hdone, hcompleted⟩ := exec_completed hexec
      · exact absurd ((hraise ..).trans (htake s rest)) hne
      · exact .inr (.inr ⟨i, rest, hin, hdone, hcompleted⟩)
    · exact absurd ((hraise ..).trans (htake s rest)) hne
  · exact absurd ((hstore ..).trans (htake s rest)) hne
  · exact .inr (.inl ⟨a, b, rest, hin, ht⟩)
  · exact absurd ((hobserve ..).trans (htake s rest)) hne

theorem csrStore_reg (a : Nat) (v : Reg32) (s : State) : (csrStore a v s).reg = s.reg := by
  unfold csrStore
  split <;> rfl

theorem csrStore_mem (a : Nat) (v : Reg32) (s : State) : (csrStore a v s).mem = s.mem := by
  unfold csrStore
  split <;> rfl

theorem bufStore_reg (a : Nat) (b : Byte) (s : State) : (bufStore a b s).reg = s.reg := by
  unfold bufStore
  split <;> rfl

/-- Settles O43: of the events that may change REG, a host write to a buffer does not, and no completed ENCB or DECB. -/
theorem registerChangesOnlyByStreamCommands : Obligations.RegisterChangesOnlyByStreamCommands := by
  intro s t h hne
  obtain hreset | ⟨a, b, rest, -, rfl⟩ | ⟨i, rest, hin, hdone, hcompleted⟩ :=
    step_changes (get := State.reg) (fun _ _ _ _ _ => rfl) csrStore_reg (fun _ _ => rfl) (fun _ _ => rfl) h hne
  · exact .inl hreset
  · exact absurd (bufStore_reg ..) hne
  · have hi : ¬ (i = .encb ∨ i = .decb) := by
      rintro hi
      cases hcompleted with
      | loads hdout _ _ => exact hdout (hi.elim .inl fun h => .inr (.inl h))
      | zeroizes hdispose _ => simp [hdispose] at hi
      | stores _ _ hreg _ _ _ => exact hne (hreg hi)
    exact .inr ⟨i, rest, hin, fun h => hi (.inl h), fun h => hi (.inr h), hdone⟩

/-- A host write that changes a byte is to that byte, in a buffer the host may write. -/
theorem bufStore_changes {a x : Nat} {b : Byte} {s : State} (h : (bufStore a b s).mem.read x ≠ s.mem.read x) :
    a = x ∧ Spec.writable s x := by
  unfold bufStore at h
  split at h
  next hwritable =>
    obtain rfl : a = x := by
      by_contra hax
      exact h (Memory.read_write_other s.mem b (Ne.symm hax))
    exact ⟨rfl, (writable_iff s a).2 hwritable⟩
  next => exact absurd rfl h

/-- Settles O44: a host write changes its own byte, and a command that stores DATA_LEN bytes in DOUT changes those. -/
theorem memoryChangesOnlyWhereTheRulesSay : Obligations.MemoryChangesOnlyWhereTheRulesSay := by
  intro s t x h hne
  obtain hreset | ⟨a, b, rest, hin, rfl⟩ | ⟨i, rest, hin, hdone, hcompleted⟩ :=
    step_changes (get := fun s => s.mem.read x) (fun _ _ _ _ _ => rfl) (fun a v s => by rw [csrStore_mem])
      (fun _ _ => rfl) (fun _ _ => rfl) h hne
  · exact .inl hreset
  · obtain ⟨rfl, hwritable⟩ := bufStore_changes (s := { s with inputs := rest }) hne
    exact .inr (.inr (.inl ⟨b, rest, hin, hwritable⟩))
  · cases hcompleted with
    | loads _ _ hmem => exact absurd (by rw [hmem]) hne
    | zeroizes hi _ => exact .inr (.inl ⟨rest, hi ▸ hin⟩)
    | stores hdout _ _ bs hbs hmem =>
      refine .inr (.inr (.inr ⟨i, rest, hin, hdone, hdout, ?_⟩))
      rw [hmem] at hne
      by_contra hout
      exact hne (Memory.read_writeBytes_outside _ bs (by omega))

end Sys2Proof.Machine
end

section
/-! Host software: the paddings (43_host_layers.md R217 to R223). A padded string is the input, some filling and the pad
count, whichever of the counting strategies made it. -/

namespace Sys2Proof.Machine

/-! Reading back x ++ filling ++ [count]. -/

section
variable {n : Nat} {x filling : List Byte}

theorem toNat_count (h : n ≤ 255) : (BitVec.ofNat 8 n).toNat = n := by
  rw [BitVec.toNat_ofNat]
  omega

theorem lastCount_append (hn : n ≤ 255) : lastCount (x ++ filling ++ [BitVec.ofNat 8 n]) = n := by
  rw [lastCount, List.getLastD_concat, toNat_count hn]

theorem padded_length (hpos : 1 ≤ n) (hfill : filling.length = n - 1) :
    (x ++ filling ++ [BitVec.ofNat 8 n]).length = x.length + n := by
  simp only [List.length_append, List.length_singleton, hfill]
  omega

theorem countFits_append {b : Nat} (hpos : 1 ≤ n) (hb : n ≤ b) (hn : n ≤ 255) (hfill : filling.length = n - 1) :
    countFits b (x ++ filling ++ [BitVec.ofNat 8 n]) = true := by
  rw [countFits, lastCount_append hn, padded_length hpos hfill]
  simp [hpos, hb]

theorem dropPad_append (hpos : 1 ≤ n) (hn : n ≤ 255) (hfill : filling.length = n - 1) :
    dropPad (x ++ filling ++ [BitVec.ofNat 8 n]) = x := by
  rw [dropPad, lastCount_append hn, padded_length hpos hfill, Nat.add_sub_cancel, List.append_assoc, List.take_left]

theorem padRegion_append (hpos : 1 ≤ n) (hn : n ≤ 255) (hfill : filling.length = n - 1) :
    padRegion (x ++ filling ++ [BitVec.ofNat 8 n]) = filling ++ [BitVec.ofNat 8 n] := by
  rw [padRegion, lastCount_append hn, padded_length hpos hfill, Nat.add_sub_cancel, List.append_assoc, List.drop_left]

end

/-! The pad count (R217). -/

theorem padCount_bounds {b : Nat} (hb : 1 ≤ b) (len : Nat) : 1 ≤ padCount b len ∧ padCount b len ≤ b := by
  have := Nat.mod_lt len hb
  rw [padCount]
  omega

/-- The count completes the last block. -/
theorem add_padCount_mod {b : Nat} (hb : 1 ≤ b) (len : Nat) : (len + padCount b len) % b = 0 := by
  have := Nat.mod_lt len hb
  have hsplit := Nat.div_add_mod len b
  rw [show len + padCount b len = b * (len / b) + b by rw [padCount]; omega, Nat.mul_add_mod, Nat.mod_self]

/-- What a counting strategy puts between the input and the pad count (R220 to R222). -/
def padFilling (p : Padding) (n : Nat) (filler : Nat → Byte) : List Byte :=
  match p with
  | .pkcs7 => List.replicate (n - 1) (BitVec.ofNat 8 n)
  | .iso10126 => (List.range (n - 1)).map filler
  | _ => List.replicate (n - 1) 0

theorem padFilling_length (p : Padding) (n : Nat) (filler : Nat → Byte) : (padFilling p n filler).length = n - 1 := by
  cases p <;> simp [padFilling]

/-- The n bytes of a PKCS7 pad are its filling and its count. -/
theorem replicate_count {n : Nat} (h : 1 ≤ n) (c : Byte) : List.replicate n c = List.replicate (n - 1) c ++ [c] := by
  rw [← List.replicate_succ', Nat.sub_add_cancel h]

theorem removes_iff (p : Padding) : Spec.removes p ↔ removesBytes p = true := by
  cases p <;> simp [Spec.removes, removesBytes]

/-- Pad of a counting strategy (R220 to R222). -/
theorem pad_of_removes {p : Padding} (hp : Spec.removes p) {b : Nat} (hb : 1 ≤ b) (filler : Nat → Byte)
    (x : List Byte) : pad p b filler x = .ok
      (x ++ padFilling p (padCount b x.length) filler ++ [BitVec.ofNat 8 (padCount b x.length)]) := by
  obtain ⟨hpos, -⟩ := padCount_bounds hb x.length
  obtain rfl | rfl | rfl := hp
  · rw [pad, replicate_count hpos, ← List.append_assoc]
    rfl
  · rfl
  · rfl

/-- Unpad of a counting strategy gives the input back, whatever its pad count. -/
theorem unpad_of_removes {p : Padding} (hp : Spec.removes p) {b n : Nat} (hpos : 1 ≤ n) (hn : n ≤ b) (hb : b ≤ 255)
    (filler : Nat → Byte) (x : List Byte) :
    unpad p b (x ++ padFilling p n filler ++ [BitVec.ofNat 8 n]) = .ok x := by
  have hbyte := hn.trans hb
  have hfill := padFilling_length p n filler
  have hfits := countFits_append (x := x) hpos hn hbyte hfill
  have hdrop := dropPad_append (x := x) hpos hbyte hfill
  have hregion := padRegion_append (x := x) hpos hbyte hfill
  obtain rfl | rfl | rfl := hp
  · have hall : (padFilling .pkcs7 n filler ++ [BitVec.ofNat 8 n]).all (fun c => c.toNat == n) = true := by
      simp only [padFilling, ← replicate_count hpos, List.all_eq_true, List.mem_replicate]
      rintro c ⟨-, rfl⟩
      exact beq_iff_eq.2 (toNat_count hbyte)
    rw [unpad, hfits, hregion, lastCount_append hbyte, hall, hdrop]
    rfl
  · have hall : (padFilling .ansiX923 n filler).all (fun c => c == 0) = true := by simp [padFilling]
    rw [unpad, hfits, hregion, List.dropLast_concat, hall, hdrop]
    rfl
  · rw [unpad, hfits, hdrop]
    rfl

/-- Settles O47: the pad count lies from 1 to b and completes the last block. -/
theorem unpadUndoesPad : Obligations.UnpadUndoesPad := by
  intro p b filler x hp hb hb255
  obtain ⟨hpos, hn⟩ := padCount_bounds hb x.length
  have hlength := padded_length (x := x) hpos (padFilling_length p _ filler)
  refine ⟨_, pad_of_removes hp hb filler x, hlength, ?_, ?_, unpad_of_removes hp hpos hn hb255 filler x⟩
  · rw [hlength, add_padCount_mod hb]
  · rw [List.append_assoc, List.take_left]

/-- PKCS7 succeeds where the count fits and the pad region is uniform (R220). -/
theorem unpad_pkcs7_eq_ok {b : Nat} {x y : List Byte} (h : unpad .pkcs7 b x = .ok y) :
    (1 ≤ lastCount x ∧ lastCount x ≤ b ∧ lastCount x ≤ x.length) ∧ (∀ c ∈ padRegion x, c.toNat = lastCount x) ∧
      y = dropPad x := by
  rw [unpad] at h
  split at h
  next hok =>
    cases h
    simpa [countFits, and_assoc] using hok
  next => cases h

/-- A string is what `dropPad` leaves and its pad region. -/
theorem dropPad_append_padRegion (x : List Byte) : dropPad x ++ padRegion x = x := List.take_append_drop ..

/-- Settles O48: a uniform pad region of n bytes of value n is what PKCS7 looks for. -/
theorem pkcs7UnpadsExactlyUniformPads : Obligations.Pkcs7UnpadsExactlyUniformPads := by
  refine fun b x y hb => ⟨⟨fun h => ?_, ?_⟩, fun hnone => ?_⟩
  · obtain ⟨⟨hpos, hn, hlen⟩, huniform, rfl⟩ := unpad_pkcs7_eq_ok h
    have hregion : padRegion x = List.replicate (lastCount x) (BitVec.ofNat 8 (lastCount x)) := by
      refine List.eq_replicate_iff.2 ⟨?_, fun c hc => ?_⟩
      · rw [padRegion, List.length_drop]
        omega
      · rw [← huniform c hc, BitVec.ofNat_toNat, BitVec.setWidth_eq]
    exact ⟨lastCount x, hpos, hn, by rw [← hregion, dropPad_append_padRegion]⟩
  · rintro ⟨n, hpos, hn, rfl⟩
    rw [replicate_count hpos, ← List.append_assoc]
    exact unpad_of_removes (p := .pkcs7) (.inl rfl) hpos hn hb (fun _ => 0) y
  · rw [unpad] at hnone ⊢
    split
    next hok => exact absurd (if_pos hok) (hnone _)
    next => rfl

end Sys2Proof.Machine
end

section
/-! Host software: the stream object (43_host_layers.md R224 to R227) and the buffers the wrapper generates (R216). -/

namespace Sys2Proof.Machine

/-! One call of the stream transform (R225). -/

section
variable {t : CipherTransform} {len : Nat}

theorem withholds_iff : t.withholds len = true ↔
    t.dir = .decrypt ∧ Spec.removes t.padding ∧ len % blockBytes t.variant = 0 := by
  rw [removes_iff]
  simp [CipherTransform.withholds, and_assoc]

/-- Whole blocks are sent, and no more than there are. -/
theorem sendCount_spec (t : CipherTransform) (len : Nat) :
    t.sendCount len % blockBytes t.variant = 0 ∧ t.sendCount len ≤ len := by
  rw [CipherTransform.sendCount]
  split
  next h =>
    obtain ⟨-, -, hmod⟩ := withholds_iff.1 h
    refine ⟨?_, Nat.sub_le ..⟩
    obtain hlt | hle := Nat.lt_or_ge len (blockBytes t.variant)
    · rw [Nat.sub_eq_zero_of_le hlt.le, Nat.zero_mod]
    · rw [← Nat.mod_eq_sub_mod hle, hmod]
  next => exact ⟨Nat.mul_mod_left .., Nat.div_mul_le_self ..⟩

/-- What is kept of a positive number of whole blocks that is withheld from: one block. -/
theorem sub_sendCount_of_withholds (h : t.withholds len = true) (hlen : 0 < len) :
    len - t.sendCount len = blockBytes t.variant := by
  obtain ⟨-, -, hmod⟩ := withholds_iff.1 h
  have hle := Nat.le_of_dvd hlen (Nat.dvd_of_mod_eq_zero hmod)
  rw [CipherTransform.sendCount, if_pos h]
  omega

/-- In every other case: the tail that fills no block. -/
theorem sub_sendCount_of_not_withholds (h : ¬ (t.withholds len = true ∧ 0 < len)) :
    len - t.sendCount len = len % blockBytes t.variant := by
  rw [CipherTransform.sendCount]
  split
  next hw =>
    obtain rfl : len = 0 := by
      by_contra hne
      exact h ⟨hw, Nat.pos_of_ne_zero hne⟩
    simp
  next =>
    have := Nat.div_add_mod' len (blockBytes t.variant)
    omega

end

/-- A call that succeeds splits the residual and the input at the number of bytes it sends. -/
theorem update_eq_ok {t t' : CipherTransform} {input out : List Byte} (h : t.update input = .ok (out, t')) :
    out = (t.residual ++ input).take (t.sendCount (t.residual ++ input).length) ∧
    t' = { t with
      residual := (t.residual ++ input).drop (t.sendCount (t.residual ++ input).length), life := .transforming } := by
  rw [CipherTransform.update] at h
  split at h
  next => cases h
  next => cases h; exact ⟨rfl, rfl⟩

/-- Settles O49: the bytes are split, whole blocks go, and the rest is one block or the tail. -/
theorem streamUpdateKeepsEveryByte : Obligations.StreamUpdateKeepsEveryByte := by
  intro t t' input out h
  obtain ⟨rfl, rfl⟩ := update_eq_ok h
  rw [bytes_eq_blockBytes]
  obtain ⟨hwhole, hle⟩ := sendCount_spec t (t.residual ++ input).length
  have hcase : (t.dir = .decrypt ∧ Spec.removes t.padding ∧ 0 < (t.residual ++ input).length ∧
      (t.residual ++ input).length % blockBytes t.variant = 0) ↔
      t.withholds (t.residual ++ input).length = true ∧ 0 < (t.residual ++ input).length := by
    rw [withholds_iff]
    tauto
  simp only [hcase, List.length_take, List.length_drop, Nat.min_eq_left hle]
  refine ⟨List.take_append_drop .., hwhole, ?_, fun ⟨hw, hlen⟩ => sub_sendCount_of_withholds hw hlen,
    sub_sendCount_of_not_withholds, trivial, trivial, trivial, trivial, trivial⟩
  by_cases hw : t.withholds (t.residual ++ input).length = true ∧ 0 < (t.residual ++ input).length
  · exact (sub_sendCount_of_withholds hw.1 hw.2).le
  · exact (sub_sendCount_of_not_withholds hw).trans_le (Nat.mod_lt _ (blockBytes_pos _)).le

/-! The life of the object (R226). -/

/-- Settles O51: every use first asks whether the object is usable. -/
theorem streamObjectsRefuseUseOutsideTheirLife : Obligations.StreamObjectsRefuseUseOutsideTheirLife := by
  intro t e s h
  have husable : t.usable = .error e := by
    obtain ⟨hlife, rfl⟩ | ⟨hlife, rfl⟩ | ⟨hlife, rfl⟩ := h <;> rw [CipherTransform.usable, hlife]
  refine ⟨fun input => ?_, fun filler => ?_⟩
  · rw [CipherTransform.transform, CipherTransform.update, husable, andThen_error]
  · rw [CipherTransform.finalize, CipherTransform.finalInput, husable, andThen_error]

theorem life_of_usable {t : CipherTransform} {a : Unit} (h : t.usable = .ok a) :
    t.life = .initialized ∨ t.life = .transforming := by
  unfold CipherTransform.usable at h
  split at h
  case h_2 hlife => exact .inl hlife
  case h_3 hlife => exact .inr hlife
  all_goals cases h

/-- Every strategy pads to whole blocks, or fails (R218 to R222). -/
theorem pad_length_mod {p : Padding} {b : Nat} (hb : 1 ≤ b) {filler : Nat → Byte} {x y : List Byte}
    (h : pad p b filler x = .ok y) : y.length % b = 0 := by
  by_cases hp : Spec.removes p
  · rw [pad_of_removes hp hb] at h
    cases h
    rw [padded_length (padCount_bounds hb _).1 (padFilling_length ..), add_padCount_mod hb]
  · cases p
    case none =>
      rw [pad] at h
      split at h
      next => cases h
      next hmod => cases h; exact not_not.1 hmod
    case zeros =>
      cases h
      have := Nat.mod_lt x.length hb
      rw [List.length_append, List.length_replicate, Nat.add_mod, Nat.mod_mod, ← Nat.add_mod,
        ← padCount, add_padCount_mod hb]
    all_goals exact absurd (by simp [Spec.removes]) hp

/-- The final segment (R226): the object is usable, and whole blocks of the padded residual, or the residual, go. -/
theorem finalInput_eq_ok {t : CipherTransform} {filler : Nat → Byte} {segment : List Byte}
    (h : t.finalInput filler = .ok segment) : (t.life = .initialized ∨ t.life = .transforming) ∧
      segment.length % blockBytes t.variant = 0 ∧
      (t.dir = .encrypt → pad t.padding (blockBytes t.variant) filler t.residual = .ok segment) ∧
      (t.dir = .decrypt → segment = t.residual) := by
  unfold CipherTransform.finalInput at h
  split at h
  next => cases h
  next husable =>
    refine ⟨life_of_usable husable, ?_⟩
    cases hdir : t.dir <;> rw [hdir] at h
    case encrypt => exact ⟨pad_length_mod (blockBytes_pos _) h, fun _ => h, nofun⟩
    case decrypt =>
      dsimp only at h
      split at h
      next => cases h
      next hmod => cases h; exact ⟨not_not.1 hmod, nofun, fun _ => rfl⟩

/-- Settles O52: each part of a finalization that succeeds has succeeded. -/
theorem finalizationRunsTheFinalSegment : Obligations.FinalizationRunsTheFinalSegment := by
  intro t t' filler s u tail h
  rw [bytes_eq_blockBytes]
  obtain ⟨s1, segment, hinput, h⟩ := andThen_eq_ok h
  obtain ⟨s2, out, hsend, h⟩ := andThen_eq_ok h
  obtain ⟨s3, tail', houtput, h⟩ := andThen_eq_ok h
  cases hinput' : t.finalInput filler <;> rw [hinput'] at hinput <;> cases hinput
  cases houtput' : t.finalOutput out <;> rw [houtput'] at houtput <;> cases houtput
  cases h
  obtain ⟨hlife, hwhole, hpad, hresidual⟩ := finalInput_eq_ok hinput'
  refine ⟨hlife, rfl, segment, out, hwhole, hsend, fun hdir => ⟨hpad hdir, ?_⟩, fun hdir => ⟨hresidual hdir, ?_⟩⟩
  · rw [CipherTransform.finalOutput, hdir] at houtput'
    exact (Except.ok.inj houtput').symm
  · rwa [CipherTransform.finalOutput, hdir] at houtput'

/-! The buffers the wrapper generates (R216). -/

theorem generateBytes_length (n : Nat) (draw : Nat → Fin 255) : (generateBytes n draw).length = n := by
  simp [generateBytes]

/-- A draw below 255, plus one, is no zero byte. -/
theorem zero_not_mem_generateBytes (n : Nat) (draw : Nat → Fin 255) : (0 : Byte) ∉ generateBytes n draw := by
  simp only [generateBytes, List.mem_map, not_exists, not_and]
  intro i _ hzero
  have hdraw := (draw i).isLt
  have hvalue : ((draw i).val + 1) % 256 = 0 := congrArg BitVec.toNat hzero
  omega

theorem use_eq_ok {α : Type} {w : Wrapper} {r : Except HostError α} {a : α} (h : w.use r = .ok a) : r = .ok a := by
  unfold Wrapper.use at h
  split at h
  next => cases h
  next => exact h

/-- Settles O53: each of the three fills its buffer with `generateBytes`. -/
theorem generatedBuffersHaveTheirLength : Obligations.GeneratedBuffersHaveTheirLength := by
  intro w w' draw
  rw [bytes_eq_blockBytes]
  refine ⟨fun h => ?_, fun h => ?_, fun h => ?_⟩ <;> cases use_eq_ok h
  · exact ⟨generateBytes_length .., zero_not_mem_generateBytes _ draw, rfl⟩
  · exact ⟨generateBytes_length .., zero_not_mem_generateBytes _ draw, rfl⟩
  · exact ⟨_, rfl, generateBytes_length .., zero_not_mem_generateBytes _ draw⟩

/-! Disposal (R227, R244). -/

/-- DISPOSE sent by the host: TFE is scrubbed, and the host has read STATUS. -/
theorem sendCommand_dispose (s : State) :
    (sendCommand .dispose s).1 = observe (.csr (statusWord (scrub s))) (scrub s) :=
  congrArg Prod.fst (sendCommand_eq (t := scrub s) rfl)

/-- Settles O54: whatever the stream came to, the object it left is disposed of, and DISPOSE cannot fail. -/
theorem streamsDisposeOnEveryExitPath : Obligations.StreamsDisposeOnEveryExitPath := by
  intro w dir c ending filler s
  refine ⟨(sendCommand .dispose (runStream w dir c ending filler s).tfe).1, ?_, ?_, rfl⟩
  · rw [sendCommand_dispose]
    rfl
  · rw [sendCommand_dispose]
    rfl

/-! One piece through TFE (R211). -/

/-- TFE with a piece in DIN and its length in DATA_LEN. -/
def loadPiece (piece : List Byte) (s : State) : State :=
  { s with mem := s.mem.writeBytes 0x1000 piece, dataLen := BitVec.ofNat 32 piece.length }

/-- `lddata` (R105). -/
theorem sendLines_lineLddata {s : State} {piece : List Byte} (h : piece.length ≤ dbufBytes s.cfg) :
    sendLines (lineLddata piece) s = (loadPiece piece s, .ok ()) := by
  have hbounds := dbufBytes_bounds s.cfg
  have hdin (k : Nat) (hk : k < piece.length) :
      hostWritable s.cfg (0x1000 + k) = true ∧ bufAddress (0x1000 + k) = true := by
    rw [hostWritable_iff, bufAddress_iff]
    omega
  rw [lineLddata, sendLines_append, show bufBase .din = 0x1000 from rfl, sendLines_lineBufw s _ _ hdin, andThen_ok,
    sendLines_lineCsrw _ _ rfl (by decide)]
  rfl

theorem sameStream_loadPiece (piece : List Byte) (s : State) : SameStream s (loadPiece piece s) :=
  ⟨rfl, rfl, rfl, rfl, rfl, rfl⟩

section
variable {s : State} {piece : List Byte}

theorem loadPiece_dataLen (h : piece.length ≤ dbufBytes s.cfg) : (loadPiece piece s).dataLen.toNat = piece.length :=
  toNat_dataLen (h.trans (dbufBytes_bounds _).2)

theorem xformSize_loadPiece (hpos : 0 < piece.length) (hwhole : piece.length % blockBytes s.var = 0)
    (hle : piece.length ≤ dbufBytes s.cfg) : Spec.xformSize (loadPiece piece s) := by
  rw [xformSize_iff, xformSizeOk_iff, loadPiece_dataLen hle]
  exact ⟨hpos, hwhole, hle⟩

/-- The chain over a piece in DIN is the chain over its blocks. -/
theorem streamChain_loadPiece (hm : s.mem.wf = true) (hsize : Spec.xformSize (loadPiece piece s))
    (hle : piece.length ≤ dbufBytes s.cfg) (dir : Dir) :
    streamChain dir (dataBlocks (loadPiece piece s)) (loadPiece piece s)
      = Spec.chain (Spec.modeRule s dir) (Spec.blocksOf (blockBytes s.var) piece) (regBytes s) := by
  have hsame := sameStream_loadPiece piece s
  have hdin : (loadPiece piece s).mem.readBytes 0x1000 piece.length = piece := Memory.readBytes_writeBytes_same hm _ _
  rw [streamChain, hsame.modeRule, hsame.regBytes rfl, inputBlocks_eq_blocksOf, dataBlocks_mul hsize,
    loadPiece_dataLen hle, hdin]
  rfl

/-- The piece runs, and the host reads what it left in DOUT. -/
theorem sendPiece_eq (t : CipherTransform) (hphase : s.phase = .stream) (hsize : Spec.xformSize (loadPiece piece s))
    (hle : piece.length ≤ dbufBytes s.cfg) :
    ∃ tr, t.sendPiece piece s = ({ runXform t.dir (loadPiece piece s) with trace := tr },
      .ok ((runXform t.dir (loadPiece piece s)).mem.readBytes 0x2000 piece.length)) := by
  have hexec : exec (xformOf t.dir) (loadPiece piece s) = .next (runXform t.dir (loadPiece piece s)) :=
    exec_xform_of_xformSize t.dir hphase hsize
  have hdone : (runXform t.dir (loadPiece piece s)).lastErr = none := rfl
  have hout : (runXform t.dir (loadPiece piece s)).outLen.toNat = piece.length := loadPiece_dataLen hle
  have hcfg : (runXform t.dir (loadPiece piece s)).cfg = s.cfg := (sameStream_runXform t.dir _).cfg
  obtain ⟨tr, htr⟩ := readOut_eq (observe (.csr (statusWord (runXform t.dir (loadPiece piece s))))
    (runXform t.dir (loadPiece piece s))) (by rw [observe_outLen, hout, observe_cfg, hcfg]; exact hle)
  refine ⟨tr, ?_⟩
  rw [CipherTransform.sendPiece, sendLines_lineLddata hle, andThen_ok, sendCommand_eq hexec, hdone, andThen_ok, htr,
    observe_outLen, hout]
  rfl

end

/-- Settles O50: the piece is loaded, transformed as the chain of the mode's rule, and read back. -/
theorem pieceRunsInTheObjectsDirection : Obligations.PieceRunsInTheObjectsDirection := by
  intro t piece s hm hphase hpos hwhole hle
  rw [bytes_eq_blockBytes] at hwhole ⊢
  have hsize := xformSize_loadPiece hpos hwhole hle
  obtain ⟨tr, hsend⟩ := sendPiece_eq t hphase hsize hle
  have hwf : (loadPiece piece s).mem.wf = true := Memory.wf_writeBytes hm _ _
  have hout := readBytes_runXform t.dir hwf hsize
  rw [loadPiece_dataLen hle, streamChain_loadPiece hm hsize hle] at hout
  have hreg := regBytes_runXform t.dir hsize
  rw [streamChain_loadPiece hm hsize hle] at hreg
  have hsame := (sameStream_loadPiece piece s).trans (sameStream_runXform t.dir _)
  rw [register_eq_regBytes, ← hout, ← hreg]
  refine ⟨_, hsend, register_eq_regBytes _, hsame.phase.trans hphase, hsame.mode, hsame.var, hsame.ks, hsame.ts,
    hsame.cfg, ?_⟩
  exact (runXform_mem t.dir hsize).symm ▸ Memory.wf_writeBytes hwf _ _

end Sys2Proof.Machine
end
